-- ==== Sys2Proof/Word.lean ====
section
/-! DEFINITION. The word types of the spec (00_scope.md R8, 10_state.md R10, R13, R16). -/

namespace Sys2Proof

/-- One byte: of memory, or of an instruction (20_memory.md R28, 30_encoding.md R44). -/
abbrev Byte := BitVec 8

/-- A single-precision element, 32 bits (40_conversion_numerics.md R74). -/
abbrev Single := BitVec 32

/-- A double-precision element, 64 bits (40_conversion_numerics.md R75). -/
abbrev Double := BitVec 64

/-- A general register, an instruction pointer, a linear address (10_state.md R16, R17), or a flags or control register,
whose width is the family's (10_state.md R18, R20 to R22; PRESUMED, log entry 37). -/
abbrev Word := BitVec 64

/-- A vector register, held at the widest `MAX_VL` the spec admits (10_state.md R10). -/
abbrev VecReg := BitVec 512

end Sys2Proof
end

