-- ==== Sys2Proof/Config.lean ====
section
/-! DEFINITION. The implementation parameters of 00_scope.md R7, as plain data held in the state and
written by no instruction. -/

namespace Sys2Proof

/-- The two modes in which the spec gives the instruction a meaning (00_scope.md R7, 60_exceptions.md R126). -/
inductive Mode where
  | mode64
  | mode32
  deriving DecidableEq, Repr

/-- The segment registers (10_state.md R19). -/
inductive SegReg where
  | es
  | cs
  | ss
  | ds
  | fs
  | gs
  deriving DecidableEq, Repr

/-- The admissible assignments of the four CPUID flags. R7's consistency constraints (AVX512VL implies
AVX512F, AVX512F implies AVX, AVX implies SSE2) leave exactly these five (DEDUCED, log entry 8). -/
inductive IsaLevel where
  | preSse2
  | sse2
  | avx
  | avx512f
  | avx512vl
  deriving DecidableEq, Repr

/-- The two admissible widths of an opmask register (00_scope.md R7, 10_state.md R13). -/
inductive OpmaskWidth where
  | kw16
  | kw64
  deriving DecidableEq, Repr

/-- The kinds of access `Translate` is asked about (20_memory.md R39). -/
inductive AccessKind where
  | dataRead
  | fetch
  deriving DecidableEq, Repr

/-- What `Translate` answers for one byte (20_memory.md R39). `device` marks memory with read side
effects and memory that is not write-back (20_memory.md R30, R42, 93_implementation_defined.md U13); that
`Translate` tells them apart is the model's (DEDUCED, log entry 20). `pf` carries the error-code bits that
paging decides: P, RSVD, and whether I/D is reported on a fetch (60_exceptions.md R113). -/
inductive Answer where
  | ok
  | device
  | ss
  | gp
  | pf (present rsvd idOnFetch : Bool)
  | ac
  deriving DecidableEq, Repr

/-- One rule of the table that stands for `Translate`: it applies to the linear addresses `first` to
`last`, and, where given, only to that segment, privilege level or kind. -/
structure TransRule where
  first  : Nat
  last   : Nat
  seg    : Option SegReg
  cpl    : Option (BitVec 2)
  kind   : Option AccessKind
  answer : Answer
  deriving DecidableEq, Repr

/-- `Translate` (20_memory.md R39) as plain data: the first rule that applies answers, else `otherwise`.
Every function of a linear address, a segment, a privilege level and a kind has such a table, since
there are finitely many (log entry 9). -/
structure Translate where
  rules     : List TransRule
  otherwise : Answer
  deriving DecidableEq, Repr

/-- The parameters of 00_scope.md R7. `MAX_VL` is not a field: R7 fixes it from the flags
(`Config.maxVl`). `mode` is a field of the state. `supportsDAZ`, whether the processor supports `MXCSR.DAZ`
(70_reset_and_hazards.md R132), is none of R7's (DESIGN CHOICE, log entry 36). -/
structure Config where
  level        : IsaLevel
  supportsDAZ  : Bool
  saeIgnoresLL : Bool
  kw           : OpmaskWidth
  laWidth      : Nat
  translate    : Translate
  deriving DecidableEq, Repr

/-- `has_SSE2` (00_scope.md R7). -/
def Config.hasSSE2 (c : Config) : Bool :=
  match c.level with
  | .preSse2 => false
  | .sse2 => true
  | .avx => true
  | .avx512f => true
  | .avx512vl => true

/-- `has_AVX` (00_scope.md R7). -/
def Config.hasAVX (c : Config) : Bool :=
  match c.level with
  | .preSse2 => false
  | .sse2 => false
  | .avx => true
  | .avx512f => true
  | .avx512vl => true

/-- `has_AVX512F` (00_scope.md R7). -/
def Config.hasAVX512F (c : Config) : Bool :=
  match c.level with
  | .preSse2 => false
  | .sse2 => false
  | .avx => false
  | .avx512f => true
  | .avx512vl => true

/-- `has_AVX512VL` (00_scope.md R7). -/
def Config.hasAVX512VL (c : Config) : Bool :=
  match c.level with
  | .preSse2 => false
  | .sse2 => false
  | .avx => false
  | .avx512f => false
  | .avx512vl => true

/-- `MAX_VL`: 512 iff AVX512F, 256 iff AVX and not AVX512F, 128 otherwise (00_scope.md R7). -/
def Config.maxVl (c : Config) : Nat :=
  if c.hasAVX512F then 512 else if c.hasAVX then 256 else 128

/-- `KW` in bits (10_state.md R13). -/
def Config.opmaskBits (c : Config) : Nat :=
  match c.kw with
  | .kw16 => 16
  | .kw64 => 64

end Sys2Proof
end

