-- ==== Sys2Proof/Syntax.lean ====
section
/-! DEFINITION. The instructions: one constructor per row of spec/opcode_table.json, with the fields its
encoding carries (30_encoding.md R45 to R64). Register numbers are assembled, the displacement is kept as
encoded, and the reserved fields whose wrong value is #UD (30_encoding.md R67 to R69) are kept, because the
spec checks them when the instruction executes (60_exceptions.md R118 step 2). -/

namespace Sys2Proof

/-- The prefix bytes every format may carry: a segment override, the address-size prefix `67`
(30_encoding.md R46), and `F0`, which is noted and is #UD (30_encoding.md R69, R71). -/
structure Prefixes where
  seg    : Option SegReg
  addr67 : Bool
  lock   : Bool
  deriving DecidableEq, Repr

/-- A displacement as encoded (30_encoding.md R63). -/
inductive Disp where
  | none
  | d8  (v : BitVec 8)
  | d32 (v : BitVec 32)
  deriving DecidableEq, Repr

/-- The memory forms of ModRM (30_encoding.md R61, R62). `ripRel` is `mod = 00, r/m = 101` in `Mode64`,
`absolute` the same ModRM value in `Mode32` (20_memory.md R38). In `sib`, `index = none` is the encoded
number 0100. `sibNoBase` is `mod = 00, SIB.base = 101`. -/
inductive Mem where
  | base (base : Fin 16) (disp : Disp)
  | ripRel (disp : BitVec 32)
  | absolute (disp : BitVec 32)
  | sib (base : Fin 16) (index : Option (Fin 16)) (scale : BitVec 2) (disp : Disp)
  | sibNoBase (index : Option (Fin 16)) (scale : BitVec 2) (disp : BitVec 32)
  deriving DecidableEq, Repr

/-- Operand 2 of a LEGACY or VEX form: a vector register or memory (30_encoding.md R58). -/
inductive Source where
  | reg (n : Fin 32)
  | mem (m : Mem)
  deriving DecidableEq, Repr

/-- Operand 2 of an EVEX form other than `{sae}`: a register (`b = 0`), or memory with `EVEX.b`
selecting the broadcast (30_encoding.md R56). -/
inductive EvexSource where
  | reg (n : Fin 32)
  | mem (bcst : Bool) (m : Mem)
  deriving DecidableEq, Repr

/-- The LEGACY format, `0F 5A /r` (30_encoding.md R49). `rex` is the REX prefix if there is one, with its
ignored `W` bit (R48). -/
structure LegacyOp where
  pre : Prefixes
  rex : Option Bool
  dst : Fin 32
  src : Source
  deriving DecidableEq, Repr

/-- A VEX format (30_encoding.md R50, R51). `badPrefix`: a `66`, `F2`, `F3` or REX byte stands before it
(R53). `w` is the ignored `VEX.W` (false in the two-byte form), `vvvv` the four bits as stored. -/
structure VexOp where
  pre       : Prefixes
  badPrefix : Bool
  w         : Bool
  vvvv      : BitVec 4
  dst       : Fin 32
  src       : Source
  deriving DecidableEq, Repr

/-- The EVEX format without `{sae}` (30_encoding.md R55). `vbar` is `V̄'` as stored. -/
structure EvexOp where
  pre       : Prefixes
  badPrefix : Bool
  w         : Bool
  vvvv      : BitVec 4
  vbar      : Bool
  z         : Bool
  aaa       : BitVec 3
  dst       : Fin 32
  src       : EvexSource
  deriving DecidableEq, Repr

/-- The EVEX format with `mod = 11` and `b = 1` (30_encoding.md R56, 42_vcvtps2pd_evex.md R103). `ll` is
`L'L` as stored. -/
structure SaeOp where
  pre       : Prefixes
  badPrefix : Bool
  w         : Bool
  vvvv      : BitVec 4
  vbar      : Bool
  z         : Bool
  ll        : BitVec 2
  aaa       : BitVec 3
  dst       : Fin 32
  src       : Fin 32
  deriving DecidableEq, Repr

/-- The instructions, in the order of spec/opcode_table.json. -/
inductive Instr where
  /-- `CVTPS2PD xmm1, xmm2/m64` (R89). -/
  | cvtps2pd (op : LegacyOp)
  /-- `VCVTPS2PD xmm1, xmm2/m64`, two-byte VEX (R90). -/
  | vcvtps2pdVex128C5 (op : VexOp)
  /-- `VCVTPS2PD xmm1, xmm2/m64`, three-byte VEX (R90). -/
  | vcvtps2pdVex128C4 (op : VexOp)
  /-- `VCVTPS2PD ymm1, xmm2/m128`, two-byte VEX (R91). -/
  | vcvtps2pdVex256C5 (op : VexOp)
  /-- `VCVTPS2PD ymm1, xmm2/m128`, three-byte VEX (R91). -/
  | vcvtps2pdVex256C4 (op : VexOp)
  /-- `VCVTPS2PD zmm1 {k1}{z}, ymm2, {sae}` (R103). -/
  | vcvtps2pdEvex512Sae (op : SaeOp)
  /-- `VCVTPS2PD xmm1 {k1}{z}, xmm2/m64/m32bcst` (R100). -/
  | vcvtps2pdEvex128 (op : EvexOp)
  /-- `VCVTPS2PD ymm1 {k1}{z}, xmm2/m128/m32bcst` (R101). -/
  | vcvtps2pdEvex256 (op : EvexOp)
  /-- `VCVTPS2PD zmm1 {k1}{z}, ymm2/m256/m32bcst` (R102). -/
  | vcvtps2pdEvex512 (op : EvexOp)
  /-- The reserved encoding `L'L = 11`, always #UD (R68). -/
  | vcvtps2pdEvexReservedLL11 (op : EvexOp)
  deriving DecidableEq, Repr

end Sys2Proof
end

