-- ==== Sys2Proof/WellFormed.lean ====
section
/-! DEFINITION. Which terms of `Instr` some byte string of the given mode encodes: the ranges of the
register numbers and the exclusions of ModRM and SIB (30_encoding.md R48, R50, R54, R57, R59 to R62, R66). -/

namespace Sys2Proof

/-- How many general registers a memory operand can name, given whether the format carries the extension
bits (30_encoding.md R61, R62): 16 in `Mode64` with them, else 8. -/
def gprLimit (m : Mode) (ext : Bool) : Nat :=
  match m with
  | .mode64 => if ext then 16 else 8
  | .mode32 => 8

/-- How many vector registers a LEGACY or VEX format can name through an extension bit: 16 in `Mode64`,
else 8 (`NVREG` of 00_scope.md R7). -/
def vecLimit (m : Mode) (ext : Bool) : Nat := gprLimit m ext

/-- How many vector registers an EVEX format can name (`NVREG` of 00_scope.md R7). -/
def evexLimit (m : Mode) : Nat :=
  match m with
  | .mode64 => 32
  | .mode32 => 8

/-- `r/m = 100` means a SIB byte, and `r/m = 101` with `mod = 00` means no base; both look at the low three
bits only (30_encoding.md R61). -/
def baseOk (b : Fin 16) (d : Disp) : Bool := b.val % 8 != 4 && (d != .none || b.val % 8 != 5)

/-- `SIB.base = 101` with `mod = 00` means no base (30_encoding.md R62). -/
def sibBaseOk (b : Fin 16) (d : Disp) : Bool := d != .none || b.val % 8 != 5

/-- The number 0100 is no index (30_encoding.md R62). -/
def indexOk (lim : Nat) (i : Option (Fin 16)) : Bool :=
  match i with
  | none => true
  | some n => n.val < lim && n.val != 4

def Mem.wf (m : Mode) (lim : Nat) : Mem → Bool
  | .base b d => b.val < lim && baseOk b d
  | .ripRel _ => m == .mode64
  | .absolute _ => m == .mode32
  | .sib b i _ d => b.val < lim && indexOk lim i && sibBaseOk b d
  | .sibNoBase i _ _ => indexOk lim i

def Source.wf (m : Mode) (regLim memLim : Nat) : Source → Bool
  | .reg n => n.val < regLim
  | .mem a => a.wf m memLim

/-- A `67` prefix in `Mode32` asks for 16-bit addressing, which is refused (30_encoding.md R66). -/
def Prefixes.wf (m : Mode) (p : Prefixes) : Bool := m == .mode64 || !p.addr67

/-- REX exists in `Mode64` only (30_encoding.md R48). -/
def LegacyOp.wf (m : Mode) (op : LegacyOp) : Bool :=
  op.pre.wf m && (m == .mode64 || op.rex.isNone)
    && op.dst.val < vecLimit m op.rex.isSome
    && op.src.wf m (vecLimit m op.rex.isSome) (gprLimit m op.rex.isSome)

/-- Two-byte VEX: `X = B = W = 0`; in `Mode32` bit 3 of the stored `vvvv` is 1 (30_encoding.md R50, R54). -/
def VexOp.wfC5 (m : Mode) (op : VexOp) : Bool :=
  op.pre.wf m && !op.w && (m == .mode64 || op.vvvv.getLsbD 3)
    && op.dst.val < vecLimit m true
    && op.src.wf m (vecLimit m false) (gprLimit m false)

/-- Three-byte VEX (30_encoding.md R51, R54). -/
def VexOp.wfC4 (m : Mode) (op : VexOp) : Bool :=
  op.pre.wf m && op.dst.val < vecLimit m true && op.src.wf m (vecLimit m true) (gprLimit m true)

def EvexSource.wf (m : Mode) : EvexSource → Bool
  | .reg n => n.val < evexLimit m
  | .mem _ a => a.wf m (gprLimit m true)

/-- EVEX: in `Mode32`, `V̄'` is stored as 1 (30_encoding.md R57). -/
def EvexOp.wf (m : Mode) (op : EvexOp) : Bool :=
  op.pre.wf m && (m == .mode64 || op.vbar) && op.dst.val < evexLimit m && op.src.wf m

def SaeOp.wf (m : Mode) (op : SaeOp) : Bool :=
  op.pre.wf m && (m == .mode64 || op.vbar) && op.dst.val < evexLimit m && op.src.val < evexLimit m

/-- Some byte string decodes to this instruction in this mode. -/
def Instr.wf (m : Mode) : Instr → Bool
  | .cvtps2pd op => op.wf m
  | .vcvtps2pdVex128C5 op => op.wfC5 m
  | .vcvtps2pdVex128C4 op => op.wfC4 m
  | .vcvtps2pdVex256C5 op => op.wfC5 m
  | .vcvtps2pdVex256C4 op => op.wfC4 m
  | .vcvtps2pdEvex512Sae op => op.wf m
  | .vcvtps2pdEvex128 op => op.wf m
  | .vcvtps2pdEvex256 op => op.wf m
  | .vcvtps2pdEvex512 op => op.wf m
  | .vcvtps2pdEvexReservedLL11 op => op.wf m

end Sys2Proof
end

