-- ==== Sys2Proof/Decode.lean ====
section
/-! DEFINITION. From bytes to instructions and back: the decode procedure of 30_encoding.md R71 over the
layouts of R46 to R64, the encoder written from the same layouts, the length of R65, and the rows of
spec/opcode_table.json (R139). -/

namespace Sys2Proof

/-! ### Register numbers (30_encoding.md R59 to R62) -/

/-- `ext ++ lo`, a general register number (R61, R62). -/
def gprOf (ext : Bool) (lo : BitVec 3) : Fin 16 :=
  ⟨(if ext then 8 else 0) + lo.toNat, by have := lo.isLt; split <;> omega⟩

/-- `hi ++ ext ++ lo`, a vector register number (R59, R60). -/
def vecOf (hi ext : Bool) (lo : BitVec 3) : Fin 32 :=
  ⟨(if hi then 16 else 0) + (if ext then 8 else 0) + lo.toNat, by
    have := lo.isLt; split <;> split <;> omega⟩

/-- The low three bits of a register number. -/
def low3 (n : Nat) : BitVec 3 := BitVec.ofNat 3 n

/-- Bit 3 of a register number. -/
def bit3 (n : Nat) : Bool := n / 8 % 2 == 1

/-- Bit 4 of a register number. -/
def bit4 (n : Nat) : Bool := n / 16 % 2 == 1

/-! ### Prefix bytes (30_encoding.md R46, R48, R71 step 1) -/

/-- The segment a prefix byte names (R46). -/
def segOfByte (b : Byte) : Option SegReg :=
  if b = 0x26#8 then some .es
  else if b = 0x2E#8 then some .cs
  else if b = 0x36#8 then some .ss
  else if b = 0x3E#8 then some .ds
  else if b = 0x64#8 then some .fs
  else if b = 0x65#8 then some .gs
  else none

/-- The prefix byte of a segment (R46). -/
def byteOfSeg : SegReg → Byte
  | .es => 0x26#8
  | .cs => 0x2E#8
  | .ss => 0x36#8
  | .ds => 0x3E#8
  | .fs => 0x64#8
  | .gs => 0x65#8

/-- What has been consumed and noted before the format: `simd` is a `66`, `F2` or `F3` byte, `redundant` a second
segment override or a second `67` (R46), `rex` the REX byte just before the format, `strayRex` one that another
prefix or REX byte follows (R48). -/
structure PrefixScan where
  seg       : Option SegReg
  addr67    : Bool
  lock      : Bool
  simd      : Bool
  redundant : Bool
  rex       : Option Byte
  strayRex  : Bool
  deriving DecidableEq, Repr

/-- Nothing noted yet. -/
def PrefixScan.start : PrefixScan := ⟨none, false, false, false, false, none, false⟩

/-- The prefixes the instruction keeps. -/
def PrefixScan.prefixes (p : PrefixScan) : Prefixes := ⟨p.seg, p.addr67, p.lock⟩

/-- A legacy prefix byte of step 1 of R71, or `none` if the byte is none. -/
def PrefixScan.note (p : PrefixScan) (b : Byte) : Option PrefixScan :=
  match segOfByte b with
  | some sg => some { p with seg := some sg, redundant := p.redundant || p.seg.isSome }
  | none =>
    if b = 0x67#8 then some { p with addr67 := true, redundant := p.redundant || p.addr67 }
    else if b = 0xF0#8 then some { p with lock := true }
    else if b = 0x66#8 || b = 0xF2#8 || b = 0xF3#8 then some { p with simd := true }
    else none

/-- A REX byte, which exists in `Mode64` only (R48). -/
def isRexByte (m : Mode) (b : Byte) : Bool := m == .mode64 && b.extractLsb' 4 4 == 4#4

/-- One more byte before the format, legacy prefix or REX, or `none` if the format starts with it. A REX byte that is
followed by another is stray (R48) and is followed further, so that the length is known before the string is
refused: an instruction over 15 bytes is #GP(0) (R44; 93_implementation_defined.md U11). -/
def PrefixScan.take (m : Mode) (p : PrefixScan) (b : Byte) : Option PrefixScan :=
  match p.note b with
  | some q => some { q with rex := none, strayRex := p.strayRex || p.rex.isSome }
  | none =>
    if isRexByte m b then some { p with rex := some b, strayRex := p.strayRex || p.rex.isSome } else none

/-- Everything before the format (R71 step 1, and REX of step 2), and the bytes of the format. -/
def scanPrefixes (m : Mode) (p : PrefixScan) : List Byte → PrefixScan × List Byte
  | [] => (p, [])
  | b :: rest =>
    match p.take m b with
    | some p' => scanPrefixes m p' rest
    | none => (p, b :: rest)

/-! ### ModRM, SIB, displacement (30_encoding.md R58 to R63) -/

/-- The displacement `mod` asks for, little-endian (R61, R63); `none` if the bytes run out. -/
def takeDisp (mod : BitVec 2) (bytes : List Byte) : Option (Disp × List Byte) :=
  if mod = 0#2 then some (.none, bytes)
  else if mod = 1#2 then
    match bytes with
    | b :: rest => some (.d8 b, rest)
    | [] => none
  else
    match bytes with
    | b0 :: b1 :: b2 :: b3 :: rest => some (.d32 (b3 ++ b2 ++ b1 ++ b0), rest)
    | _ => none

/-- A four-byte displacement without a choice by `mod` (R61, R62). -/
def takeDisp32 (bytes : List Byte) : Option (BitVec 32 × List Byte) :=
  match bytes with
  | b0 :: b1 :: b2 :: b3 :: rest => some (b3 ++ b2 ++ b1 ++ b0, rest)
  | _ => none

/-- The index register of a SIB byte; the number 0100 is none (R62). -/
def indexOf (x : Bool) (idx : BitVec 3) : Option (Fin 16) :=
  if gprOf x idx = 4 then none else some (gprOf x idx)

/-- The SIB form and what follows it (R62). -/
def takeSib (x b : Bool) (mod : BitVec 2) (bytes : List Byte) : Option (Mem × List Byte) :=
  match bytes with
  | [] => none
  | sib :: rest =>
    let index := indexOf x (sib.extractLsb' 3 3)
    let scale := sib.extractLsb' 6 2
    let bs := sib.extractLsb' 0 3
    if mod = 0#2 ∧ bs = 5#3 then
      match takeDisp32 rest with
      | none => none
      | some (d, rest') => some (.sibNoBase index scale d, rest')
    else
      match takeDisp mod rest with
      | none => none
      | some (d, rest') => some (.sib (gprOf b bs) index scale d, rest')

/-- The memory operand of a ModRM byte with `mod` not 11 (R61; R38 for `mod = 00, r/m = 101`). -/
def takeMem (m : Mode) (x b : Bool) (mod : BitVec 2) (rm : BitVec 3) (bytes : List Byte) :
    Option (Mem × List Byte) :=
  if rm = 4#3 then takeSib x b mod bytes
  else if mod = 0#2 ∧ rm = 5#3 then
    match takeDisp32 bytes with
    | none => none
    | some (d, rest) =>
      match m with
      | .mode64 => some (.ripRel d, rest)
      | .mode32 => some (.absolute d, rest)
  else
    match takeDisp mod bytes with
    | none => none
    | some (d, rest) => some (.base (gprOf b rm) d, rest)

/-- Operand 2 before the register-extension bits of the format are added. -/
inductive Rm where
  | reg (rm : BitVec 3)
  | mem (a : Mem)
  deriving DecidableEq, Repr

/-- ModRM with what follows it: the `reg` field and operand 2 (R58, R61). -/
def takeModrm (m : Mode) (x b : Bool) (bytes : List Byte) : Option (BitVec 3 × Rm × List Byte) :=
  match bytes with
  | [] => none
  | modrm :: rest =>
    let mod := modrm.extractLsb' 6 2
    let rm := modrm.extractLsb' 0 3
    if mod = 3#2 then some (modrm.extractLsb' 3 3, .reg rm, rest)
    else
      match takeMem m x b mod rm rest with
      | none => none
      | some (a, rest') => some (modrm.extractLsb' 3 3, .mem a, rest')

/-- Operand 2 of a LEGACY or VEX form (R60). -/
def sourceOf (ext : Bool) : Rm → Source
  | .reg rm => .reg (vecOf false ext rm)
  | .mem a => .mem a

/-! ### The decode procedure (30_encoding.md R71) -/

/-- Why the decoder gives a byte string no meaning. Safe: the model stops where the processor executes some
instruction, or raises #UD (log entry 34). -/
inductive DecodeRefusal where
  /-- It matches no row of the opcode table (R47, R52, R54, R56, R57, R139). -/
  | notThisInstruction
  /-- Two segment overrides or two `67` bytes (R46). -/
  | redundantPrefix
  /-- A REX byte that a legacy prefix or another REX byte follows (R48). -/
  | rexNotAdjacent
  /-- A `67` prefix in `Mode32` (R66). -/
  | sixteenBitAddressing
  /-- An extension bit stored as 0 in `Mode32` (R54, R57). -/
  | mode32ExtensionBits
  deriving DecidableEq, Repr

/-- What decoding gives: an instruction with the bytes after it, a refusal by name, or `truncated` when the
bytes end before the instruction does. -/
inductive Decoded where
  | instr (i : Instr) (rest : List Byte)
  | refused (r : DecodeRefusal)
  | truncated
  deriving DecidableEq, Repr

/-- The instruction, unless the string is one R46, R48, R54 or R57 refuses; `extBits`: an extension bit is stored as 0
in `Mode32`. Reached only when all its bytes are there. A refusal stands before the #UD of R53 or R69 that another
prefix of the same string would give (DESIGN CHOICE, log entry 34). -/
def Decoded.accept (p : PrefixScan) (extBits : Bool) (i : Instr) (rest : List Byte) : Decoded :=
  if p.strayRex then .refused .rexNotAdjacent
  else if p.redundant then .refused .redundantPrefix
  else if extBits then .refused .mode32ExtensionBits
  else .instr i rest

/-- Whether the byte string asks for 16-bit addressing (R66). -/
def PrefixScan.sixteenBit (p : PrefixScan) (m : Mode) : Bool := m == .mode32 && p.addr67

/-- A string with 16-bit addressing, from ModRM on: refused (R66) once its ModRM byte is there. R66 gives no table for
what follows ModRM (DESIGN CHOICE, log entry 25). -/
def refuseSixteenBit : List Byte → Decoded
  | [] => .truncated
  | _ :: _ => .refused .sixteenBitAddressing

/-- The LEGACY format after `0F 5A` (R49). -/
def decodeLegacy (m : Mode) (p : PrefixScan) (bytes : List Byte) : Decoded :=
  if p.sixteenBit m then refuseSixteenBit bytes
  else
    let rexBit := fun n => match p.rex with
      | some r => r.getLsbD n
      | none => false
    match takeModrm m (rexBit 1) (rexBit 0) bytes with
    | none => .truncated
    | some (reg, rm, rest) =>
      .accept p false (.cvtps2pd {
        pre := p.prefixes
        rex := p.rex.map (·.getLsbD 3)
        dst := vecOf false (rexBit 2) reg
        src := sourceOf (rexBit 0) rm }) rest

/-- In `Mode32`, `C4`, `C5` and `62` start another instruction unless bits 7:6 of the next byte are 11 (R54, R57). -/
def otherInMode32 (m : Mode) (b : Byte) : Bool := m == .mode32 && b.extractLsb' 6 2 != 3#2

/-- The two-byte VEX format after `C5`, from byte 1 on (R50, R52). -/
def decodeVex2 (m : Mode) (p : PrefixScan) (bad : Bool) (b1 : Byte) (bytes : List Byte) : Decoded :=
  match bytes with
  | opcode :: rest =>
    if b1.extractLsb' 0 2 ≠ 0#2 ∨ opcode ≠ 0x5A#8 then .refused .notThisInstruction
    else if p.sixteenBit m then refuseSixteenBit rest
    else
      match takeModrm m false false rest with
      | none => .truncated
      | some (reg, rm, rest') =>
        let op : VexOp := {
          pre := p.prefixes
          badPrefix := bad
          w := false
          vvvv := b1.extractLsb' 3 4
          dst := vecOf false (!b1.getLsbD 7) reg
          src := sourceOf false rm }
        .accept p false (if b1.getLsbD 2 then .vcvtps2pdVex256C5 op else .vcvtps2pdVex128C5 op) rest'
  | [] => .truncated

/-- The three-byte VEX format after `C4`, from byte 1 on (R51, R52, R54). -/
def decodeVex3 (m : Mode) (p : PrefixScan) (bad : Bool) (b1 : Byte) (bytes : List Byte) : Decoded :=
  match bytes with
  | b2 :: opcode :: rest =>
    if b1.extractLsb' 0 5 ≠ 1#5 ∨ b2.extractLsb' 0 2 ≠ 0#2 ∨ opcode ≠ 0x5A#8 then
      .refused .notThisInstruction
    else if p.sixteenBit m then refuseSixteenBit rest
    else
      match takeModrm m (!b1.getLsbD 6) (!b1.getLsbD 5) rest with
      | none => .truncated
      | some (reg, rm, rest') =>
        let op : VexOp := {
          pre := p.prefixes
          badPrefix := bad
          w := b2.getLsbD 7
          vvvv := b2.extractLsb' 3 4
          dst := vecOf false (!b1.getLsbD 7) reg
          src := sourceOf (!b1.getLsbD 5) rm }
        .accept p (m == .mode32 && !b1.getLsbD 5)
          (if b2.getLsbD 2 then .vcvtps2pdVex256C4 op else .vcvtps2pdVex128C4 op) rest'
  | _ => .truncated

/-- The row an EVEX form without `{sae}` belongs to, by `L'L` (R56). -/
def evexRow (ll : BitVec 2) (op : EvexOp) : Instr :=
  if ll = 0#2 then .vcvtps2pdEvex128 op
  else if ll = 1#2 then .vcvtps2pdEvex256 op
  else if ll = 2#2 then .vcvtps2pdEvex512 op
  else .vcvtps2pdEvexReservedLL11 op

/-- The EVEX instruction of the bytes `P0 P1 P2` and its operands (R55, R56, R59, R60). -/
def evexInstr (p : PrefixScan) (bad : Bool) (p0 p1 p2 : Byte) (reg : BitVec 3) (rm : Rm) : Instr :=
  let dst := vecOf (!p0.getLsbD 4) (!p0.getLsbD 7) reg
  let op := fun (src : EvexSource) => ({
    pre := p.prefixes
    badPrefix := bad
    w := p1.getLsbD 7
    vvvv := p1.extractLsb' 3 4
    vbar := p2.getLsbD 3
    z := p2.getLsbD 7
    aaa := p2.extractLsb' 0 3
    dst := dst
    src := src } : EvexOp)
  match rm with
  | .mem a => evexRow (p2.extractLsb' 5 2) (op (.mem (p2.getLsbD 4) a))
  | .reg r =>
    let src := vecOf (!p0.getLsbD 6) (!p0.getLsbD 5) r
    if p2.getLsbD 4 then
      .vcvtps2pdEvex512Sae {
        pre := p.prefixes
        badPrefix := bad
        w := p1.getLsbD 7
        vvvv := p1.extractLsb' 3 4
        vbar := p2.getLsbD 3
        z := p2.getLsbD 7
        ll := p2.extractLsb' 5 2
        aaa := p2.extractLsb' 0 3
        dst := dst
        src := src }
    else evexRow (p2.extractLsb' 5 2) (op (.reg src))

/-- The EVEX format after `62`, from `P0` on (R55 to R57). -/
def decodeEvex (m : Mode) (p : PrefixScan) (bad : Bool) (p0 : Byte) (bytes : List Byte) : Decoded :=
  match bytes with
  | p1 :: p2 :: opcode :: rest =>
    if p0.extractLsb' 0 4 ≠ 1#4 ∨ p1.extractLsb' 0 3 ≠ 4#3 ∨ opcode ≠ 0x5A#8 then
      .refused .notThisInstruction
    else if p.sixteenBit m then refuseSixteenBit rest
    else
      match takeModrm m (!p0.getLsbD 6) (!p0.getLsbD 5) rest with
      | none => .truncated
      | some (reg, rm, rest') =>
        .accept p (m == .mode32 && !(p0.getLsbD 5 && p0.getLsbD 4 && p2.getLsbD 3))
          (evexInstr p bad p0 p1 p2 reg rm) rest'
  | _ => .truncated

/-- The formats that start with `C5`, `C4` and `62`, from the byte after it on. -/
def decodeVector (m : Mode) (p : PrefixScan) (b b1 : Byte) (bytes : List Byte) : Decoded :=
  let bad := p.simd || p.rex.isSome
  if otherInMode32 m b1 then .refused .notThisInstruction
  else if b = 0xC5#8 then decodeVex2 m p bad b1 bytes
  else if b = 0xC4#8 then decodeVex3 m p bad b1 bytes
  else decodeEvex m p bad b1 bytes

/-- Step 2 of R71 from the first byte of the format. -/
def decodeFormat (m : Mode) (p : PrefixScan) (bytes : List Byte) : Decoded :=
  match bytes with
  | [] => .truncated
  | b :: rest =>
    if b = 0x0F#8 then
      match rest with
      | [] => .truncated
      | opcode :: rest' =>
        if opcode ≠ 0x5A#8 ∨ p.simd then .refused .notThisInstruction
        else decodeLegacy m p rest'
    else if b = 0xC5#8 ∨ b = 0xC4#8 ∨ b = 0x62#8 then
      match rest with
      | [] => .truncated
      | b1 :: rest' => decodeVector m p b b1 rest'
    else .refused .notThisInstruction

/-- The decoder: the procedure of R71 on the bytes from `pc`. -/
def decode (m : Mode) (bytes : List Byte) : Decoded :=
  decodeFormat m (scanPrefixes m .start bytes).1 (scanPrefixes m .start bytes).2

/-! ### Length (30_encoding.md R65) -/

def Prefixes.len (p : Prefixes) : Nat :=
  (if p.seg.isSome then 1 else 0) + (if p.addr67 then 1 else 0) + (if p.lock then 1 else 0)

def Disp.len : Disp → Nat
  | .none => 0
  | .d8 _ => 1
  | .d32 _ => 4

/-- The bytes after ModRM: SIB and displacement (R61, R62). -/
def Mem.tailLen : Mem → Nat
  | .base _ d => d.len
  | .ripRel _ => 4
  | .absolute _ => 4
  | .sib _ _ _ d => 1 + d.len
  | .sibNoBase _ _ _ => 5

def Source.tailLen : Source → Nat
  | .reg _ => 0
  | .mem a => a.tailLen

def EvexSource.tailLen : EvexSource → Nat
  | .reg _ => 0
  | .mem _ a => a.tailLen

def LegacyOp.len (op : LegacyOp) : Nat :=
  op.pre.len + (if op.rex.isSome then 1 else 0) + 2 + 1 + op.src.tailLen

/-- `prefixLen` is 2 for the two-byte and 3 for the three-byte VEX prefix. -/
def VexOp.len (prefixLen : Nat) (op : VexOp) : Nat :=
  op.pre.len + (if op.badPrefix then 1 else 0) + prefixLen + 1 + 1 + op.src.tailLen

def EvexOp.len (op : EvexOp) : Nat :=
  op.pre.len + (if op.badPrefix then 1 else 0) + 4 + 1 + 1 + op.src.tailLen

def SaeOp.len (op : SaeOp) : Nat :=
  op.pre.len + (if op.badPrefix then 1 else 0) + 4 + 1 + 1

/-- The length of an instruction in bytes (R65). -/
def Instr.len : Instr → Nat
  | .cvtps2pd op => op.len
  | .vcvtps2pdVex128C5 op => op.len 2
  | .vcvtps2pdVex128C4 op => op.len 3
  | .vcvtps2pdVex256C5 op => op.len 2
  | .vcvtps2pdVex256C4 op => op.len 3
  | .vcvtps2pdEvex512Sae op => op.len
  | .vcvtps2pdEvex128 op => op.len
  | .vcvtps2pdEvex256 op => op.len
  | .vcvtps2pdEvex512 op => op.len
  | .vcvtps2pdEvexReservedLL11 op => op.len

/-! ### The encoder -/

/-- The prefix bytes; one `66` stands for the bytes R53 forbids. -/
def encodePrefixes (p : Prefixes) (bad : Bool) : List Byte :=
  (if bad then [0x66#8] else []) ++ (if p.lock then [0xF0#8] else [])
    ++ (match p.seg with
        | some sg => [byteOfSeg sg]
        | none => [])
    ++ (if p.addr67 then [0x67#8] else [])

/-- ModRM and SIB share the layout `2 ++ 3 ++ 3` (R58, R62). -/
def pack233 (a : BitVec 2) (b c : BitVec 3) : Byte := a ++ b ++ c

def encode32 (v : BitVec 32) : List Byte :=
  [v.extractLsb' 0 8, v.extractLsb' 8 8, v.extractLsb' 16 8, v.extractLsb' 24 8]

def Disp.mod : Disp → BitVec 2
  | .none => 0#2
  | .d8 _ => 1#2
  | .d32 _ => 2#2

def Disp.encode : Disp → List Byte
  | .none => []
  | .d8 v => [v]
  | .d32 v => encode32 v

/-- The number 0100 where there is no index (R62). -/
def indexNum : Option (Fin 16) → Nat
  | none => 4
  | some n => n.val

/-- ModRM and what follows it, for a memory operand (R61, R62). -/
def Mem.encode (reg : BitVec 3) : Mem → List Byte
  | .base b d => pack233 d.mod reg (low3 b.val) :: d.encode
  | .ripRel d => pack233 0#2 reg 5#3 :: encode32 d
  | .absolute d => pack233 0#2 reg 5#3 :: encode32 d
  | .sib b i s d =>
    pack233 d.mod reg 4#3 :: pack233 s (low3 (indexNum i)) (low3 b.val) :: d.encode
  | .sibNoBase i s d => pack233 0#2 reg 4#3 :: pack233 s (low3 (indexNum i)) 5#3 :: encode32 d

/-- The `B` bit a memory operand needs (R61, R62). -/
def Mem.bBit : Mem → Bool
  | .base b _ => bit3 b.val
  | .ripRel _ => false
  | .absolute _ => false
  | .sib b _ _ _ => bit3 b.val
  | .sibNoBase _ _ _ => false

/-- The `X` bit a memory operand needs (R62). -/
def Mem.xBit : Mem → Bool
  | .base _ _ => false
  | .ripRel _ => false
  | .absolute _ => false
  | .sib _ i _ _ => bit3 (indexNum i)
  | .sibNoBase i _ _ => bit3 (indexNum i)

def Source.encode (reg : BitVec 3) : Source → List Byte
  | .reg n => [pack233 3#2 reg (low3 n.val)]
  | .mem a => a.encode reg

def Source.bBit : Source → Bool
  | .reg n => bit3 n.val
  | .mem a => a.bBit

def Source.xBit : Source → Bool
  | .reg _ => false
  | .mem a => a.xBit

def EvexSource.encode (reg : BitVec 3) : EvexSource → List Byte
  | .reg n => [pack233 3#2 reg (low3 n.val)]
  | .mem _ a => a.encode reg

def EvexSource.bBit : EvexSource → Bool
  | .reg n => bit3 n.val
  | .mem _ a => a.bBit

/-- In the EVEX format `X` is also bit 4 of a source register (R60). -/
def EvexSource.xBit : EvexSource → Bool
  | .reg n => bit4 n.val
  | .mem _ a => a.xBit

/-- `EVEX.b` (R56). -/
def EvexSource.bcst : EvexSource → Bool
  | .reg _ => false
  | .mem c _ => c

/-- REX: `0100WRXB` (R48). -/
def rexByte (w r x b : Bool) : Byte :=
  4#4 ++ BitVec.ofBool w ++ BitVec.ofBool r ++ BitVec.ofBool x ++ BitVec.ofBool b

def LegacyOp.encode (op : LegacyOp) : List Byte :=
  encodePrefixes op.pre false
    ++ (match op.rex with
        | some w => [rexByte w (bit3 op.dst.val) op.src.xBit op.src.bBit]
        | none => [])
    ++ [0x0F#8, 0x5A#8] ++ op.src.encode (low3 op.dst.val)

/-- Byte 1 of the two-byte VEX prefix (R50). -/
def vex2Byte (r : Bool) (vvvv : BitVec 4) (l : Bool) : Byte :=
  BitVec.ofBool (!r) ++ vvvv ++ BitVec.ofBool l ++ 0#2

/-- Byte 1 of the three-byte VEX prefix, map `0F` (R51). -/
def vex3Byte1 (r x b : Bool) : Byte :=
  BitVec.ofBool (!r) ++ BitVec.ofBool (!x) ++ BitVec.ofBool (!b) ++ 1#5

/-- Byte 2 of the three-byte VEX prefix (R51). -/
def vex3Byte2 (w : Bool) (vvvv : BitVec 4) (l : Bool) : Byte :=
  BitVec.ofBool w ++ vvvv ++ BitVec.ofBool l ++ 0#2

def VexOp.encodeC5 (l : Bool) (op : VexOp) : List Byte :=
  encodePrefixes op.pre op.badPrefix ++ [0xC5#8, vex2Byte (bit3 op.dst.val) op.vvvv l, 0x5A#8]
    ++ op.src.encode (low3 op.dst.val)

def VexOp.encodeC4 (l : Bool) (op : VexOp) : List Byte :=
  encodePrefixes op.pre op.badPrefix
    ++ [0xC4#8, vex3Byte1 (bit3 op.dst.val) op.src.xBit op.src.bBit, vex3Byte2 op.w op.vvvv l, 0x5A#8]
    ++ op.src.encode (low3 op.dst.val)

/-- `P0` of the EVEX prefix, map `0F` (R55). -/
def evexP0 (r x b r' : Bool) : Byte :=
  BitVec.ofBool (!r) ++ BitVec.ofBool (!x) ++ BitVec.ofBool (!b) ++ BitVec.ofBool (!r') ++ 1#4

/-- `P1` of the EVEX prefix (R55). -/
def evexP1 (w : Bool) (vvvv : BitVec 4) : Byte := BitVec.ofBool w ++ vvvv ++ 4#3

/-- `P2` of the EVEX prefix; `vbar` as stored (R55). -/
def evexP2 (z : Bool) (ll : BitVec 2) (b vbar : Bool) (aaa : BitVec 3) : Byte :=
  BitVec.ofBool z ++ ll ++ BitVec.ofBool b ++ BitVec.ofBool vbar ++ aaa

def EvexOp.encode (ll : BitVec 2) (op : EvexOp) : List Byte :=
  encodePrefixes op.pre op.badPrefix
    ++ [0x62#8, evexP0 (bit3 op.dst.val) op.src.xBit op.src.bBit (bit4 op.dst.val), evexP1 op.w op.vvvv,
        evexP2 op.z ll op.src.bcst op.vbar op.aaa, 0x5A#8]
    ++ op.src.encode (low3 op.dst.val)

def SaeOp.encode (op : SaeOp) : List Byte :=
  encodePrefixes op.pre op.badPrefix
    ++ [0x62#8, evexP0 (bit3 op.dst.val) (bit4 op.src.val) (bit3 op.src.val) (bit4 op.dst.val),
        evexP1 op.w op.vvvv, evexP2 op.z op.ll true op.vbar op.aaa, 0x5A#8,
        pack233 3#2 (low3 op.dst.val) (low3 op.src.val)]

/-- The bytes of a well-formed instruction. -/
def encode : Instr → List Byte
  | .cvtps2pd op => op.encode
  | .vcvtps2pdVex128C5 op => op.encodeC5 false
  | .vcvtps2pdVex128C4 op => op.encodeC4 false
  | .vcvtps2pdVex256C5 op => op.encodeC5 true
  | .vcvtps2pdVex256C4 op => op.encodeC4 true
  | .vcvtps2pdEvex512Sae op => op.encode
  | .vcvtps2pdEvex128 op => op.encode 0#2
  | .vcvtps2pdEvex256 op => op.encode 1#2
  | .vcvtps2pdEvex512 op => op.encode 2#2
  | .vcvtps2pdEvexReservedLL11 op => op.encode 3#2

/-! ### The opcode table (30_encoding.md R139) -/

/-- A row's `mask` and `match` byte strings. -/
structure TableRow where
  mask    : List Byte
  pattern : List Byte
  deriving DecidableEq, Repr

/-- The rows of spec/opcode_table.json, in file order. -/
def opcodeTable : List TableRow :=
  [⟨[0xFF#8, 0xFF#8, 0x00#8], [0x0F#8, 0x5A#8, 0x00#8]⟩,
   ⟨[0xFF#8, 0x07#8, 0xFF#8, 0x00#8], [0xC5#8, 0x00#8, 0x5A#8, 0x00#8]⟩,
   ⟨[0xFF#8, 0x1F#8, 0x07#8, 0xFF#8, 0x00#8], [0xC4#8, 0x01#8, 0x00#8, 0x5A#8, 0x00#8]⟩,
   ⟨[0xFF#8, 0x07#8, 0xFF#8, 0x00#8], [0xC5#8, 0x04#8, 0x5A#8, 0x00#8]⟩,
   ⟨[0xFF#8, 0x1F#8, 0x07#8, 0xFF#8, 0x00#8], [0xC4#8, 0x01#8, 0x04#8, 0x5A#8, 0x00#8]⟩]
  ++
  [⟨[0xFF#8, 0x0F#8, 0x07#8, 0x10#8, 0xFF#8, 0xC0#8], [0x62#8, 0x01#8, 0x04#8, 0x10#8, 0x5A#8, 0xC0#8]⟩,
   ⟨[0xFF#8, 0x0F#8, 0x07#8, 0x60#8, 0xFF#8, 0x00#8], [0x62#8, 0x01#8, 0x04#8, 0x00#8, 0x5A#8, 0x00#8]⟩,
   ⟨[0xFF#8, 0x0F#8, 0x07#8, 0x60#8, 0xFF#8, 0x00#8], [0x62#8, 0x01#8, 0x04#8, 0x20#8, 0x5A#8, 0x00#8]⟩,
   ⟨[0xFF#8, 0x0F#8, 0x07#8, 0x60#8, 0xFF#8, 0x00#8], [0x62#8, 0x01#8, 0x04#8, 0x40#8, 0x5A#8, 0x00#8]⟩,
   ⟨[0xFF#8, 0x0F#8, 0x07#8, 0x60#8, 0xFF#8, 0x00#8], [0x62#8, 0x01#8, 0x04#8, 0x60#8, 0x5A#8, 0x00#8]⟩]

/-- `b[i] and mask[i] = match[i]` for every byte `i` of the row (R139). -/
def maskMatch : List Byte → List Byte → List Byte → Bool
  | [], [], _ => true
  | k :: ks, p :: ps, b :: bs => b &&& k == p && maskMatch ks ps bs
  | _, _, _ => false

/-- The index of the first row a byte string matches (R71, R139). -/
def firstRow (bytes : List Byte) : Option Nat :=
  opcodeTable.findIdx? fun r => maskMatch r.mask r.pattern bytes

/-- The row of spec/opcode_table.json a constructor stands for. -/
def Instr.row : Instr → Nat
  | .cvtps2pd _ => 0
  | .vcvtps2pdVex128C5 _ => 1
  | .vcvtps2pdVex128C4 _ => 2
  | .vcvtps2pdVex256C5 _ => 3
  | .vcvtps2pdVex256C4 _ => 4
  | .vcvtps2pdEvex512Sae _ => 5
  | .vcvtps2pdEvex128 _ => 6
  | .vcvtps2pdEvex256 _ => 7
  | .vcvtps2pdEvex512 _ => 8
  | .vcvtps2pdEvexReservedLL11 _ => 9

/-- The bytes of the format: those after the legacy prefixes and, in `Mode64`, after a REX byte (R139). -/
def formatBytes (m : Mode) (bytes : List Byte) : List Byte := (scanPrefixes m .start bytes).2

/-! ### Words as the opcode table numbers them -/

/-- The longest instruction, with every prefix of `Prefixes` (30_encoding.md R44). -/
def maxInstrLen : Nat := 15

/-- The bytes of `w`, the first byte in its lowest eight bits, with every bit at and above `nbits` 0. -/
def wordBytes (nbits w : Nat) : List Byte :=
  (List.range maxInstrLen).map fun i => BitVec.ofNat 8 (w % 2 ^ nbits / 256 ^ i)

/-- The instruction the decoder reads in `Mode64` from the bytes of `w`. -/
def decodeTableWord (nbits w : Nat) : Option Instr :=
  match decode .mode64 (wordBytes nbits w) with
  | .instr i _ => some i
  | .refused _ => none
  | .truncated => none

end Sys2Proof
end

