-- ==== Sys2Proof/Machine/State.lean ====
section
/-! DEFINITION. The machine state (10_state.md), the reasons a step stops (60_exceptions.md R108, R121 and the
refusals the spec names), and the state after reset (10_state.md R25). -/

namespace Sys2Proof.Machine

/-- The operating mode: `Mode64` or `Mode32`, or one of the modes the spec names and refuses
(00_scope.md R5, 60_exceptions.md R126). -/
inductive OpMode where
  | run (m : Mode)
  | realAddress
  | virtual8086
  | systemManagement
  | code16
  deriving DecidableEq, Repr

/-- A segment register with what 10_state.md R19 and 20_memory.md R36, R37 use of its hidden part; the widths are the
family's (PRESUMED, log entry 37). -/
structure Segment where
  selector : BitVec 16
  base     : Word
  limit    : BitVec 32
  isNull   : Bool
  readable : Bool
  deriving DecidableEq, Repr

/-- The six segment registers (10_state.md R19). -/
structure SegmentFile where
  es : Segment
  cs : Segment
  ss : Segment
  ds : Segment
  fs : Segment
  gs : Segment
  deriving DecidableEq, Repr

/-- The x87/MMX registers and their control, status and tag words (10_state.md R23). -/
structure X87 where
  st      : Vector (BitVec 80) 8
  control : BitVec 16
  status  : BitVec 16
  tag     : BitVec 16
  deriving DecidableEq, Repr

/-- The debug registers (10_state.md R23, 60_exceptions.md R129). -/
structure DebugRegs where
  dr0 : Word
  dr1 : Word
  dr2 : Word
  dr3 : Word
  dr6 : Word
  dr7 : Word
  deriving DecidableEq, Repr

/-- The state of one logical processor (10_state.md R10 to R23) with the parameters of 00_scope.md R7
(`cfg`) and memory. The 64 bits of `rflags`, `cr0`, `cr2`, `cr4` and `xcr0` are the family's, since no rule gives their
widths (PRESUMED, log entry 37). `perfCounting`: a performance counter is on (60_exceptions.md R129,
93_implementation_defined.md U22; DESIGN CHOICE, log entry 38). Memory is sorted by address and lists no byte that
reads 0 (log entry 4). -/
structure State where
  cfg    : Config
  opMode : OpMode
  v      : Vector VecReg 32
  k      : Vector Word 8
  mxcsr  : BitVec 32
  x      : Vector Word 16
  pc     : Word
  rflags : Word
  segs   : SegmentFile
  cpl    : BitVec 2
  cr0    : Word
  cr2    : Word
  cr4    : Word
  xcr0   : Word
  x87    : X87
  dbg    : DebugRegs
  perfCounting : Bool
  msr    : List (Nat × Word)
  mem    : List Host.Cell
  deriving DecidableEq, Repr

/-- The exceptions of 60_exceptions.md R108. `pf` carries the error code and the faulting linear address
(R113). -/
inductive ExceptionCause where
  | ud
  | nm
  | ss
  | gp
  | pf (code : BitVec 32) (la : Word)
  | ac
  | xm
  deriving DecidableEq, Repr

/-- The fault outcome of 60_exceptions.md R121, one constructor per exception of R108, each with the state it
leaves (R120). Delivery is out of scope (00_scope.md R5). Every one is the processor's own exception, so it is neither
safe nor unsafe in itself; what is assumed of each is in its log entry. -/
inductive Fault where
  /-- #UD, vector 6: raised by `convert` and `execVcvtps2pdEvexReservedLL11` on the conditions of R109, and by
  `convert` on R116. Unsafe only as log entries 14 and 29 say. -/
  | invalidOpcode (after : State)
  /-- #NM, vector 7: raised by `convert` when `CR0.TS = 1` (R110). Safe. -/
  | deviceNotAvailable (after : State)
  /-- #SS(0), vector 12: raised by `segmentFault` for a memory operand (R111). Unsafe only as log entries 10 and 11
  say. -/
  | stackSegment (after : State)
  /-- #GP(0), vector 13: raised by `segmentFault` (R112), and by `truncatedOutcome` on a length over 15 bytes
  (30_encoding.md R44). Unsafe only as log entries 10, 11 and 35 say. -/
  | generalProtection (after : State)
  /-- #PF, vector 14, with its error code and the faulting linear address, the `cr2` of R121: raised by `pageFault`
  (R113). Unsafe only as log entries 11, 13 and 33 say. -/
  | pageFault (code : BitVec 32) (la : Word) (after : State)
  /-- #AC(0), vector 17: raised by `Form.accessCheck` where alignment checking is enabled, the operand is not aligned
  and `Translate` answers it (R114, 20_memory.md R39). No step reaches it, since R114 refuses the state; log entry 12.
  Safe. -/
  | alignmentCheck (after : State)
  /-- #XM, vector 19: raised by `convert` (R115). Unsafe as log entry 1 says (the two flags it leaves). -/
  | simdFloatingPoint (after : State)
  deriving DecidableEq, Repr

/-- The refusals: no meaning is given. All are safe: the model stops where the processor goes on. -/
inductive Refusal where
  /-- An arm of `exec` without a meaning (raised by no arm of this model). Safe. -/
  | notModelled (mnemonic : String)
  /-- Real-address, virtual-8086 and system-management mode and 16-bit code segments: raised by `convert` and
  `step` (60_exceptions.md R126). Safe. -/
  | unsupportedMode
  /-- The decoder refuses the byte string: raised by `step` (30_encoding.md R46 to R48, R54, R56, R57, R66). Safe. -/
  | notDecoded (r : DecodeRefusal)
  /-- `{sae}` with `L'L` other than 10 while `sae_ignores_LL` is false: raised by
  `execVcvtps2pdEvex512Sae` (30_encoding.md R56). Safe. -/
  | saeVectorLength
  /-- Alignment checking is enabled: raised by `step`, whose launch premise it breaks, and by `Form.accessCheck` for
  a memory operand (60_exceptions.md R114). Safe. -/
  | alignmentUnsettled
  /-- A byte of a memory operand, or of the instruction, in memory with read side effects or in memory
  that is not write-back: raised by `deviceAccess` (20_memory.md R30, R42, U13; log entry 20). Safe. -/
  | deviceMemory
  /-- `pc + len` past 2^64 in `Mode64`: raised by `commit` (10_state.md R17). Safe. -/
  | pcWrap
  /-- `RFLAGS.TF = 1`: raised by `step` (60_exceptions.md R129). Safe. -/
  | singleStep
  /-- A debug breakpoint is armed: raised by `step` (60_exceptions.md R129). Safe. -/
  | breakpointArmed
  /-- A performance counter is on: raised by `step` (60_exceptions.md R129, 93_implementation_defined.md U22; log entry
  38). Safe. -/
  | performanceCounting
  /-- `MXCSR[31:16]` not zero, or `MXCSR.DAZ = 1` on a processor without DAZ: raised by `step`
  (93_implementation_defined.md U19). Safe. -/
  | mxcsrReserved
  /-- An instruction runs past the end address of its run: raised by `stepWithin`, never by `step`
  (70_reset_and_hazards.md R138). Safe. -/
  | programEnd
  deriving DecidableEq, Repr

/-! ### Reset (10_state.md R25) -/

/-- The parameters the reset state is given (DESIGN CHOICE, log entries 6 and 36): every feature, the default of
`sae_ignores_LL`, 64-bit opmasks, 48-bit linear addresses, nothing mapped. -/
def resetConfig : Config where
  level := .avx512vl
  supportsDAZ := true
  saeIgnoresLL := true
  kw := .kw64
  laWidth := 48
  translate := { rules := [], otherwise := .pf false false false }

/-- A data segment after reset (PRESUMED, log entry 5). -/
def resetSegment : Segment where
  selector := 0#16
  base := 0#64
  limit := 0xFFFF#32
  isNull := false
  readable := true

/-- The code segment after reset (PRESUMED, log entry 5): with `pc = FFF0h` it gives the physical address
`FFFF_FFF0h` of R25. -/
def resetCs : Segment :=
  { resetSegment with selector := 0xF000#16, base := 0xFFFF0000#64 }

/-- The x87/MMX state after reset (PRESUMED, log entry 5). -/
def resetX87 : X87 where
  st := Vector.replicate 8 0#80
  control := 0x0040#16
  status := 0#16
  tag := 0x5555#16

/-- The debug registers after reset (PRESUMED, log entry 5). -/
def resetDebug : DebugRegs where
  dr0 := 0#64
  dr1 := 0#64
  dr2 := 0#64
  dr3 := 0#64
  dr6 := 0xFFFF0FF0#64
  dr7 := 0x400#64

/-- The machine after RESET: R25 for what it lists; log entries 4 to 6 for what it does not. `RDX` (number 2)
holds a processor signature of the family's form (PRESUMED, log entry 5); no performance counter is on (DESIGN CHOICE,
log entry 38). -/
def State.reset : State where
  cfg := resetConfig
  opMode := .realAddress
  v := Vector.replicate 32 0#512
  k := Vector.replicate 8 0#64
  mxcsr := 0x1F80#32
  x := (Vector.replicate 16 0#64).set 2 0x50654#64
  pc := 0xFFF0#64
  rflags := 2#64
  segs := {
    es := resetSegment
    cs := resetCs
    ss := resetSegment
    ds := resetSegment
    fs := resetSegment
    gs := resetSegment }
  cpl := 0#2
  cr0 := 0x60000010#64
  cr2 := 0#64
  cr4 := 0#64
  xcr0 := 1#64
  x87 := resetX87
  dbg := resetDebug
  perfCounting := false
  msr := []
  mem := []

end Sys2Proof.Machine
end

