-- ==== Sys2Proof/Machine/Flags.lean ====
section
/-! DEFINITION. `MXCSR` (10_state.md R14, R15), the control bits the instruction reads (R18, R20 to R22), and
the conversion primitive with its floating-point rules (40_conversion_numerics.md). -/

namespace Sys2Proof.Machine

/-! ### Formats (40_conversion_numerics.md R74, R75) -/

/-- The classes of R74 and R75. -/
inductive FpClass where
  | zero
  | denormal
  | normal
  | infinity
  | qnan
  | snan
  deriving DecidableEq, Repr

/-- Sign, biased exponent and fraction of a single (R74). -/
def singleSign (s : Single) : BitVec 1 := s.extractLsb' 31 1
def singleExp (s : Single) : BitVec 8 := s.extractLsb' 23 8
def singleFrac (s : Single) : BitVec 23 := s.extractLsb' 0 23

/-- Sign, biased exponent and fraction of a double (R75). -/
def doubleSign (d : Double) : BitVec 1 := d.extractLsb' 63 1
def doubleExp (d : Double) : BitVec 11 := d.extractLsb' 52 11
def doubleFrac (d : Double) : BitVec 52 := d.extractLsb' 0 52

/-- The class of a single (R74). -/
def singleClass (s : Single) : FpClass :=
  if singleExp s = 0#8 then
    if singleFrac s = 0#23 then .zero else .denormal
  else if singleExp s = 255#8 then
    if singleFrac s = 0#23 then .infinity
    else if (singleFrac s).getLsbD 22 then .qnan else .snan
  else .normal

/-- The class of a double (R75). -/
def doubleClass (d : Double) : FpClass :=
  if doubleExp d = 0#11 then
    if doubleFrac d = 0#52 then .zero else .denormal
  else if doubleExp d = 2047#11 then
    if doubleFrac d = 0#52 then .infinity
    else if (doubleFrac d).getLsbD 51 then .qnan else .snan
  else .normal

/-! ### The conversion primitive (40_conversion_numerics.md R76, R77) -/

/-- What `Cvt` returns for one element: the result and the two conditions it signals (R76). -/
structure CvtResult where
  d  : Double
  ie : Bool
  de : Bool
  deriving DecidableEq, Repr

/-- Sign, exponent and fraction of a double put together (R75). -/
def packDouble (sign : BitVec 1) (exp : BitVec 11) (frac : BitVec 52) : Double := sign ++ exp ++ frac

/-- `F << 29`: the 23 fraction bits in `d[51:29]` (R77). -/
def widenFrac (f : BitVec 23) : BitVec 52 := f.setWidth 52 <<< 29

/-- The normalised double of a denormal's fraction (R77): exponent `p + 874`, the leading 1 at bit `p`
dropped. -/
def normaliseDenormal (sign : BitVec 1) (f : BitVec 23) : Double :=
  let p := Nat.log2 f.toNat
  packDouble sign (BitVec.ofNat 11 (p + 874)) (f.setWidth 52 <<< (52 - p))

/-- `Cvt(s, daz)` (R76, R77; UNVERIFIED, log entry 2). -/
def cvt (s : Single) (daz : Bool) : CvtResult :=
  match singleClass s with
  | .zero => ⟨packDouble (singleSign s) 0#11 0#52, false, false⟩
  | .denormal =>
    if daz then ⟨packDouble (singleSign s) 0#11 0#52, false, false⟩
    else ⟨normaliseDenormal (singleSign s) (singleFrac s), false, true⟩
  | .normal =>
    ⟨packDouble (singleSign s) ((singleExp s).setWidth 11 + 896#11) (widenFrac (singleFrac s)), false, false⟩
  | .infinity => ⟨packDouble (singleSign s) 2047#11 0#52, false, false⟩
  | .qnan => ⟨packDouble (singleSign s) 2047#11 (widenFrac (singleFrac s)), false, false⟩
  | .snan =>
    ⟨packDouble (singleSign s) 2047#11 (widenFrac (singleFrac s ||| 0x400000#23)), true, false⟩

/-! ### `MXCSR` (10_state.md R14, R15; 40_conversion_numerics.md R81 to R84) -/

def mxcsrDAZ (m : BitVec 32) : Bool := m.getLsbD 6
def mxcsrIM (m : BitVec 32) : Bool := m.getLsbD 7
def mxcsrDM (m : BitVec 32) : Bool := m.getLsbD 8

/-- `MXCSR[31:16]`, reserved, zero (R14). -/
def mxcsrReservedBits (m : BitVec 32) : BitVec 16 := m.extractLsb' 16 16

/-- `IE` and `DE` with the conditions `I` and `D` OR-ed in (R82, R84). -/
def setFlags (m : BitVec 32) (i d : Bool) : BitVec 32 :=
  m ||| (if i then 1#32 else 0#32) ||| (if d then 2#32 else 0#32)

/-- `unmasked` of R82. -/
def unmasked (m : BitVec 32) (i d : Bool) : Bool := (i && !mxcsrIM m) || (d && !mxcsrDM m)

/-! ### Control bits (10_state.md R18, R20 to R22) -/

/-- `RFLAGS.AC` (R18). -/
def State.flagAC (s : State) : Bool := s.rflags.getLsbD 18
/-- `RFLAGS.TF` (60_exceptions.md R129), bit 8 (PRESUMED, log entry 19). -/
def State.flagTF (s : State) : Bool := s.rflags.getLsbD 8
/-- `CR0.EM`, `CR0.TS`, `CR0.AM` (R20). -/
def State.cr0EM (s : State) : Bool := s.cr0.getLsbD 2
def State.cr0TS (s : State) : Bool := s.cr0.getLsbD 3
def State.cr0AM (s : State) : Bool := s.cr0.getLsbD 18
/-- `CR4.OSFXSR`, `CR4.OSXMMEXCPT`, `CR4.OSXSAVE` (R21). -/
def State.osfxsr (s : State) : Bool := s.cr4.getLsbD 9
def State.osxmmexcpt (s : State) : Bool := s.cr4.getLsbD 10
def State.osxsave (s : State) : Bool := s.cr4.getLsbD 18
/-- `XCR0[2:1] = 11b` (R22). -/
def State.avxEnabled (s : State) : Bool := s.xcr0.extractLsb' 1 2 == 3#2
/-- `XCR0[7:5] = 111b` (R22). -/
def State.avx512Enabled (s : State) : Bool := s.xcr0.extractLsb' 5 3 == 7#3

/-- Alignment checking is enabled: `CR0.AM = 1`, `RFLAGS.AC = 1` and `CPL = 3` (60_exceptions.md R114). -/
def State.alignmentChecking (s : State) : Bool := s.cr0AM && s.flagAC && s.cpl == 3#2

/-- A debug breakpoint is armed (60_exceptions.md R129): an enable bit of `DR7[7:0]` is set (PRESUMED
layout, log entry 19). -/
def State.breakpointArmed (s : State) : Bool := s.dbg.dr7.extractLsb' 0 8 != 0#8

end Sys2Proof.Machine
end

