-- ==== Sys2Proof/Machine/Ops.lean ====
section
/-! DEFINITION. The named operations over registers and memory: vector elements (10_state.md R11), memory bytes
(20_memory.md R28, R31), linear addresses and `Translate` (R36, R37, R39), taking an exception
(60_exceptions.md R117, R120, R121), committing a result (42_vcvtps2pd_evex.md R106, 10_state.md R17), and the
boot work of 70_reset_and_hazards.md R132. -/

namespace Sys2Proof.Machine

/-- The outcome of one step of this machine. -/
abbrev StepOutcome := Host.Outcome State Fault Refusal

/-- Why an operation inside a step ends it. -/
inductive Stop where
  | fault (f : Fault)
  | refused (r : Refusal)
  deriving DecidableEq, Repr

def Stop.outcome : Stop → StepOutcome
  | .fault f => .fault f
  | .refused r => .refused r

/-! ### Vector and opmask registers (10_state.md R10, R11, R13) -/

/-- The value with bits `n-1:0` set. -/
def lowMask (n : Nat) : VecReg := BitVec.ofNat 512 (2 ^ n - 1)

/-- Element `j` of 32 bits, `X[32j+31:32j]`. -/
def elem32 (v : VecReg) (j : Nat) : Single := v.extractLsb' (32 * j) 32

/-- Element `j` of 64 bits, `X[64j+63:64j]`. -/
def elem64 (v : VecReg) (j : Nat) : Double := v.extractLsb' (64 * j) 64

/-- `X[64j+63:64j] <- d`. -/
def setElem64 (v : VecReg) (j : Nat) (d : Double) : VecReg :=
  (v &&& ~~~(lowMask 64 <<< (64 * j))) ||| (d.setWidth 512 <<< (64 * j))

/-- Write elements from number `j` on; `none` leaves an element unchanged. -/
def writeElems (j : Nat) : List (Option Double) → VecReg → VecReg
  | [], v => v
  | none :: rest, v => writeElems (j + 1) rest v
  | some d :: rest, v => writeElems (j + 1) rest (setElem64 v j d)

/-- `V[n] <- v`, `MAX_VL` bits (00_scope.md R8). -/
def State.setVec (s : State) (n : Fin 32) (v : VecReg) : State :=
  { s with v := s.v.set n (v &&& lowMask s.cfg.maxVl) }

def State.setMxcsr (s : State) (m : BitVec 32) : State := { s with mxcsr := m }
def State.setPc (s : State) (pc : Word) : State := { s with pc := pc }
def State.setMem (s : State) (mem : List Host.Cell) : State := { s with mem := mem }

/-- How many vector registers exist (10_state.md R10). -/
def nvregTotal (c : Config) (m : Mode) : Nat :=
  match m with
  | .mode64 => if c.hasAVX512F then 32 else 16
  | .mode32 => 8

/-! ### Memory bytes (20_memory.md R28, R30) -/

/-- What a byte that memory does not list reads as (DESIGN CHOICE, log entry 4). -/
def unlistedByte : Byte := 0#8

def readCell : List Host.Cell → Nat → Byte
  | [], _ => unlistedByte
  | c :: rest, a => if a = c.1 then c.2 else readCell rest a

/-- Write one byte; the list stays sorted and lists no byte equal to `unlistedByte`. -/
def writeCell : List Host.Cell → Nat → Byte → List Host.Cell
  | [], a, b => if b = unlistedByte then [] else [(a, b)]
  | c :: rest, a, b =>
    if a < c.1 then if b = unlistedByte then c :: rest else (a, b) :: c :: rest
    else if a = c.1 then if b = unlistedByte then rest else (a, b) :: rest
    else c :: writeCell rest a b

/-- The canonical form: addresses strictly rising and inside the linear space, no byte equal to
`unlistedByte`. -/
def memWf : List Host.Cell → Bool
  | [] => true
  | c :: rest => c.1 < 2 ^ 64 && c.2 != unlistedByte && rest.all (fun c' => c.1 < c'.1) && memWf rest

/-- The byte at a linear address. -/
def State.readByte (s : State) (la : Word) : Byte := readCell s.mem la.toNat

/-! ### Linear addresses and `Translate` (20_memory.md R30, R36, R37, R39) -/

/-- The low 32 bits, zero-extended. -/
def low32 (w : Word) : Word := (w.setWidth 32).setWidth 64

/-- An address or offset cut to the linear-address width of the mode (R28, R35). -/
def wrapTo (m : Mode) (w : Word) : Word :=
  match m with
  | .mode64 => w
  | .mode32 => low32 w

def SegmentFile.get (f : SegmentFile) : SegReg → Segment
  | .es => f.es
  | .cs => f.cs
  | .ss => f.ss
  | .ds => f.ds
  | .fs => f.fs
  | .gs => f.gs

/-- `segbase(seg)` (R36). -/
def segBase (s : State) (m : Mode) (seg : SegReg) : Word :=
  match m with
  | .mode64 => if seg = .fs ∨ seg = .gs then (s.segs.get seg).base else 0#64
  | .mode32 => (s.segs.get seg).base

/-- `ea = (segbase(seg) + off)` cut to the linear-address width (R36). -/
def linearAddr (s : State) (m : Mode) (seg : SegReg) (off : Word) : Word :=
  wrapTo m (segBase s m seg + off)

/-- Canonical: bits `63:width-1` all equal (R37). -/
def canonical (width : Nat) (la : Word) : Bool := (la.setWidth width).signExtend 64 == la

/-- The checks of R37 for one byte: canonical in `Mode64`; in `Mode32` inside the limit, and for a data read
also readable and not null. -/
def segmentAllows (s : State) (m : Mode) (seg : SegReg) (kind : AccessKind) (off la : Word) : Bool :=
  match m with
  | .mode64 => canonical s.cfg.laWidth la
  | .mode32 =>
    let sg := s.segs.get seg
    off.toNat ≤ sg.limit.toNat && (kind == .fetch || (!sg.isNull && sg.readable))

/-- The rule speaks of this access. -/
def ruleApplies (r : TransRule) (la : Word) (seg : SegReg) (cpl : BitVec 2) (kind : AccessKind) : Bool :=
  r.first ≤ la.toNat && la.toNat ≤ r.last
    && (r.seg == none || r.seg == some seg)
    && (r.cpl == none || r.cpl == some cpl)
    && (r.kind == none || r.kind == some kind)

/-- `Translate(la, seg, CPL, kind)` (R39): the answer of the first rule that applies. -/
def translateAnswer (t : Translate) (la : Word) (seg : SegReg) (cpl : BitVec 2) (kind : AccessKind) : Answer :=
  match t.rules.find? (fun r => ruleApplies r la seg cpl kind) with
  | some r => r.answer
  | none => t.otherwise

/-! ### Taking an exception (60_exceptions.md R108, R113, R117, R120, R121) -/

/-- Take an exception from state `s`: the fault outcome with the state it leaves, `s` itself (R120). The address that a
page fault records for `CR2` (R113) is part of the outcome (R121), not of that state (92_eei_decisions.md D23; log
entry 13). There is no return: delivery and return are out of scope (00_scope.md R5, 60_exceptions.md R121 to
R123). -/
def takeException (c : ExceptionCause) (s : State) : Fault :=
  match c with
  | .ud => .invalidOpcode s
  | .nm => .deviceNotAvailable s
  | .ss => .stackSegment s
  | .gp => .generalProtection s
  | .pf code la => .pageFault code la s
  | .ac => .alignmentCheck s
  | .xm => .simdFloatingPoint s

/-- The vector number (R108). -/
def Fault.vector : Fault → Nat
  | .invalidOpcode _ => 6
  | .deviceNotAvailable _ => 7
  | .stackSegment _ => 12
  | .generalProtection _ => 13
  | .pageFault _ _ _ => 14
  | .alignmentCheck _ => 17
  | .simdFloatingPoint _ => 19

/-- The error code, where there is one (R108, R117), in 32 bits (DESIGN CHOICE, log entry 33). -/
def Fault.errorCode : Fault → Option (BitVec 32)
  | .invalidOpcode _ => none
  | .deviceNotAvailable _ => none
  | .stackSegment _ => some 0#32
  | .generalProtection _ => some 0#32
  | .pageFault code _ _ => some code
  | .alignmentCheck _ => some 0#32
  | .simdFloatingPoint _ => none

/-- The recorded linear address, for a page fault (R113, R117). -/
def Fault.faultAddr : Fault → Option Word
  | .invalidOpcode _ => none
  | .deviceNotAvailable _ => none
  | .stackSegment _ => none
  | .generalProtection _ => none
  | .pageFault _ la _ => some la
  | .alignmentCheck _ => none
  | .simdFloatingPoint _ => none

/-- The state the fault leaves (R120, R121). -/
def Fault.after : Fault → State
  | .invalidOpcode s => s
  | .deviceNotAvailable s => s
  | .stackSegment s => s
  | .generalProtection s => s
  | .pageFault _ _ s => s
  | .alignmentCheck s => s
  | .simdFloatingPoint s => s

/-- The page-fault error code: P (0), W/R (1, 0: a read), U/S (2, 1 iff `CPL = 3`), RSVD (3), I/D (4, 1 only for a
fetch) (R113). R113 gives no width and no bit above 4: 32 bits, bits 31:5 zero (DESIGN CHOICE, log entry 33). -/
def pfCode (present rsvd idOnFetch : Bool) (cpl : BitVec 2) (kind : AccessKind) : BitVec 32 :=
  (BitVec.ofBool (idOnFetch && kind == .fetch) ++ BitVec.ofBool rsvd ++ BitVec.ofBool (cpl == 3#2)
    ++ 0#1 ++ BitVec.ofBool present).setWidth 32

/-- #SS(0) for the stack segment, else #GP(0) (20_memory.md R37, 60_exceptions.md R111, R112). -/
def segmentException (seg : SegReg) : ExceptionCause := if seg = .ss then .ss else .gp

/-- What an answer of #SS means: #SS(0) for a data read; #GP(0) for a fetch, which reports only #PF or #GP
(60_exceptions.md R118 step 1; DESIGN CHOICE, log entry 35). -/
def stackAnswer (kind : AccessKind) : ExceptionCause :=
  match kind with
  | .dataRead => .ss
  | .fetch => .gp

/-- #SS or #GP of one byte: the checks of R37, then the answer of `Translate` (20_memory.md R39). -/
def segmentFault (s : State) (m : Mode) (seg : SegReg) (kind : AccessKind) (off la : Word) : Option Stop :=
  if segmentAllows s m seg kind off la then
    match translateAnswer s.cfg.translate la seg s.cpl kind with
    | .ss => some (.fault (takeException (stackAnswer kind) s))
    | .gp => some (.fault (takeException .gp s))
    | .ok => none
    | .device => none
    | .pf _ _ _ => none
    | .ac => none
  else some (.fault (takeException (segmentException seg) s))

/-- #PF of one byte (60_exceptions.md R113). -/
def pageFault (s : State) (seg : SegReg) (kind : AccessKind) (la : Word) : Option Stop :=
  match translateAnswer s.cfg.translate la seg s.cpl kind with
  | .pf p rsvd i => some (.fault (takeException (.pf (pfCode p rsvd i s.cpl kind) la) s))
  | .ok => none
  | .device => none
  | .ss => none
  | .gp => none
  | .ac => none

/-- A byte in memory with read side effects or not write-back (20_memory.md R30, R42, 93_implementation_defined.md U13):
what `Translate` answers for it (DEDUCED, log entry 20). -/
def deviceAccess (s : State) (seg : SegReg) (kind : AccessKind) (la : Word) : Option Stop :=
  if translateAnswer s.cfg.translate la seg s.cpl kind = .device then some (.refused .deviceMemory) else none

/-- Check one byte: #SS or #GP, then #PF, then the refusal of device memory; `none` if it may be read. An answer of #AC
stops no byte by itself: it is `Form.accessCheck` that gives it force, for a data read, and none gives it force for a
fetch, which needs no alignment (20_memory.md R33; log entry 35). -/
def checkByte (s : State) (m : Mode) (seg : SegReg) (kind : AccessKind) (off la : Word) : Option Stop :=
  ((segmentFault s m seg kind off la).or (pageFault s seg kind la)).or (deviceAccess s seg kind la)

/-- The offset of byte `t` of data at offset `off`. -/
def byteOffset (m : Mode) (off : Word) (t : Nat) : Word := wrapTo m (off + BitVec.ofNat 64 t)

/-- The linear address of byte `t` of data at offset `off` of a segment: `la_t` of 20_memory.md R30. -/
def byteAddr (s : State) (m : Mode) (seg : SegReg) (off : Word) (t : Nat) : Word :=
  wrapTo m (linearAddr s m seg off + BitVec.ofNat 64 t)

/-- Check the bytes at distances `ts` from offset `off`, as step 4 of 60_exceptions.md R118 orders the exceptions: #SS
or #GP of any byte, then #PF of any byte; within each the first byte decides (20_memory.md R39; DEDUCED, log entry
11). -/
def checkBytes (s : State) (m : Mode) (seg : SegReg) (kind : AccessKind) (off : Word) (ts : List Nat) : Option Stop :=
  ((ts.findSome? fun t => segmentFault s m seg kind (byteOffset m off t) (byteAddr s m seg off t)).or
    (ts.findSome? fun t => pageFault s seg kind (byteAddr s m seg off t))).or
    (ts.findSome? fun t => deviceAccess s seg kind (byteAddr s m seg off t))

/-- Byte `t` of the data at offset `off` of a segment (20_memory.md R30). -/
def byteAt (s : State) (m : Mode) (seg : SegReg) (off : Word) (t : Nat) : Byte :=
  s.readByte (byteAddr s m seg off t)

/-- The 32 bits at distance `4j` from offset `off`, little-endian (20_memory.md R30 to R32). -/
def memElem (s : State) (m : Mode) (seg : SegReg) (off : Word) (j : Nat) : Single :=
  byteAt s m seg off (4 * j + 3) ++ byteAt s m seg off (4 * j + 2)
    ++ byteAt s m seg off (4 * j + 1) ++ byteAt s m seg off (4 * j)

/-! ### Instruction fetch (30_encoding.md R44, 20_memory.md R39) -/

/-- Up to `n` instruction bytes from distance `t` after `pc`: those before the first byte whose fetch fails, and
that failure, if any. -/
def fetchFrom (s : State) (m : Mode) (t : Nat) : Nat → List Byte × Option Stop
  | 0 => ([], none)
  | n + 1 =>
    match checkByte s m .cs .fetch (byteOffset m s.pc t) (byteAddr s m .cs s.pc t) with
    | some stop => ([], some stop)
    | none =>
      match fetchFrom s m (t + 1) n with
      | (bytes, stop) => (byteAt s m .cs s.pc t :: bytes, stop)

/-- The bytes an instruction at `pc` may take, at most 15 (R44). -/
def fetchBytes (s : State) (m : Mode) : List Byte × Option Stop := fetchFrom s m 0 maxInstrLen

/-- The instruction runs past the bytes that were fetched, at most `n` of them: the fetch's own failure; else, when they
were 15, #GP(0) (R44, 60_exceptions.md R118 step 1); else the end of the run's program
(70_reset_and_hazards.md R138; log entry 32). -/
def truncatedOutcome (s : State) (n : Nat) (fetchStop : Option Stop) : StepOutcome :=
  match fetchStop with
  | some stop => stop.outcome
  | none => if maxInstrLen ≤ n then .fault (takeException .gp s) else .refused .programEnd

/-- How many bytes stand from `pc` up to the address `stop`. -/
def bytesBefore (m : Mode) (pc stop : Word) : Nat := (wrapTo m (stop - pc)).toNat

/-! ### Committing (42_vcvtps2pd_evex.md R106, 10_state.md R17) -/

/-- `pc + len`; in `Mode32` modulo 2^32 (10_state.md R17). -/
def nextPc (m : Mode) (pc : Word) (len : Nat) : Word := wrapTo m (pc + BitVec.ofNat 64 len)

/-- `pc + len` passes 2^64 in `Mode64` (10_state.md R17). -/
def pcWraps (m : Mode) (pc : Word) (len : Nat) : Bool := m == .mode64 && 2 ^ 64 ≤ pc.toNat + len

/-- Write the destination, `MXCSR` and `pc` at once. -/
def commit (s : State) (m : Mode) (len : Nat) (dst : Fin 32) (value : VecReg) (mxcsr : BitVec 32) : StepOutcome :=
  if pcWraps m s.pc len then .refused .pcWrap
  else .next (((s.setVec dst value).setMxcsr mxcsr).setPc (nextPc m s.pc len))

/-! ### Launch premises and boot (70_reset_and_hazards.md R131, R132) -/

/-- The launch premises of R131 that no operand decides: no single-step, no armed breakpoint (60_exceptions.md
R129), no performance counter on (93_implementation_defined.md U22; log entry 38), alignment checking off (R114, 92_eei_decisions.md D7), `MXCSR[31:16] = 0`, and
`MXCSR.DAZ = 0` where the processor does not support DAZ (93_implementation_defined.md U19; log entry 36). -/
def premiseRefusal (s : State) : Option Refusal :=
  if s.flagTF then some .singleStep
  else if s.breakpointArmed then some .breakpointArmed
  else if s.perfCounting then some .performanceCounting
  else if s.alignmentChecking then some .alignmentUnsettled
  else if mxcsrReservedBits s.mxcsr ≠ 0#16 then some .mxcsrReserved
  else if mxcsrDAZ s.mxcsr && !s.cfg.supportsDAZ then some .mxcsrReserved
  else none

/-- What system software does before a program runs (R132), from any state: 64-bit mode, protected mode with
paging, `CR0.EM = TS = 0`, `CR4.OSFXSR = OSXMMEXCPT = OSXSAVE = 1`, `XCR0[7:5] = 111b`, `XCR0[2:1] = 11b`,
every linear address readable (DESIGN CHOICE, log entry 7). -/
def State.boot (s : State) : State :=
  { s with
    opMode := .run .mode64
    cr0 := (s.cr0 &&& ~~~0xC#64) ||| 0x80000001#64
    cr4 := s.cr4 ||| 0x40600#64
    xcr0 := s.xcr0 ||| 0xE6#64
    cfg := { s.cfg with translate := { rules := [], otherwise := .ok } } }

/-- Write a list of bytes at consecutive addresses, wrapping at the linear-address width. -/
def storeBytes (m : Mode) (la : Word) : List Byte → List Host.Cell → List Host.Cell
  | [], mem => mem
  | b :: rest, mem => storeBytes m (wrapTo m (la + 1#64)) rest (writeCell mem la.toNat b)

/-- Place code bytes where `step` fetches in mode `m`, and let `Translate` answer `ok` to their fetch
(log entry 7). -/
def State.placeCode (s : State) (m : Mode) (bytes : List Byte) : State :=
  let la := linearAddr s m .cs s.pc
  let rule : Nat → TransRule := fun t =>
    let a := (wrapTo m (la + BitVec.ofNat 64 t)).toNat
    { first := a, last := a, seg := some .cs, cpl := none, kind := some .fetch, answer := .ok }
  let t := s.cfg.translate
  { s with
    mem := storeBytes m la bytes s.mem
    cfg := { s.cfg with
      translate := { t with rules := (List.range bytes.length).map rule ++ t.rules } } }

/-- A program's bytes loaded at `pc` from outside the machine: in a state of `Mode64` or `Mode32` as it is, from
any other after `State.boot` (log entry 7). -/
def State.loadCode (s : State) (bytes : List Byte) : State :=
  match s.opMode with
  | .run m => s.placeCode m bytes
  | .realAddress => s.boot.placeCode .mode64 bytes
  | .virtual8086 => s.boot.placeCode .mode64 bytes
  | .systemManagement => s.boot.placeCode .mode64 bytes
  | .code16 => s.boot.placeCode .mode64 bytes

end Sys2Proof.Machine
end

