-- ==== Sys2Proof/Machine/Operands.lean ====
section
/-! DEFINITION. Operands: effective address (20_memory.md R34 to R38, 30_encoding.md R63, R64), segment (R36),
writemask (42_vcvtps2pd_evex.md R98), the check and the fetch of the source (R88, R97, 20_memory.md R40). -/

namespace Sys2Proof.Machine

/-- Operand 2 of any form: a register, or memory, full-width or one broadcast element. -/
inductive Operand where
  | reg (n : Fin 32)
  | mem (bcst : Bool) (a : Mem)
  deriving DecidableEq, Repr

def operandOfSource : Source → Operand
  | .reg n => .reg n
  | .mem a => .mem false a

def operandOfEvex : EvexSource → Operand
  | .reg n => .reg n
  | .mem c a => .mem c a

/-! ### Effective address -/

/-- The address size is 32: `Mode32`, or `67` in `Mode64` (20_memory.md R34). -/
def addr32 (m : Mode) (pre : Prefixes) : Bool := m == .mode32 || pre.addr67

/-- A value modulo `2^asz`, zero-extended (R35). -/
def cutTo32 (a32 : Bool) (w : Word) : Word := if a32 then low32 w else w

/-- The displacement: `disp8` sign-extended and multiplied by `scale` (1 outside EVEX), `disp32` sign-extended
(30_encoding.md R63, R64). -/
def dispValue (scale : Nat) : Disp → Word
  | .none => 0#64
  | .d8 v => v.signExtend 64 * BitVec.ofNat 64 scale
  | .d32 v => v.signExtend 64

/-- A base or index register cut to the address size (R35). -/
def gprValue (s : State) (a32 : Bool) (n : Fin 16) : Word := cutTo32 a32 s.x[n]

/-- The index term `I * s` of R35. -/
def indexTerm (s : State) (a32 : Bool) (index : Option (Fin 16)) (scale : BitVec 2) : Word :=
  match index with
  | none => 0#64
  | some n => gprValue s a32 n * BitVec.ofNat 64 (2 ^ scale.toNat)

/-- `off` (R35; R38 for RIP-relative, whose base is the next instruction's address). -/
def memOffset (s : State) (m : Mode) (pre : Prefixes) (len scale : Nat) (a : Mem) : Word :=
  let a32 := addr32 m pre
  cutTo32 a32 <|
    match a with
    | .base b d => gprValue s a32 b + dispValue scale d
    | .ripRel d => s.pc + BitVec.ofNat 64 len + d.signExtend 64
    | .absolute d => d.signExtend 64
    | .sib b i sc d => gprValue s a32 b + indexTerm s a32 i sc + dispValue scale d
    | .sibNoBase i sc d => indexTerm s a32 i sc + d.signExtend 64

/-- The default segment: `SS` when the base is register 4 or 5, else `DS` (R36). -/
def defaultSegOfBase (b : Fin 16) : SegReg := if b = 4 ∨ b = 5 then .ss else .ds

def defaultSeg : Mem → SegReg
  | .base b _ => defaultSegOfBase b
  | .ripRel _ => .ds
  | .absolute _ => .ds
  | .sib b _ _ _ => defaultSegOfBase b
  | .sibNoBase _ _ _ => .ds

/-- The segment of a memory operand: an override replaces the default; in `Mode64` the overrides of `ES`, `CS`,
`SS`, `DS` have no effect (R36, 30_encoding.md R46; DEDUCED, log entry 22). -/
def memSeg (m : Mode) (pre : Prefixes) (a : Mem) : SegReg :=
  match m, pre.seg with
  | _, none => defaultSeg a
  | .mode32, some sg => sg
  | .mode64, some .fs => .fs
  | .mode64, some .gs => .gs
  | .mode64, some .es => defaultSeg a
  | .mode64, some .cs => defaultSeg a
  | .mode64, some .ss => defaultSeg a
  | .mode64, some .ds => defaultSeg a

/-! ### Forms -/

/-- What one instruction asks of the shared operation `convert`. `ud`: a condition of 60_exceptions.md R109 items
1 to 6 holds. `kl`: the number of elements. `mask`: bit `j` selects element `j` (40_conversion_numerics.md R81).
`evex`: a `disp8` is scaled (30_encoding.md R64). `zeroing`: an unselected element becomes 0, else it is kept.
`keepUpper`: the bits above the vector length are kept, else zeroed. -/
structure Form where
  ud        : Bool
  len       : Nat
  pre       : Prefixes
  dst       : Fin 32
  src       : Operand
  kl        : Nat
  mask      : BitVec 8
  evex      : Bool
  zeroing   : Bool
  keepUpper : Bool
  sae       : Bool
  deriving DecidableEq, Repr

/-- The number of bytes the memory operand has (20_memory.md R29). -/
def operandBytes (kl : Nat) (bcst : Bool) : Nat := if bcst then 4 else 4 * kl

/-- The scale `N` of a `disp8` (30_encoding.md R64); LEGACY and VEX use it as it is (R63). -/
def Form.dispScale (f : Form) (bcst : Bool) : Nat := if f.evex then operandBytes f.kl bcst else 1

/-- The writemask of an EVEX form (42_vcvtps2pd_evex.md R98): `aaa = 000` selects every element, else bit `j` of
`K[aaa]` selects element `j`. -/
def evexMask (s : State) (aaa : BitVec 3) : BitVec 8 :=
  if aaa = 0#3 then 0xFF#8 else (s.k[aaa.toNat]'aaa.isLt).setWidth 8

/-- The selected elements of `0..kl-1` (40_conversion_numerics.md R81). -/
def Form.selected (f : Form) : List Nat := (List.range f.kl).filter fun j => f.mask.getLsbD j

/-- The bytes of the memory operand that are accessed (20_memory.md R40): those of the selected elements, or the
four of the broadcast element if any element is selected. -/
def Form.accessed (f : Form) (bcst : Bool) : List Nat :=
  if bcst then if f.selected.isEmpty then [] else [0, 1, 2, 3]
  else f.selected.flatMap fun j => [4 * j, 4 * j + 1, 4 * j + 2, 4 * j + 3]

/-- The offset of a memory operand of the form. -/
def Form.offset (f : Form) (s : State) (m : Mode) (bcst : Bool) (a : Mem) : Word :=
  memOffset s m f.pre f.len (f.dispScale bcst) a

/-- The memory operand does not stand at a multiple of its own size (60_exceptions.md R114, which settles no other
boundary; log entry 12). -/
def Form.misaligned (f : Form) (s : State) (m : Mode) (bcst : Bool) (a : Mem) : Bool :=
  (linearAddr s m (memSeg m f.pre a) (f.offset s m bcst a)).toNat % operandBytes f.kl bcst != 0

/-- What alignment checking makes of a memory access that nothing else stops: nothing while it is off, or where no byte
is accessed; #AC for an operand that is not aligned where `Translate` answers it (20_memory.md R39); else a refusal,
since R114 settles no more (DEDUCED, log entry 12). -/
def Form.alignmentStop (f : Form) (s : State) (m : Mode) (bcst : Bool) (a : Mem) : Option Stop :=
  if !s.alignmentChecking || (f.accessed bcst).isEmpty then none
  else if f.misaligned s m bcst a && (f.accessed bcst).any fun t =>
      translateAnswer s.cfg.translate (byteAddr s m (memSeg m f.pre a) (f.offset s m bcst a) t) (memSeg m f.pre a)
        s.cpl .dataRead = .ac then
    some (.fault (takeException .ac s))
  else some (.refused .alignmentUnsettled)

/-- Step 4 of 60_exceptions.md R118: what stops the read of the source, if anything does. -/
def Form.accessCheck (f : Form) (s : State) (m : Mode) : Option Stop :=
  match f.src with
  | .reg _ => none
  | .mem bcst a =>
    (checkBytes s m (memSeg m f.pre a) .dataRead (f.offset s m bcst a) (f.accessed bcst)).or
      (f.alignmentStop s m bcst a)

/-- `src_j` (41_cvtps2pd_sse_vex.md R88, 42_vcvtps2pd_evex.md R97). -/
def Form.sourceElem (f : Form) (s : State) (m : Mode) (j : Nat) : Single :=
  match f.src with
  | .reg n => elem32 s.v[n] j
  | .mem bcst a => memElem s m (memSeg m f.pre a) (f.offset s m bcst a) (if bcst then 0 else j)

end Sys2Proof.Machine
end

