-- ==== Sys2Proof/Machine/Convert.lean ====
section
/-! DEFINITION. The one operation all forms share: the checks of 60_exceptions.md R118 in order, the conversion of
the selected elements (40_conversion_numerics.md R81), the floating-point response (R82 to R84), and the
destination (42_vcvtps2pd_evex.md R99, R104). -/

namespace Sys2Proof.Machine

/-- `Cvt(src_j, MXCSR.DAZ)` (40_conversion_numerics.md R81). -/
def Form.result (f : Form) (s : State) (m : Mode) (j : Nat) : CvtResult :=
  cvt (f.sourceElem s m j) (mxcsrDAZ s.mxcsr)

/-- `I`: the OR of `ie_j` over the selected elements (R81). -/
def Form.anyInvalid (f : Form) (s : State) (m : Mode) : Bool := f.selected.any fun j => (f.result s m j).ie

/-- `D`: the OR of `de_j` over the selected elements (R81). -/
def Form.anyDenormal (f : Form) (s : State) (m : Mode) : Bool := f.selected.any fun j => (f.result s m j).de

/-- What element `j` of the destination becomes; `none`: it remains unchanged (42_vcvtps2pd_evex.md R99). -/
def Form.element (f : Form) (s : State) (m : Mode) (j : Nat) : Option Double :=
  if f.mask.getLsbD j then some (f.result s m j).d
  else if f.zeroing then some 0#64
  else none

/-- The destination's value: the elements over the old value, whose bits above the vector length are kept (R89)
or zeroed (R90, R91, R104). -/
def Form.destValue (f : Form) (s : State) (m : Mode) : VecReg :=
  let old := s.v[f.dst]
  writeElems 0 ((List.range f.kl).map (f.element s m))
    (if f.keepUpper then old else old &&& lowMask (64 * f.kl))

/-- `MXCSR` with the flags of the detected conditions (R82, R84). -/
def Form.flags (f : Form) (s : State) (m : Mode) : BitVec 32 :=
  setFlags s.mxcsr (f.anyInvalid s m) (f.anyDenormal s m)

/-- #XM, or #UD when `CR4.OSXMMEXCPT = 0` (60_exceptions.md R115, R116). -/
def simdException (s : State) : ExceptionCause := if s.osxmmexcpt then .xm else .ud

/-- The execution of a form in the order of 60_exceptions.md R118. -/
def convert (f : Form) (s : State) : StepOutcome :=
  match s.opMode with
  | .realAddress => .refused .unsupportedMode
  | .virtual8086 => .refused .unsupportedMode
  | .systemManagement => .refused .unsupportedMode
  | .code16 => .refused .unsupportedMode
  | .run m =>
    if f.ud then .fault (takeException .ud s)
    else if s.cr0TS then .fault (takeException .nm s)
    else
      match f.accessCheck s m with
      | some stop => stop.outcome
      | none =>
        if f.sae then commit s m f.len f.dst (f.destValue s m) s.mxcsr
        else if unmasked s.mxcsr (f.anyInvalid s m) (f.anyDenormal s m) then
          .fault (takeException (simdException s) (s.setMxcsr (f.flags s m)))
        else commit s m f.len f.dst (f.destValue s m) (f.flags s m)

end Sys2Proof.Machine
end

