-- ==== Sys2Proof/Machine/Evex.lean ====
section
/-! DEFINITION. The EVEX forms (42_vcvtps2pd_evex.md R94 to R107). -/

namespace Sys2Proof.Machine

/-- #UD of an EVEX form, the vector-length conditions apart (60_exceptions.md R109 items 1, 2, 3, 6;
30_encoding.md R67, R68). -/
def evexUd (pre : Prefixes) (badPrefix w : Bool) (vvvv : BitVec 4) (vbar z : Bool) (aaa : BitVec 3)
    (s : State) : Bool :=
  vvvv != 15#4 || w || !vbar || (z && aaa == 0#3) || pre.lock || badPrefix
    || !s.cfg.hasAVX512F || !s.osxsave || !s.avxEnabled || !s.avx512Enabled

/-- An EVEX form of `kl` elements; `needVL` where it needs AVX512VL (R100 to R102). -/
def evexForm (kl : Nat) (needVL : Bool) (op : EvexOp) (s : State) : Form where
  ud := evexUd op.pre op.badPrefix op.w op.vvvv op.vbar op.z op.aaa s || (needVL && !s.cfg.hasAVX512VL)
  len := op.len
  pre := op.pre
  dst := op.dst
  src := operandOfEvex op.src
  kl := kl
  mask := evexMask s op.aaa
  evex := true
  zeroing := op.z
  keepUpper := false
  sae := false

/-- The `{sae}` form: eight elements from a register (R103). -/
def saeForm (op : SaeOp) (s : State) : Form where
  ud := evexUd op.pre op.badPrefix op.w op.vvvv op.vbar op.z op.aaa s
  len := op.len
  pre := op.pre
  dst := op.dst
  src := .reg op.src
  kl := 8
  mask := evexMask s op.aaa
  evex := true
  zeroing := op.z
  keepUpper := false
  sae := true

/-- `VCVTPS2PD zmm1 {k1}{z}, ymm2, {sae}` (R103). With `sae_ignores_LL` false, `L'L` other than 10 is refused
(30_encoding.md R56; log entry 17). -/
def execVcvtps2pdEvex512Sae (op : SaeOp) (s : State) : StepOutcome :=
  if !s.cfg.saeIgnoresLL && op.ll != 2#2 then .refused .saeVectorLength
  else convert (saeForm op s) s

/-- `VCVTPS2PD xmm1 {k1}{z}, xmm2/m64/m32bcst` (R100). -/
def execVcvtps2pdEvex128 (op : EvexOp) (s : State) : StepOutcome := convert (evexForm 2 true op s) s

/-- `VCVTPS2PD ymm1 {k1}{z}, xmm2/m128/m32bcst` (R101). -/
def execVcvtps2pdEvex256 (op : EvexOp) (s : State) : StepOutcome := convert (evexForm 4 true op s) s

/-- `VCVTPS2PD zmm1 {k1}{z}, ymm2/m256/m32bcst` (R102). -/
def execVcvtps2pdEvex512 (op : EvexOp) (s : State) : StepOutcome := convert (evexForm 8 false op s) s

/-- The reserved encoding `L'L = 11`: #UD (30_encoding.md R68), in the modes the model runs. The form's other
fields decide nothing. -/
def execVcvtps2pdEvexReservedLL11 (op : EvexOp) (s : State) : StepOutcome :=
  convert { evexForm 8 false op s with ud := true } s

end Sys2Proof.Machine
end

