-- ==== Sys2Proof/Machine/Legacy.lean ====
section
/-! DEFINITION. The LEGACY form (41_cvtps2pd_sse_vex.md R89). -/

namespace Sys2Proof.Machine

/-- #UD of the LEGACY form (60_exceptions.md R109 items 2 to 4). -/
def legacyUd (pre : Prefixes) (s : State) : Bool :=
  pre.lock || !s.cfg.hasSSE2 || s.cr0EM || !s.osfxsr

/-- The LEGACY form: two elements, upper bits unmodified (R89). -/
def legacyForm (op : LegacyOp) (s : State) : Form where
  ud := legacyUd op.pre s
  len := op.len
  pre := op.pre
  dst := op.dst
  src := operandOfSource op.src
  kl := 2
  mask := 0xFF#8
  evex := false
  zeroing := false
  keepUpper := true
  sae := false

/-- `CVTPS2PD xmm1, xmm2/m64` (R89). -/
def execCvtps2pd (op : LegacyOp) (s : State) : StepOutcome := convert (legacyForm op s) s

end Sys2Proof.Machine
end

