-- ==== Sys2Proof/Machine/Vex.lean ====
section
/-! DEFINITION. The VEX forms (41_cvtps2pd_sse_vex.md R90, R91). -/

namespace Sys2Proof.Machine

/-- #UD of a VEX form (60_exceptions.md R109 items 1, 2, 3, 5). -/
def vexUd (op : VexOp) (s : State) : Bool :=
  op.vvvv != 15#4 || op.pre.lock || op.badPrefix || !s.cfg.hasAVX || !s.osxsave || !s.avxEnabled

/-- A VEX form of `kl` elements with a VEX prefix of `prefixLen` bytes: upper bits zeroed (R90, R91). -/
def vexForm (prefixLen kl : Nat) (op : VexOp) (s : State) : Form where
  ud := vexUd op s
  len := op.len prefixLen
  pre := op.pre
  dst := op.dst
  src := operandOfSource op.src
  kl := kl
  mask := 0xFF#8
  evex := false
  zeroing := false
  keepUpper := false
  sae := false

/-- `VCVTPS2PD xmm1, xmm2/m64`, two-byte VEX (R90). -/
def execVcvtps2pdVex128C5 (op : VexOp) (s : State) : StepOutcome := convert (vexForm 2 2 op s) s

/-- `VCVTPS2PD xmm1, xmm2/m64`, three-byte VEX (R90). -/
def execVcvtps2pdVex128C4 (op : VexOp) (s : State) : StepOutcome := convert (vexForm 3 2 op s) s

/-- `VCVTPS2PD ymm1, xmm2/m128`, two-byte VEX (R91). -/
def execVcvtps2pdVex256C5 (op : VexOp) (s : State) : StepOutcome := convert (vexForm 2 4 op s) s

/-- `VCVTPS2PD ymm1, xmm2/m128`, three-byte VEX (R91). -/
def execVcvtps2pdVex256C4 (op : VexOp) (s : State) : StepOutcome := convert (vexForm 3 4 op s) s

end Sys2Proof.Machine
end

