-- ==== Sys2Proof/Machine/Dispatch.lean ====
section
/-! DEFINITION. One arm per row of spec/opcode_table.json. -/

namespace Sys2Proof.Machine

def exec (i : Instr) (s : State) : Host.Outcome State Fault Refusal :=
  match i with
  | .cvtps2pd op => Sys2Proof.Machine.execCvtps2pd op s
  | .vcvtps2pdVex128C5 op => Sys2Proof.Machine.execVcvtps2pdVex128C5 op s
  | .vcvtps2pdVex128C4 op => Sys2Proof.Machine.execVcvtps2pdVex128C4 op s
  | .vcvtps2pdVex256C5 op => Sys2Proof.Machine.execVcvtps2pdVex256C5 op s
  | .vcvtps2pdVex256C4 op => Sys2Proof.Machine.execVcvtps2pdVex256C4 op s
  | .vcvtps2pdEvex512Sae op => Sys2Proof.Machine.execVcvtps2pdEvex512Sae op s
  | .vcvtps2pdEvex128 op => Sys2Proof.Machine.execVcvtps2pdEvex128 op s
  | .vcvtps2pdEvex256 op => Sys2Proof.Machine.execVcvtps2pdEvex256 op s
  | .vcvtps2pdEvex512 op => Sys2Proof.Machine.execVcvtps2pdEvex512 op s
  | .vcvtps2pdEvexReservedLL11 op => Sys2Proof.Machine.execVcvtps2pdEvexReservedLL11 op s

end Sys2Proof.Machine
end

