-- ==== Sys2Proof/Machine/Step.lean ====
section
/-! DEFINITION. One step (00_scope.md R6): the launch premises, the fetch and decode at `pc`
(60_exceptions.md R118 step 1), then the instruction. -/

namespace Sys2Proof.Machine

/-- What the step does with what the decoder found in the fetched bytes, at most `n` of them. -/
def runDecoded (s : State) (n : Nat) (fetchStop : Option Stop) : Decoded → Host.Outcome State Fault Refusal
  | .instr i _ => exec i s
  | .refused r => .refused (.notDecoded r)
  | .truncated => truncatedOutcome s n fetchStop

/-- A step that fetches at most `n` bytes. -/
def stepWithin (n : Nat) (s : State) : Host.Outcome State Fault Refusal :=
  match s.opMode with
  | .realAddress => .refused .unsupportedMode
  | .virtual8086 => .refused .unsupportedMode
  | .systemManagement => .refused .unsupportedMode
  | .code16 => .refused .unsupportedMode
  | .run m =>
    match premiseRefusal s with
    | some r => .refused r
    | none => runDecoded s n (fetchFrom s m 0 n).2 (decode m (fetchFrom s m 0 n).1)

/-- One step of the machine: the longest instruction is 15 bytes (30_encoding.md R44). -/
def step (s : State) : Host.Outcome State Fault Refusal := stepWithin maxInstrLen s

/-- One step of a run that ends at the address `stop`: the bytes at and after it are not fetched
(70_reset_and_hazards.md R138). -/
def stepBefore (stop : Word) (s : State) : Host.Outcome State Fault Refusal :=
  match s.opMode with
  | .realAddress => .refused .unsupportedMode
  | .virtual8086 => .refused .unsupportedMode
  | .systemManagement => .refused .unsupportedMode
  | .code16 => .refused .unsupportedMode
  | .run m => stepWithin (min maxInstrLen (bytesBefore m s.pc stop)) s

/-- `s` with the instruction whose bits are `w` (as spec/opcode_table.json numbers them) loaded where `step`
fetches next (log entry 7). -/
def State.withFetchWord (s : State) (nbits w : Nat) : State := s.loadCode (wordBytes nbits w)

end Sys2Proof.Machine
end

