-- ==== Sys2Proof/Safety.lean ====
section
/-! DEFINITION. What claims about the machine are stated in: the invariant of the state, the conditions under which
each form executes (70_reset_and_hazards.md R132), what one execution may change (10_state.md R27), real values
(40_conversion_numerics.md R74, R75, R78), and the end of a run (70_reset_and_hazards.md R138). -/

namespace Sys2Proof.Safety

open Sys2Proof.Machine

/-! ### The invariant of the state -/

/-- No bit of `w` at or above `n` is set. -/
def HighZero {w : Nat} (n : Nat) (x : BitVec w) : Prop := ∀ b, n ≤ b → x.getLsbD b = false

/-- How many vector registers the processor has in any mode (10_state.md R10). -/
def physicalVecRegs (c : Config) : Nat := nvregTotal c .mode64

/-- What the model's representation of the state means: memory in canonical form; vector registers `MAX_VL` bits
wide and none beyond those that exist (10_state.md R10); opmask registers `KW` bits wide (R13); `MXCSR[31:16]`
zero (R14); in `Mode32` the upper bits of `pc` zero (R17). -/
structure Inv (s : State) : Prop where
  mem     : memWf s.mem = true
  vecHigh : ∀ n : Fin 32, HighZero s.cfg.maxVl s.v[n]
  vecNone : ∀ n : Fin 32, physicalVecRegs s.cfg ≤ n.val → s.v[n] = 0#512
  opmask  : ∀ n : Fin 8, HighZero s.cfg.opmaskBits s.k[n]
  mxcsr   : mxcsrReservedBits s.mxcsr = 0#16
  pc32    : s.opMode = .run .mode32 → s.pc.toNat < 2 ^ 32

/-! ### The conditions under which a form executes -/

/-- LEGACY: SSE2, `CR0.EM = 0`, `CR4.OSFXSR = 1`, `CR0.TS = 0`, no `LOCK` (R132, 30_encoding.md R69). -/
structure LegacyEnabled (op : LegacyOp) (s : State) : Prop where
  lock   : op.pre.lock = false
  sse2   : s.cfg.hasSSE2 = true
  em     : s.cr0EM = false
  osfxsr : s.osfxsr = true
  ts     : s.cr0TS = false

/-- VEX: AVX, `CR4.OSXSAVE = 1`, `XCR0[2:1] = 11b`, `CR0.TS = 0` (R132), `vvvv` stored as 1111b (30_encoding.md
R67), no prefix of R53 or R69. -/
structure VexEnabled (op : VexOp) (s : State) : Prop where
  lock    : op.pre.lock = false
  prefixes : op.badPrefix = false
  vvvv    : op.vvvv = 15#4
  avx     : s.cfg.hasAVX = true
  osxsave : s.osxsave = true
  xcr0    : s.avxEnabled = true
  ts      : s.cr0TS = false

/-- The system state an EVEX form needs: AVX512F, `CR4.OSXSAVE = 1`, `XCR0[2:1] = 11b`, `XCR0[7:5] = 111b`,
`CR0.TS = 0` (R132). -/
structure Avx512Enabled (s : State) : Prop where
  avx512f : s.cfg.hasAVX512F = true
  osxsave : s.osxsave = true
  xcr0    : s.avxEnabled = true
  xcr0hi  : s.avx512Enabled = true
  ts      : s.cr0TS = false

/-- The reserved fields of an EVEX form as they must be (30_encoding.md R67, R68). -/
structure EvexFieldsOk (op : EvexOp) : Prop where
  lock    : op.pre.lock = false
  prefixes : op.badPrefix = false
  vvvv    : op.vvvv = 15#4
  w       : op.w = false
  vbar    : op.vbar = true
  z       : op.z = true → op.aaa ≠ 0#3

/-- The same of the `{sae}` form. -/
structure SaeFieldsOk (op : SaeOp) : Prop where
  lock    : op.pre.lock = false
  prefixes : op.badPrefix = false
  vvvv    : op.vvvv = 15#4
  w       : op.w = false
  vbar    : op.vbar = true
  z       : op.z = true → op.aaa ≠ 0#3

/-- Every byte of `0..n-1` at offset `off` of a segment may be read, and no alignment check applies
(20_memory.md R30, R39; 60_exceptions.md R114). -/
def Readable (s : State) (m : Mode) (seg : SegReg) (off : Word) (bytes : List Nat) : Prop :=
  checkBytes s m seg .dataRead off bytes = none ∧ s.alignmentChecking = false

/-- The source of a LEGACY or VEX form of `n` bytes: a register, or readable memory (41_cvtps2pd_sse_vex.md R88). -/
def SourceReadable (s : State) (m : Mode) (pre : Prefixes) (len n : Nat) : Source → Prop
  | .reg _ => True
  | .mem a => Readable s m (memSeg m pre a) (memOffset s m pre len 1 a) (List.range n)

/-- Element `j` of the source of a LEGACY or VEX form (41_cvtps2pd_sse_vex.md R88). -/
def sourceBits (s : State) (m : Mode) (pre : Prefixes) (len : Nat) (j : Nat) : Source → Single
  | .reg n => elem32 s.v[n] j
  | .mem a => memElem s m (memSeg m pre a) (memOffset s m pre len 1 a) j

/-- Element `j` is selected by the writemask `aaa` (42_vcvtps2pd_evex.md R98). -/
def Selected (s : State) (aaa : BitVec 3) (j : Nat) : Prop :=
  aaa = 0#3 ∨ (s.k[aaa.toNat]'aaa.isLt).getLsbD j = true

/-- The scale `N` of a `disp8` in an EVEX form of `kl` elements (30_encoding.md R64). -/
def evexScale (kl : Nat) (bcst : Bool) : Nat := if bcst then 4 else 4 * kl

/-- The source of an EVEX form of `kl` elements: a register, or memory whose bytes are readable wherever a
selected element needs them (42_vcvtps2pd_evex.md R97, 20_memory.md R40). -/
def EvexReadable (s : State) (m : Mode) (pre : Prefixes) (len kl : Nat) (aaa : BitVec 3) : EvexSource → Prop
  | .reg _ => True
  | .mem bcst a =>
    s.alignmentChecking = false ∧
    ∀ j, j < kl → Selected s aaa j →
      checkBytes s m (memSeg m pre a) .dataRead (memOffset s m pre len (evexScale kl bcst) a)
        (if bcst then [0, 1, 2, 3] else [4 * j, 4 * j + 1, 4 * j + 2, 4 * j + 3]) = none

/-- Element `j` of the source of an EVEX form (42_vcvtps2pd_evex.md R97). -/
def evexBits (s : State) (m : Mode) (pre : Prefixes) (len kl : Nat) (j : Nat) : EvexSource → Single
  | .reg n => elem32 s.v[n] j
  | .mem bcst a =>
    memElem s m (memSeg m pre a) (memOffset s m pre len (evexScale kl bcst) a) (if bcst then 0 else j)

/-- No selected element among the first `kl` signals an unmasked condition (40_conversion_numerics.md R82). -/
def NoUnmasked (s : State) (kl : Nat) (sel : Nat → Prop) (bits : Nat → Single) : Prop :=
  ∀ j, j < kl → sel j →
    ((cvt (bits j) (mxcsrDAZ s.mxcsr)).ie = true → mxcsrIM s.mxcsr = true) ∧
    ((cvt (bits j) (mxcsrDAZ s.mxcsr)).de = true → mxcsrDM s.mxcsr = true)

/-- `pc + len` does not pass 2^64 (10_state.md R17). -/
def PcFits (s : State) (m : Mode) (len : Nat) : Prop := m = .mode64 → s.pc.toNat + len < 2 ^ 64

/-- Byte `t` at offset `off` of a segment gives neither #SS nor #GP when it is read: the checks of 20_memory.md R37 hold
and `Translate` answers neither (R39). -/
structure SegmentPasses (s : State) (m : Mode) (seg : SegReg) (off : Word) (t : Nat) : Prop where
  allows : segmentAllows s m seg .dataRead (byteOffset m off t) (byteAddr s m seg off t) = true
  notSs  : translateAnswer s.cfg.translate (byteAddr s m seg off t) seg s.cpl .dataRead ≠ .ss
  notGp  : translateAnswer s.cfg.translate (byteAddr s m seg off t) seg s.cpl .dataRead ≠ .gp

/-! ### What an execution leaves -/

/-- Everything but the destination, `MXCSR.IE`, `MXCSR.DE` and `pc` is unchanged (10_state.md R27), every byte of
memory included. -/
structure Frame (dst : Fin 32) (s t : State) : Prop where
  others : t = { s with v := t.v, mxcsr := t.mxcsr, pc := t.pc }
  vec    : ∀ n : Fin 32, n ≠ dst → t.v[n] = s.v[n]
  mxcsr  : ∀ b, 2 ≤ b → t.mxcsr.getLsbD b = s.mxcsr.getLsbD b
  memory : ∀ la, t.readByte la = s.readByte la

/-- The flags after an execution that completes: `IE` and `DE` OR-ed with the conditions of the selected elements
(40_conversion_numerics.md R81, R82), every other bit as it was. -/
structure FlagsOred (s t : State) (kl : Nat) (sel : Nat → Prop) (bits : Nat → Single) : Prop where
  ie : t.mxcsr.getLsbD 0 = true ↔
    s.mxcsr.getLsbD 0 = true ∨ ∃ j, j < kl ∧ sel j ∧ (cvt (bits j) (mxcsrDAZ s.mxcsr)).ie = true
  de : t.mxcsr.getLsbD 1 = true ↔
    s.mxcsr.getLsbD 1 = true ∨ ∃ j, j < kl ∧ sel j ∧ (cvt (bits j) (mxcsrDAZ s.mxcsr)).de = true
  others : ∀ b, 2 ≤ b → t.mxcsr.getLsbD b = s.mxcsr.getLsbD b

/-- The destination after a form that converts every one of `kl` elements. -/
def Converted (s : State) (kl : Nat) (bits : Nat → Single) (new : VecReg) : Prop :=
  ∀ j, j < kl → elem64 new j = (cvt (bits j) (mxcsrDAZ s.mxcsr)).d

/-- The destination's elements after an EVEX form: converted, kept or zero (42_vcvtps2pd_evex.md R99). -/
structure MaskConverted (s : State) (kl : Nat) (aaa : BitVec 3) (z : Bool) (bits : Nat → Single)
    (old new : VecReg) : Prop where
  selected : ∀ j, j < kl → Selected s aaa j → elem64 new j = (cvt (bits j) (mxcsrDAZ s.mxcsr)).d
  merged   : ∀ j, j < kl → ¬ Selected s aaa j → z = false → elem64 new j = elem64 old j
  zeroed   : ∀ j, j < kl → ¬ Selected s aaa j → z = true → elem64 new j = 0#64

/-- The bits from `lo` up to `MAX_VL` are those of another value (41_cvtps2pd_sse_vex.md R89). -/
def UpperKept (s : State) (lo : Nat) (old new : VecReg) : Prop :=
  ∀ b, lo ≤ b → b < s.cfg.maxVl → new.getLsbD b = old.getLsbD b

/-- The destination register of an instruction (30_encoding.md R58). -/
def dstOf : Instr → Fin 32
  | .cvtps2pd op => op.dst
  | .vcvtps2pdVex128C5 op => op.dst
  | .vcvtps2pdVex128C4 op => op.dst
  | .vcvtps2pdVex256C5 op => op.dst
  | .vcvtps2pdVex256C4 op => op.dst
  | .vcvtps2pdEvex512Sae op => op.dst
  | .vcvtps2pdEvex128 op => op.dst
  | .vcvtps2pdEvex256 op => op.dst
  | .vcvtps2pdEvex512 op => op.dst
  | .vcvtps2pdEvexReservedLL11 op => op.dst

/-- Operand 2 of an instruction (30_encoding.md R58). -/
def operandOf : Instr → Operand
  | .cvtps2pd op => operandOfSource op.src
  | .vcvtps2pdVex128C5 op => operandOfSource op.src
  | .vcvtps2pdVex128C4 op => operandOfSource op.src
  | .vcvtps2pdVex256C5 op => operandOfSource op.src
  | .vcvtps2pdVex256C4 op => operandOfSource op.src
  | .vcvtps2pdEvex512Sae op => .reg op.src
  | .vcvtps2pdEvex128 op => operandOfEvex op.src
  | .vcvtps2pdEvex256 op => operandOfEvex op.src
  | .vcvtps2pdEvex512 op => operandOfEvex op.src
  | .vcvtps2pdEvexReservedLL11 op => operandOfEvex op.src

/-- The legacy prefixes of an instruction, and whether a byte of 30_encoding.md R53 stands before it. -/
def prefixesOf : Instr → Prefixes
  | .cvtps2pd op => op.pre
  | .vcvtps2pdVex128C5 op => op.pre
  | .vcvtps2pdVex128C4 op => op.pre
  | .vcvtps2pdVex256C5 op => op.pre
  | .vcvtps2pdVex256C4 op => op.pre
  | .vcvtps2pdEvex512Sae op => op.pre
  | .vcvtps2pdEvex128 op => op.pre
  | .vcvtps2pdEvex256 op => op.pre
  | .vcvtps2pdEvex512 op => op.pre
  | .vcvtps2pdEvexReservedLL11 op => op.pre

def badPrefixOf : Instr → Bool
  | .cvtps2pd _ => false
  | .vcvtps2pdVex128C5 op => op.badPrefix
  | .vcvtps2pdVex128C4 op => op.badPrefix
  | .vcvtps2pdVex256C5 op => op.badPrefix
  | .vcvtps2pdVex256C4 op => op.badPrefix
  | .vcvtps2pdEvex512Sae op => op.badPrefix
  | .vcvtps2pdEvex128 op => op.badPrefix
  | .vcvtps2pdEvex256 op => op.badPrefix
  | .vcvtps2pdEvex512 op => op.badPrefix
  | .vcvtps2pdEvexReservedLL11 op => op.badPrefix

/-- What an instruction asks of `convert`, for every constructor; the reserved encoding asks for its #UD. -/
def formOf (i : Instr) (s : State) : Form :=
  match i with
  | .cvtps2pd op => legacyForm op s
  | .vcvtps2pdVex128C5 op => vexForm 2 2 op s
  | .vcvtps2pdVex128C4 op => vexForm 3 2 op s
  | .vcvtps2pdVex256C5 op => vexForm 2 4 op s
  | .vcvtps2pdVex256C4 op => vexForm 3 4 op s
  | .vcvtps2pdEvex512Sae op => saeForm op s
  | .vcvtps2pdEvex128 op => evexForm 2 true op s
  | .vcvtps2pdEvex256 op => evexForm 4 true op s
  | .vcvtps2pdEvex512 op => evexForm 8 false op s
  | .vcvtps2pdEvexReservedLL11 op => { evexForm 8 false op s with ud := true }

/-- The `{sae}` form is not one that `sae_ignores_LL = false` refuses (30_encoding.md R56). -/
def SaeAccepted (s : State) : Instr → Prop
  | .cvtps2pd _ => True
  | .vcvtps2pdVex128C5 _ => True
  | .vcvtps2pdVex128C4 _ => True
  | .vcvtps2pdVex256C5 _ => True
  | .vcvtps2pdVex256C4 _ => True
  | .vcvtps2pdEvex512Sae op => s.cfg.saeIgnoresLL = true ∨ op.ll = 2#2
  | .vcvtps2pdEvex128 _ => True
  | .vcvtps2pdEvex256 _ => True
  | .vcvtps2pdEvex512 _ => True
  | .vcvtps2pdEvexReservedLL11 _ => True

/-- A byte of 30_encoding.md R71 step 1: a segment override, `67`, `F0`, `66`, `F2` or `F3`. -/
def isPrefixByte (b : Byte) : Bool :=
  [0x26#8, 0x2E#8, 0x36#8, 0x3E#8, 0x64#8, 0x65#8, 0x67#8, 0xF0#8, 0x66#8, 0xF2#8, 0xF3#8].contains b

/-- A segment override (30_encoding.md R46). -/
def isSegByte (b : Byte) : Bool := [0x26#8, 0x2E#8, 0x36#8, 0x3E#8, 0x64#8, 0x65#8].contains b

/-! ### Effective addresses as integers (20_memory.md R35) -/

/-- `asz` (20_memory.md R34). -/
def addrSize (m : Mode) (pre : Prefixes) : Nat :=
  match m with
  | .mode64 => if pre.addr67 then 32 else 64
  | .mode32 => 32

/-- A displacement as an integer, `disp8` multiplied by `scale` (30_encoding.md R63, R64). -/
def dispInt (scale : Nat) : Disp → Int
  | .none => 0
  | .d8 v => v.toInt * scale
  | .d32 v => v.toInt

/-- `x[n]` truncated to `asz` bits (20_memory.md R35). -/
def gprInt (s : State) (asz : Nat) (n : Fin 16) : Int := ((s.x[n].toNat % 2 ^ asz : Nat) : Int)

/-- `I * s` (20_memory.md R35). -/
def indexInt (s : State) (asz : Nat) (i : Option (Fin 16)) (ss : BitVec 2) : Int :=
  match i with
  | none => 0
  | some n => gprInt s asz n * (2 ^ ss.toNat : Nat)

/-- `B + I * s + disp`, or `pc + len + disp` (20_memory.md R35). -/
def offsetSum (s : State) (asz len scale : Nat) : Mem → Int
  | .base b d => gprInt s asz b + dispInt scale d
  | .ripRel d => (s.pc.toNat : Int) + len + d.toInt
  | .absolute d => d.toInt
  | .sib b i ss d => gprInt s asz b + indexInt s asz i ss + dispInt scale d
  | .sibNoBase i ss d => indexInt s asz i ss + d.toInt

/-! ### Real values (40_conversion_numerics.md R74, R75, R78) -/

/-- The magnitude of a finite single in units of 2^-149 (R74). -/
def singleMag (s : Single) : Nat :=
  if singleExp s = 0#8 then (singleFrac s).toNat
  else (2 ^ 23 + (singleFrac s).toNat) * 2 ^ ((singleExp s).toNat - 1)

/-- The magnitude of a finite double in units of 2^-1074 (R75). -/
def doubleMag (d : Double) : Nat :=
  if doubleExp d = 0#11 then (doubleFrac d).toNat
  else (2 ^ 52 + (doubleFrac d).toNat) * 2 ^ ((doubleExp d).toNat - 1)

/-- Zero, denormal or normal. -/
def FiniteSingle (s : Single) : Prop := singleExp s ≠ 255#8

/-- The two values are the same real number: same sign, and 2^-149 is 2^925 units of 2^-1074. -/
def SameReal (s : Single) (d : Double) : Prop :=
  doubleSign d = singleSign s ∧ doubleMag d = singleMag s * 2 ^ 925

/-! ### The end of a run (70_reset_and_hazards.md R138) -/

/-- How a run over a program ends: normally at the end address, at a fault, at a refusal, or not yet. -/
inductive RunEnd where
  | finished (s : State)
  | faulted (f : Fault)
  | refused (r : Refusal)
  | running (s : State)

/-- At most `n` steps, ending when `pc` is the end address `stop`; the bytes at and after it are not fetched, so an
instruction that runs past it is refused (R138; log entry 32). -/
def runTo (stop : Word) : Nat → State → RunEnd
  | 0, s => if s.pc = stop then .finished s else .running s
  | n + 1, s =>
    if s.pc = stop then .finished s
    else
      match stepBefore stop s with
      | .next t => runTo stop n t
      | .fault f => .faulted f
      | .refused r => .refused r

end Sys2Proof.Safety
end

