-- ==== Sys2Proof/Certificates/Slice0/Obligations.lean ====
section
/-! DEFINITION. The statements for the provers. Each docstring names the rules of spec/ it formalises. -/

open Sys2Proof Sys2Proof.Machine Sys2Proof.Safety

/-! ### Reset, invariant, step -/

/-- 10_state.md R25, the values it lists. Not a rule of the spec but the model's choice (log entry 5): that
`FFFF_FFF0h` is split into a `CS` base and `pc`, and (log entry 37) that `RFLAGS`, `CR0`, `CR4` and `XCR0` have 64 bits,
those above R25's values zero. `RDX`, whose value R25 leaves open, is left out. -/
def Obligations.ResetHoldsListedValues : Prop :=
  State.reset.mxcsr = 0x00001F80#32 ∧
  (∀ n : Fin 32, State.reset.v[n] = 0#512) ∧
  (∀ n : Fin 8, State.reset.k[n] = 0#64) ∧
  State.reset.cr0 = 0x60000010#64 ∧ State.reset.cr4 = 0#64 ∧ State.reset.xcr0 = 1#64 ∧
  State.reset.rflags = 2#64 ∧ State.reset.cpl = 0#2 ∧
  (∀ n : Fin 16, n ≠ 2 → State.reset.x[n] = 0#64) ∧
  State.reset.opMode = .realAddress ∧
  State.reset.segs.cs.base + State.reset.pc = 0xFFFFFFF0#64 ∧
  (∃ r, step State.reset = .refused r)

/-- The reset state meets the invariant (10_state.md R10, R13, R14, R17, R25). -/
def Obligations.ResetMeetsInvariant : Prop := Inv State.reset

/-- Every step keeps the invariant: memory's canonical form, registers no wider than `MAX_VL` and none beyond those
that exist, opmasks no wider than `KW`, `MXCSR[31:16]` zero, `pc` below 2^32 in `Mode32` (10_state.md R10, R13, R14,
R17). -/
def Obligations.StepKeepsInvariant : Prop :=
  ∀ s t : State, Inv s → step s = .next t → Inv t

/-- 00_scope.md R6: when the launch premises hold and the bytes fetched at `pc` decode to an instruction, the step is
that instruction's execution; nothing is added around it. -/
def Obligations.StepRunsDecodedInstruction : Prop :=
  ∀ (s : State) (m : Mode) (i : Instr) (rest : List Byte),
    s.opMode = .run m → premiseRefusal s = none → decode m (fetchBytes s m).1 = .instr i rest →
    step s = exec i s

/-- 60_exceptions.md R118 step 1, 30_encoding.md R44, 93_implementation_defined.md U11: where every byte that can be
fetched is a legacy prefix or, in `Mode64`, a REX byte, in any order and number, the step reports the fetch's own fault,
or, after fifteen such bytes, #GP(0). -/
def Obligations.EndlessPrefixesFault : Prop :=
  ∀ (s : State) (m : Mode), s.opMode = .run m → premiseRefusal s = none →
    (∀ b ∈ (fetchBytes s m).1, isPrefixByte b = true ∨ isRexByte m b = true) →
    (∀ f, (fetchBytes s m).2 = some (.fault f) → step s = .fault f) ∧
    ((fetchBytes s m).2 = none → (fetchBytes s m).1.length = 15 ∧ step s = .fault (.generalProtection s))

/-- A byte string that the decoder refuses is refused by the step, under the decoder's name (30_encoding.md R46, R47,
R66, R71). -/
def Obligations.StepRefusesUndecoded : Prop :=
  ∀ (s : State) (m : Mode) (r : DecodeRefusal),
    s.opMode = .run m → premiseRefusal s = none → decode m (fetchBytes s m).1 = .refused r →
    step s = .refused (.notDecoded r)

/-- 60_exceptions.md R126: outside `Mode64` and `Mode32` every instruction and every step is refused. -/
def Obligations.OtherModesRefused : Prop :=
  ∀ s : State, (∀ m, s.opMode ≠ .run m) →
    step s = .refused .unsupportedMode ∧ ∀ i, ∃ r, exec i s = .refused r

/-- 60_exceptions.md R129, R114, 70_reset_and_hazards.md R131, 92_eei_decisions.md D7: with `RFLAGS.TF = 1`, with an
enable bit of `DR7[7:0]` set, with a performance counter on, with alignment checking on (`CR0.AM = 1`, `RFLAGS.AC = 1`,
`CPL = 3`), with `MXCSR[31:16]` not zero, or with `MXCSR.DAZ = 1` on a processor without DAZ, the step is refused, whatever
the instruction at `pc`. The counters are treatment U22 of 93_implementation_defined.md, the last two U19. The model's:
which bits are `TF` and the enables (log entry 19), how a counter that is on is told (entry 38), that support of DAZ is a
parameter (entry 36). -/
def Obligations.LaunchPremisesRequired : Prop :=
  ∀ s : State,
    (s.rflags.getLsbD 8 = true ∨ s.dbg.dr7.extractLsb' 0 8 ≠ 0#8 ∨ s.perfCounting = true ∨
      (s.cr0.getLsbD 18 = true ∧ s.rflags.getLsbD 18 = true ∧ s.cpl = 3#2) ∨ mxcsrReservedBits s.mxcsr ≠ 0#16 ∨
      (s.mxcsr.getLsbD 6 = true ∧ s.cfg.supportsDAZ = false)) →
    ∃ r, step s = .refused r

/-! ### Decoding -/

/-- The encoder and the decoder agree: the bytes of every well-formed instruction, whatever follows them, decode to
that instruction (30_encoding.md R46 to R63). -/
def Obligations.DecodeOfEncodeIsInstruction : Prop :=
  ∀ (m : Mode) (i : Instr) (rest : List Byte), i.wf m = true → decode m (encode i ++ rest) = .instr i rest

/-- Whatever the bytes, what they decode to is well-formed for the mode (30_encoding.md R48, R54, R57, R59 to R62,
R66). -/
def Obligations.DecodedInstructionsAreWellFormed : Prop :=
  ∀ (m : Mode) (bytes rest : List Byte) (i : Instr), decode m bytes = .instr i rest → i.wf m = true

/-- 30_encoding.md R139, R71: the decoder gives the instruction of the first row of opcode_table.json that the bytes
of the format match. -/
def Obligations.DecoderTakesFirstMatchingRow : Prop :=
  ∀ (m : Mode) (bytes rest : List Byte) (i : Instr),
    decode m bytes = .instr i rest → firstRow (formatBytes m bytes) = some i.row

/-- 30_encoding.md R65: a decoded instruction without a prefix that is #UD takes exactly its length in bytes, 3 to 13
of them. -/
def Obligations.DecodedLengthIsConsumed : Prop :=
  ∀ (m : Mode) (bytes rest : List Byte) (i : Instr), decode m bytes = .instr i rest →
    (prefixesOf i).lock = false → badPrefixOf i = false →
    bytes.length = i.len + rest.length ∧ 3 ≤ i.len ∧ i.len ≤ 13

/-- 30_encoding.md R46: two segment overrides, or two `67`, among the prefixes: no instruction. That this holds also where
`F0`, for which R69 says #UD, or `66`, `F2` or `F3`, for which R53 does, stands among the prefixes is the model's choice
(log entry 34). -/
def Obligations.RepeatedPrefixesRefused : Prop :=
  ∀ (m : Mode) (prefixes tail rest : List Byte) (i : Instr), (∀ b ∈ prefixes, isPrefixByte b = true) →
    (2 ≤ prefixes.countP isSegByte ∨ 2 ≤ prefixes.count 0x67#8) →
    decode m (prefixes ++ tail) ≠ .instr i rest

/-- 30_encoding.md R47: `66`, `F3` or `F2` among the prefixes of `0F 5A`, with or without REX in `Mode64`: not this
instruction. That this holds also where `F0` stands among the prefixes, for which R69 says #UD, is log entry 16. -/
def Obligations.MandatoryPrefixIsAnotherInstruction : Prop :=
  ∀ (m : Mode) (prefixes rex tail : List Byte), (∀ b ∈ prefixes, isPrefixByte b = true) →
    (0x66#8 ∈ prefixes ∨ 0xF3#8 ∈ prefixes ∨ 0xF2#8 ∈ prefixes) →
    (rex = [] ∨ (m = .mode64 ∧ ∃ b : Byte, b.extractLsb' 4 4 = 4#4 ∧ rex = [b])) →
    decode m (prefixes ++ rex ++ 0x0F#8 :: 0x5A#8 :: tail) = .refused .notThisInstruction

/-- 30_encoding.md section 9: seven of the worked encodings. -/
def Obligations.WorkedEncodingsDecode : Prop :=
  decode .mode64 [0x45#8, 0x0F#8, 0x5A#8, 0xC1#8] =
    .instr (.cvtps2pd ⟨⟨none, false, false⟩, some false, 8, .reg 9⟩) [] ∧
  decode .mode64 [0xC5#8, 0xF8#8, 0x5A#8, 0x5B#8, 0x08#8] =
    .instr (.vcvtps2pdVex128C5 ⟨⟨none, false, false⟩, false, false, 15#4, 3, .mem (.base 3 (.d8 8#8))⟩) [] ∧
  decode .mode64 [0xC4#8, 0x41#8, 0x7C#8, 0x5A#8, 0xD4#8] =
    .instr (.vcvtps2pdVex256C4 ⟨⟨none, false, false⟩, false, false, 15#4, 10, .reg 12⟩) [] ∧
  decode .mode64 [0x62#8, 0xF1#8, 0x7C#8, 0xC9#8, 0x5A#8, 0xCA#8] =
    .instr (.vcvtps2pdEvex512 ⟨⟨none, false, false⟩, false, false, 15#4, true, true, 1#3, 1, .reg 2⟩) [] ∧
  decode .mode64 [0x62#8, 0xF1#8, 0x7C#8, 0x18#8, 0x5A#8, 0xCA#8] =
    .instr (.vcvtps2pdEvex512Sae ⟨⟨none, false, false⟩, false, false, 15#4, true, false, 0#2, 0#3, 1, 2⟩) [] ∧
  decode .mode64 [0x62#8, 0xF1#8, 0x7C#8, 0x58#8, 0x5A#8, 0x08#8] =
    .instr (.vcvtps2pdEvex512 ⟨⟨none, false, false⟩, false, false, 15#4, true, false, 0#3, 1,
      .mem true (.base 0 .none)⟩) [] ∧
  decode .mode64 [0x62#8, 0x81#8, 0x7C#8, 0x0A#8, 0x5A#8, 0xCE#8] =
    .instr (.vcvtps2pdEvex128 ⟨⟨none, false, false⟩, false, false, 15#4, true, false, 2#3, 17, .reg 30⟩) []

/-! ### The conversion primitive -/

/-- 40_conversion_numerics.md R78: every finite single is exact in double, as a zero or a normal number; a zero, a
normal number and an infinity signal nothing; `ie` iff a signaling NaN; `de` iff a denormal and DAZ is off; never
both. -/
def Obligations.CvtIsExactAndSignalsOnlySnanAndDenormal : Prop :=
  ∀ (x : Single) (daz : Bool),
    (FiniteSingle x → SameReal x (cvt x false).d ∧
      (doubleClass (cvt x false).d = .zero ∨ doubleClass (cvt x false).d = .normal)) ∧
    (singleClass x = .zero ∨ singleClass x = .normal →
      SameReal x (cvt x daz).d ∧ (cvt x daz).ie = false ∧ (cvt x daz).de = false) ∧
    (singleClass x = .infinity →
      doubleClass (cvt x daz).d = .infinity ∧ doubleSign (cvt x daz).d = singleSign x ∧
        (cvt x daz).ie = false ∧ (cvt x daz).de = false) ∧
    ((cvt x daz).ie = true ↔ singleClass x = .snan) ∧
    ((cvt x daz).de = true ↔ singleClass x = .denormal ∧ daz = false) ∧
    ¬ ((cvt x daz).ie = true ∧ (cvt x daz).de = true)

/-- 40_conversion_numerics.md R79: a denormal converts exactly to a normal double and signals `de` with DAZ off; with
DAZ on it is a zero of the same sign and signals nothing; no result is a denormal double. -/
def Obligations.CvtDenormals : Prop :=
  (∀ x : Single, singleClass x = .denormal →
    (SameReal x (cvt x false).d ∧ doubleClass (cvt x false).d = .normal ∧
      (cvt x false).de = true ∧ (cvt x false).ie = false) ∧
    (doubleClass (cvt x true).d = .zero ∧ doubleSign (cvt x true).d = singleSign x ∧
      (cvt x true).de = false ∧ (cvt x true).ie = false)) ∧
  ∀ (x : Single) (daz : Bool), doubleClass (cvt x daz).d ≠ .denormal

/-- 40_conversion_numerics.md R80: a quiet NaN keeps its sign and its 23 fraction bits, at the top of the double's
fraction, the low 29 bits zero, and signals nothing; a signaling NaN gives the same with the quiet bit set, and signals
`ie`. -/
def Obligations.CvtNans : Prop :=
  ∀ (x : Single) (daz : Bool), singleClass x = .qnan ∨ singleClass x = .snan →
    doubleClass (cvt x daz).d = .qnan ∧ doubleSign (cvt x daz).d = singleSign x ∧
    (∀ b, b < 22 → (doubleFrac (cvt x daz).d).getLsbD (29 + b) = (singleFrac x).getLsbD b) ∧
    (∀ b, b < 29 → (doubleFrac (cvt x daz).d).getLsbD b = false) ∧
    (doubleFrac (cvt x daz).d).getLsbD 51 = true ∧
    ((cvt x daz).ie = true ↔ singleClass x = .snan) ∧ (cvt x daz).de = false

/-! ### What each instruction does when it completes -/

/-- 41_cvtps2pd_sse_vex.md R89 (R86 to R88, R92): `CVTPS2PD xmm1, xmm2/m64` completes with two elements converted from
the source as it was, bits `MAX_VL-1:128` unmodified, the flags OR-ed, `pc` advanced, and nothing else changed. -/
def Obligations.LegacyConvertsTwo : Prop :=
  ∀ (op : LegacyOp) (s : State) (m : Mode), s.opMode = .run m → LegacyEnabled op s →
    SourceReadable s m op.pre op.len 8 op.src →
    NoUnmasked s 2 (fun _ => True) (fun j => sourceBits s m op.pre op.len j op.src) →
    PcFits s m op.len →
    ∃ t, exec (.cvtps2pd op) s = .next t ∧
      Converted s 2 (fun j => sourceBits s m op.pre op.len j op.src) t.v[op.dst] ∧
      UpperKept s 128 s.v[op.dst] t.v[op.dst] ∧
      FlagsOred s t 2 (fun _ => True) (fun j => sourceBits s m op.pre op.len j op.src) ∧
      t.pc = nextPc m s.pc op.len ∧ Frame op.dst s t

/-- 41_cvtps2pd_sse_vex.md R90 (R86 to R88, R92): `VCVTPS2PD xmm1, xmm2/m64`, both VEX prefixes: two elements, bits
`MAX_VL-1:128` zeroed. -/
def Obligations.Vex128ConvertsTwo : Prop :=
  ∀ (op : VexOp) (s : State) (m : Mode) (n : Nat) (i : Instr),
    (n = 2 ∧ i = .vcvtps2pdVex128C5 op) ∨ (n = 3 ∧ i = .vcvtps2pdVex128C4 op) →
    s.opMode = .run m → VexEnabled op s →
    SourceReadable s m op.pre (op.len n) 8 op.src →
    NoUnmasked s 2 (fun _ => True) (fun j => sourceBits s m op.pre (op.len n) j op.src) →
    PcFits s m (op.len n) →
    ∃ t, exec i s = .next t ∧
      Converted s 2 (fun j => sourceBits s m op.pre (op.len n) j op.src) t.v[op.dst] ∧
      HighZero 128 t.v[op.dst] ∧
      FlagsOred s t 2 (fun _ => True) (fun j => sourceBits s m op.pre (op.len n) j op.src) ∧
      t.pc = nextPc m s.pc (op.len n) ∧ Frame op.dst s t

/-- 41_cvtps2pd_sse_vex.md R91 (R86 to R88, R92, R93): `VCVTPS2PD ymm1, xmm2/m128`, both VEX prefixes: four elements,
bits `MAX_VL-1:256` zeroed. -/
def Obligations.Vex256ConvertsFour : Prop :=
  ∀ (op : VexOp) (s : State) (m : Mode) (n : Nat) (i : Instr),
    (n = 2 ∧ i = .vcvtps2pdVex256C5 op) ∨ (n = 3 ∧ i = .vcvtps2pdVex256C4 op) →
    s.opMode = .run m → VexEnabled op s →
    SourceReadable s m op.pre (op.len n) 16 op.src →
    NoUnmasked s 4 (fun _ => True) (fun j => sourceBits s m op.pre (op.len n) j op.src) →
    PcFits s m (op.len n) →
    ∃ t, exec i s = .next t ∧
      Converted s 4 (fun j => sourceBits s m op.pre (op.len n) j op.src) t.v[op.dst] ∧
      HighZero 256 t.v[op.dst] ∧
      FlagsOred s t 4 (fun _ => True) (fun j => sourceBits s m op.pre (op.len n) j op.src) ∧
      t.pc = nextPc m s.pc (op.len n) ∧ Frame op.dst s t

/-- 42_vcvtps2pd_evex.md R100 (R97 to R99, R104 to R107): `VCVTPS2PD xmm1 {k1}{z}, xmm2/m64/m32bcst`: two elements
converted, kept or zeroed under the writemask, the upper bits zeroed; bytes that no selected element needs are not
checked. -/
def Obligations.Evex128ConvertsUnderMask : Prop :=
  ∀ (op : EvexOp) (s : State) (m : Mode), s.opMode = .run m → Avx512Enabled s → s.cfg.hasAVX512VL = true →
    EvexFieldsOk op → EvexReadable s m op.pre op.len 2 op.aaa op.src →
    NoUnmasked s 2 (Selected s op.aaa) (fun j => evexBits s m op.pre op.len 2 j op.src) →
    PcFits s m op.len →
    ∃ t, exec (.vcvtps2pdEvex128 op) s = .next t ∧
      MaskConverted s 2 op.aaa op.z (fun j => evexBits s m op.pre op.len 2 j op.src) s.v[op.dst] t.v[op.dst] ∧
      HighZero 128 t.v[op.dst] ∧
      FlagsOred s t 2 (Selected s op.aaa) (fun j => evexBits s m op.pre op.len 2 j op.src) ∧
      t.pc = nextPc m s.pc op.len ∧ Frame op.dst s t

/-- 42_vcvtps2pd_evex.md R101 (R97 to R99, R104 to R107): `VCVTPS2PD ymm1 {k1}{z}, xmm2/m128/m32bcst`: four
elements. -/
def Obligations.Evex256ConvertsUnderMask : Prop :=
  ∀ (op : EvexOp) (s : State) (m : Mode), s.opMode = .run m → Avx512Enabled s → s.cfg.hasAVX512VL = true →
    EvexFieldsOk op → EvexReadable s m op.pre op.len 4 op.aaa op.src →
    NoUnmasked s 4 (Selected s op.aaa) (fun j => evexBits s m op.pre op.len 4 j op.src) →
    PcFits s m op.len →
    ∃ t, exec (.vcvtps2pdEvex256 op) s = .next t ∧
      MaskConverted s 4 op.aaa op.z (fun j => evexBits s m op.pre op.len 4 j op.src) s.v[op.dst] t.v[op.dst] ∧
      HighZero 256 t.v[op.dst] ∧
      FlagsOred s t 4 (Selected s op.aaa) (fun j => evexBits s m op.pre op.len 4 j op.src) ∧
      t.pc = nextPc m s.pc op.len ∧ Frame op.dst s t

/-- 42_vcvtps2pd_evex.md R102 (R97 to R99, R104 to R107): `VCVTPS2PD zmm1 {k1}{z}, ymm2/m256/m32bcst`: eight elements,
AVX512F alone. -/
def Obligations.Evex512ConvertsUnderMask : Prop :=
  ∀ (op : EvexOp) (s : State) (m : Mode), s.opMode = .run m → Avx512Enabled s →
    EvexFieldsOk op → EvexReadable s m op.pre op.len 8 op.aaa op.src →
    NoUnmasked s 8 (Selected s op.aaa) (fun j => evexBits s m op.pre op.len 8 j op.src) →
    PcFits s m op.len →
    ∃ t, exec (.vcvtps2pdEvex512 op) s = .next t ∧
      MaskConverted s 8 op.aaa op.z (fun j => evexBits s m op.pre op.len 8 j op.src) s.v[op.dst] t.v[op.dst] ∧
      FlagsOred s t 8 (Selected s op.aaa) (fun j => evexBits s m op.pre op.len 8 j op.src) ∧
      t.pc = nextPc m s.pc op.len ∧ Frame op.dst s t

/-- 42_vcvtps2pd_evex.md R103: `VCVTPS2PD zmm1 {k1}{z}, ymm2, {sae}` completes whatever the source signals, with eight
elements, `MXCSR` unchanged, AVX512F alone, and `L'L` ignored where `sae_ignores_LL` holds. -/
def Obligations.SaeConvertsWithoutFlags : Prop :=
  ∀ (op : SaeOp) (s : State) (m : Mode), s.opMode = .run m → Avx512Enabled s → SaeFieldsOk op →
    (s.cfg.saeIgnoresLL = true ∨ op.ll = 2#2) → PcFits s m op.len →
    ∃ t, exec (.vcvtps2pdEvex512Sae op) s = .next t ∧
      MaskConverted s 8 op.aaa op.z (fun j => elem32 s.v[op.src] j) s.v[op.dst] t.v[op.dst] ∧
      t.mxcsr = s.mxcsr ∧ t.pc = nextPc m s.pc op.len ∧ Frame op.dst s t

/-- 30_encoding.md R56: with `sae_ignores_LL` false, `{sae}` with `L'L` other than 10 is refused. -/
def Obligations.SaeVectorLengthParameter : Prop :=
  ∀ (op : SaeOp) (s : State), s.cfg.saeIgnoresLL = false → op.ll ≠ 2#2 →
    exec (.vcvtps2pdEvex512Sae op) s = .refused .saeVectorLength

/-- 30_encoding.md R68: the reserved encoding `L'L = 11` is #UD in `Mode64` and `Mode32`, nothing changed. -/
def Obligations.ReservedEncodingIsUd : Prop :=
  ∀ (op : EvexOp) (s : State) (m : Mode), s.opMode = .run m →
    exec (.vcvtps2pdEvexReservedLL11 op) s = .fault (.invalidOpcode s)

/-- 20_memory.md R40: an EVEX form whose writemask selects no element completes without any memory access, whatever
`Translate` answers and whatever the source holds: `MXCSR` unchanged, elements kept or zeroed, the upper bits zeroed
(42_vcvtps2pd_evex.md R99, R104). -/
def Obligations.NothingSelectedAccessesNothing : Prop :=
  ∀ (op : EvexOp) (s : State) (m : Mode) (kl : Nat) (i : Instr),
    (kl = 2 ∧ i = .vcvtps2pdEvex128 op ∧ s.cfg.hasAVX512VL = true) ∨
      (kl = 4 ∧ i = .vcvtps2pdEvex256 op ∧ s.cfg.hasAVX512VL = true) ∨ (kl = 8 ∧ i = .vcvtps2pdEvex512 op) →
    s.opMode = .run m → Avx512Enabled s → EvexFieldsOk op → PcFits s m op.len →
    (∀ j, j < kl → ¬ Selected s op.aaa j) →
    ∃ t, exec i s = .next t ∧ t.mxcsr = s.mxcsr ∧
      (∀ j, j < kl → elem64 t.v[op.dst] j = if op.z then 0#64 else elem64 s.v[op.dst] j) ∧
      HighZero (64 * kl) t.v[op.dst] ∧ Frame op.dst s t

/-! ### What every next state has in common -/

/-- 10_state.md R27: an execution that completes changes the destination register, `MXCSR.IE`, `MXCSR.DE` and `pc`,
and nothing else: no other register of any kind, no byte of memory. -/
def Obligations.CompletionChangesOnlyItsDestination : Prop :=
  ∀ (i : Instr) (s t : State), exec i s = .next t → Frame (dstOf i) s t

/-- 10_state.md R15: `MXCSR` is written only by OR-ing `IE` and `DE` in, and no bit of `RFLAGS` is written. -/
def Obligations.FlagsAreOnlyOredIn : Prop :=
  ∀ (i : Instr) (s t : State), exec i s = .next t →
    (∃ x : BitVec 32, x &&& ~~~3#32 = 0#32 ∧ t.mxcsr = s.mxcsr ||| x) ∧ t.rflags = s.rflags

/-- 10_state.md R17: a completed execution advances `pc` by the length, without passing 2^64 in `Mode64`, modulo 2^32
in `Mode32`. -/
def Obligations.CompletionAdvancesPc : Prop :=
  ∀ (i : Instr) (s t : State) (m : Mode), s.opMode = .run m → exec i s = .next t →
    (m = .mode64 → t.pc.toNat = s.pc.toNat + i.len ∧ s.pc.toNat + i.len < 2 ^ 64) ∧
    (m = .mode32 → t.pc.toNat = (s.pc.toNat + i.len) % 2 ^ 32)

/-- 10_state.md R10: an instruction decoded from memory that completes names only vector registers that exist. -/
def Obligations.ExecutedRegistersExist : Prop :=
  ∀ (s t : State) (m : Mode) (bytes rest : List Byte) (i : Instr), s.opMode = .run m →
    decode m bytes = .instr i rest → exec i s = .next t →
    (dstOf i).val < nvregTotal s.cfg m ∧ ∀ n, operandOf i = .reg n → n.val < nvregTotal s.cfg m

/-- 41_cvtps2pd_sse_vex.md R92, 42_vcvtps2pd_evex.md R107: with source and destination the same register, every
selected element is converted from the register's old value. -/
def Obligations.AliasedSourceIsReadFirst : Prop :=
  ∀ (i : Instr) (s t : State), operandOf i = .reg (dstOf i) → exec i s = .next t →
    ∀ j ∈ (formOf i s).selected,
      elem64 t.v[dstOf i] j = (cvt (elem32 s.v[dstOf i] j) (mxcsrDAZ s.mxcsr)).d

/-- 60_exceptions.md R125: with a register source the execution is the same at every privilege level, and leaves the
level as it is. -/
def Obligations.PrivilegeLevelIrrelevant : Prop :=
  ∀ (i : Instr) (s t : State) (c : BitVec 2) (n : Fin 32), operandOf i = .reg n → exec i s = .next t →
    t.cpl = s.cpl ∧ exec i { s with cpl := c } = .next { t with cpl := c }

/-- 40_conversion_numerics.md R78, 10_state.md R14: the rounding control, flush-to-zero and every other bit of `MXCSR`
but `DAZ`, `IM` and `DM` decide nothing of the destination or of `pc`. -/
def Obligations.RoundingAndFlushIrrelevant : Prop :=
  ∀ (i : Instr) (s t : State) (x : BitVec 32), exec i s = .next t →
    (∀ b, b = 6 ∨ b = 7 ∨ b = 8 → x.getLsbD b = s.mxcsr.getLsbD b) →
    ∃ t', exec i (s.setMxcsr x) = .next t' ∧ t'.v = t.v ∧ t'.pc = t.pc ∧
      ∀ b, 2 ≤ b → t'.mxcsr.getLsbD b = x.getLsbD b

/-- 42_vcvtps2pd_evex.md R98: an EVEX form reads only bits `KL-1:0` of `K[aaa]`, and none where `aaa = 000`: other
opmask contents with the same bits there give the same execution. -/
def Obligations.OnlyWritemaskBitsMatter : Prop :=
  ∀ (op : EvexOp) (s t : State) (kl : Nat) (i : Instr) (k' : Vector Word 8),
    (kl = 2 ∧ i = .vcvtps2pdEvex128 op) ∨ (kl = 4 ∧ i = .vcvtps2pdEvex256 op) ∨ (kl = 8 ∧ i = .vcvtps2pdEvex512 op) →
    (op.aaa ≠ 0#3 → ∀ j, j < kl →
      (k'[op.aaa.toNat]'op.aaa.isLt).getLsbD j = (s.k[op.aaa.toNat]'op.aaa.isLt).getLsbD j) →
    exec i s = .next t → exec i { s with k := k' } = .next { t with k := k' }

/-! ### Exceptions -/

/-- 30_encoding.md R67: a stored `vvvv` other than 1111b (two-byte VEX byte 1 bits 6:3, three-byte VEX byte 2 bits 6:3,
EVEX `P1` bits 6:3) is #UD, with no state change, whatever else holds. The form `{sae}` with `L'L` other than 10 is left
out where the parameter `sae_ignores_LL` refuses it (R56). -/
def Obligations.VvvvMustBeOnes : Prop :=
  ∀ (s : State) (m : Mode) (pre tail rest : List Byte) (b0 b1 b2 : Byte) (i : Instr), s.opMode = .run m →
    SaeAccepted s i → (∀ b ∈ pre, isPrefixByte b = true) →
    (decode m (pre ++ 0xC5#8 :: b1 :: tail) = .instr i rest ∧ b1.extractLsb' 3 4 ≠ 15#4) ∨
      (decode m (pre ++ 0xC4#8 :: b0 :: b1 :: tail) = .instr i rest ∧ b1.extractLsb' 3 4 ≠ 15#4) ∨
      (decode m (pre ++ 0x62#8 :: b0 :: b1 :: b2 :: tail) = .instr i rest ∧ b1.extractLsb' 3 4 ≠ 15#4) →
    exec i s = .fault (.invalidOpcode s)

/-- 30_encoding.md R69: an `F0` byte among the prefixes of an instruction of any format that decodes is #UD, with no
state change. That the strings which R46, R47, R48, R54, R57 or R66 refuses do not decode where `F0` stands before them
is the model's choice (log entries 16 and 34). The form `{sae}` with `L'L` other than 10 is left out where the parameter
`sae_ignores_LL` refuses it (R56). -/
def Obligations.LockIsUd : Prop :=
  ∀ (s : State) (m : Mode) (bytes rest : List Byte) (i : Instr), s.opMode = .run m → SaeAccepted s i →
    decode m bytes = .instr i rest → 0xF0#8 ∈ bytes.takeWhile isPrefixByte → exec i s = .fault (.invalidOpcode s)

/-- 60_exceptions.md R109 items 2 and 4: the LEGACY form is #UD without SSE2, with `CR0.EM = 1`, and with
`CR4.OSFXSR = 0`. -/
def Obligations.LegacyUdConditions : Prop :=
  ∀ (op : LegacyOp) (s : State) (m : Mode), s.opMode = .run m →
    (s.cfg.hasSSE2 = false ∨ s.cr0.getLsbD 2 = true ∨ s.cr4.getLsbD 9 = false) →
    exec (.cvtps2pd op) s = .fault (.invalidOpcode s)

/-- 60_exceptions.md R109 items 2 and 5: a VEX form is #UD without AVX, with `CR4.OSXSAVE = 0`, with `XCR0[2:1]` not
11b, and after a `66`, `F2`, `F3` or REX byte. -/
def Obligations.VexUdConditions : Prop :=
  ∀ (op : VexOp) (s : State) (m : Mode), s.opMode = .run m →
    (s.cfg.hasAVX = false ∨ s.cr4.getLsbD 18 = false ∨ s.xcr0.getLsbD 1 = false ∨ s.xcr0.getLsbD 2 = false ∨
      op.badPrefix = true) →
    exec (.vcvtps2pdVex128C5 op) s = .fault (.invalidOpcode s) ∧
    exec (.vcvtps2pdVex128C4 op) s = .fault (.invalidOpcode s) ∧
    exec (.vcvtps2pdVex256C5 op) s = .fault (.invalidOpcode s) ∧
    exec (.vcvtps2pdVex256C4 op) s = .fault (.invalidOpcode s)

/-- 60_exceptions.md R109 items 2 and 6, 30_encoding.md R68: an EVEX form is #UD without AVX512F, with `CR4.OSXSAVE = 0`,
with `XCR0[2:1]` not 11b or `XCR0[7:5]` not 111b, after a `66`, `F2`, `F3` or REX byte, with `W = 1`, with `V'` stored as
0, with `z = 1` and `aaa = 000`; EVEX.128 and EVEX.256 also without AVX512VL. -/
def Obligations.EvexUdConditions : Prop :=
  ∀ (op : EvexOp) (s : State) (m : Mode), s.opMode = .run m →
    ((s.cfg.hasAVX512F = false ∨ s.cr4.getLsbD 18 = false ∨ (∃ b, b ∈ [1, 2, 5, 6, 7] ∧ s.xcr0.getLsbD b = false) ∨
        op.badPrefix = true ∨ op.w = true ∨ op.vbar = false ∨ (op.z = true ∧ op.aaa = 0#3)) →
      exec (.vcvtps2pdEvex128 op) s = .fault (.invalidOpcode s) ∧
      exec (.vcvtps2pdEvex256 op) s = .fault (.invalidOpcode s) ∧
      exec (.vcvtps2pdEvex512 op) s = .fault (.invalidOpcode s)) ∧
    (s.cfg.hasAVX512VL = false →
      exec (.vcvtps2pdEvex128 op) s = .fault (.invalidOpcode s) ∧
      exec (.vcvtps2pdEvex256 op) s = .fault (.invalidOpcode s))

/-- 60_exceptions.md R109 items 2 and 6: the same conditions for the `{sae}` form, which needs AVX512F alone. -/
def Obligations.SaeUdConditions : Prop :=
  ∀ (op : SaeOp) (s : State) (m : Mode), s.opMode = .run m → (s.cfg.saeIgnoresLL = true ∨ op.ll = 2#2) →
    (s.cfg.hasAVX512F = false ∨ s.cr4.getLsbD 18 = false ∨ (∃ b, b ∈ [1, 2, 5, 6, 7] ∧ s.xcr0.getLsbD b = false) ∨
      op.badPrefix = true ∨ op.w = true ∨ op.vbar = false ∨ (op.z = true ∧ op.aaa = 0#3)) →
    exec (.vcvtps2pdEvex512Sae op) s = .fault (.invalidOpcode s)

/-- 60_exceptions.md R110: with `CR0.TS = 1` every form reports #UD where it has a cause of R109 items 1 to 6, else #NM,
vector 7 without error code, whatever memory holds and whatever `Translate` answers. The form `{sae}` with `L'L` other
than 10 is left out where the parameter `sae_ignores_LL` refuses it (30_encoding.md R56). -/
def Obligations.TaskSwitchedIsNmAfterUd : Prop :=
  ∀ (i : Instr) (s : State) (m : Mode), s.opMode = .run m → SaeAccepted s i → s.cr0.getLsbD 3 = true →
    (exec i s = if (formOf i s).ud then .fault (.invalidOpcode s) else .fault (.deviceNotAvailable s)) ∧
    (Fault.deviceNotAvailable s).vector = 7 ∧ (Fault.deviceNotAvailable s).errorCode = none

/-- 60_exceptions.md R113, R118 step 4, 20_memory.md R39, 92_eei_decisions.md D22: with no #UD and no #NM, and no accessed
byte that gives #SS or #GP, the first accessed byte (in address order) for which `Translate` answers a page fault reports
#PF with the error code of R113 and its linear address, the state unchanged. The width of the code is log entry 33, the
order of the bytes log entry 11. -/
def Obligations.PageFaultReportsLowestByte : Prop :=
  ∀ (i : Instr) (s : State) (m : Mode) (bcst : Bool) (a : Mem) (before after : List Nat) (t : Nat) (seg : SegReg)
      (off : Word) (p r d : Bool),
    s.opMode = .run m → (formOf i s).ud = false → s.cr0TS = false → operandOf i = .mem bcst a →
    seg = memSeg m (prefixesOf i) a → off = (formOf i s).offset s m bcst a →
    (formOf i s).accessed bcst = before ++ t :: after →
    (∀ u ∈ before ++ t :: after, SegmentPasses s m seg off u) →
    (∀ u ∈ before, ∀ p' r' d',
      translateAnswer s.cfg.translate (byteAddr s m seg off u) seg s.cpl .dataRead ≠ .pf p' r' d') →
    translateAnswer s.cfg.translate (byteAddr s m seg off t) seg s.cpl .dataRead = .pf p r d →
    ∃ code : BitVec 32, exec i s = .fault (.pageFault code (byteAddr s m seg off t) s) ∧
      code.getLsbD 0 = p ∧ code.getLsbD 1 = false ∧ code.getLsbD 2 = (s.cpl == 3#2) ∧ code.getLsbD 3 = r ∧
      ∀ b, 4 ≤ b → code.getLsbD b = false

/-- 60_exceptions.md R111, R112, R118 step 4, 20_memory.md R37: with no #UD and no #NM, an accessed byte that is not
canonical in `Mode64`, or in `Mode32` is outside the limit or in a null or unreadable segment, reports #SS(0) if the
segment is `SS`, else #GP(0), with no state change, where no byte before it gives #SS or #GP; a page fault of any byte,
before it or after it, does not come first (92_eei_decisions.md D22). -/
def Obligations.SegmentViolationIsSsOrGp : Prop :=
  ∀ (i : Instr) (s : State) (m : Mode) (bcst : Bool) (a : Mem) (before after : List Nat) (t : Nat) (seg : SegReg)
      (off : Word),
    s.opMode = .run m → (formOf i s).ud = false → s.cr0TS = false → operandOf i = .mem bcst a →
    seg = memSeg m (prefixesOf i) a → off = (formOf i s).offset s m bcst a →
    (formOf i s).accessed bcst = before ++ t :: after →
    (∀ u ∈ before, SegmentPasses s m seg off u) →
    ((m = .mode64 ∧ canonical s.cfg.laWidth (byteAddr s m seg off t) = false) ∨
      (m = .mode32 ∧ ((s.segs.get seg).limit.toNat < (byteOffset m off t).toNat ∨
        (s.segs.get seg).isNull = true ∨ (s.segs.get seg).readable = false))) →
    exec i s = if seg = .ss then .fault (.stackSegment s) else .fault (.generalProtection s)

/-- 40_conversion_numerics.md R83, R84, 60_exceptions.md R115, R116: with a readable source, an unmasked Invalid or
Denormal condition of a selected element of any form but `{sae}` reports #XM, or #UD when `CR4.OSXMMEXCPT = 0`; only
`MXCSR.IE` and `MXCSR.DE` change, OR-ed with every detected condition. -/
def Obligations.UnmaskedConditionFaults : Prop :=
  ∀ (i : Instr) (s : State) (m : Mode), s.opMode = .run m → (formOf i s).ud = false → s.cr0TS = false →
    (formOf i s).accessCheck s m = none → (formOf i s).sae = false →
    ((∃ j ∈ (formOf i s).selected,
        singleClass ((formOf i s).sourceElem s m j) = .snan ∧ mxcsrIM s.mxcsr = false) ∨
      (∃ j ∈ (formOf i s).selected,
        singleClass ((formOf i s).sourceElem s m j) = .denormal ∧ mxcsrDAZ s.mxcsr = false ∧
          mxcsrDM s.mxcsr = false)) →
    ∃ x : BitVec 32,
      exec i s = (if s.cr4.getLsbD 10 then .fault (.simdFloatingPoint (s.setMxcsr x))
        else .fault (.invalidOpcode (s.setMxcsr x))) ∧
      FlagsOred s (s.setMxcsr x) (formOf i s).kl (fun j => j ∈ (formOf i s).selected)
        (fun j => (formOf i s).sourceElem s m j)

/-- 60_exceptions.md R120, R114, R117: a fault leaves every register, memory and `pc` as they were; only `MXCSR.IE` and
`MXCSR.DE` may have been set, and only with #XM or #UD. An address is recorded with #PF and with no other fault. #AC is
reported only with `CR0.AM = 1`, `RFLAGS.AC = 1` and `CPL = 3`, for a memory operand that is not aligned. -/
def Obligations.FaultsLeaveStateUnchanged : Prop :=
  ∀ (i : Instr) (s : State) (f : Fault), exec i s = .fault f →
    f.after = { s with mxcsr := f.after.mxcsr } ∧
    (∀ b, 2 ≤ b → f.after.mxcsr.getLsbD b = s.mxcsr.getLsbD b) ∧
    (∀ b, s.mxcsr.getLsbD b = true → f.after.mxcsr.getLsbD b = true) ∧
    (f.vector ≠ 19 → f.vector ≠ 6 → f.after.mxcsr = s.mxcsr) ∧
    (f.faultAddr.isSome = true ↔ f.vector = 14) ∧
    (f.vector = 17 → s.cr0.getLsbD 18 = true ∧ s.rflags.getLsbD 18 = true ∧ s.cpl = 3#2 ∧
      ∃ m bcst a, s.opMode = .run m ∧ operandOf i = .mem bcst a ∧ (formOf i s).misaligned s m bcst a = true)

/-! ### Memory operands -/

/-- 20_memory.md R35, R38, R34: the offset is `B + I * s + disp`, or `pc + len + disp`, modulo `2^asz`, as integers. -/
def Obligations.OffsetIsSumModuloAddressSize : Prop :=
  ∀ (s : State) (m : Mode) (pre : Prefixes) (len scale : Nat) (a : Mem),
    ((memOffset s m pre len scale a).toNat : Int) =
      offsetSum s (addrSize m pre) len scale a % (2 ^ addrSize m pre : Nat)

/-- 20_memory.md R36: the segment of a memory operand and its base. Base register 4 or 5 defaults to `SS`, any other
operand to `DS`; an override replaces the default, but not one of `ES`, `CS`, `SS`, `DS` in `Mode64`; in `Mode64` only
`FS` and `GS` have a base, in `Mode32` the sum is cut to 32 bits. -/
def Obligations.SegmentOfMemoryOperand : Prop :=
  (∀ (m : Mode) (pre : Prefixes) (b : Fin 16) (d : Disp) (i : Option (Fin 16)) (ss : BitVec 2), pre.seg = none →
    memSeg m pre (.base b d) = (if b.val = 4 ∨ b.val = 5 then .ss else .ds) ∧
    memSeg m pre (.sib b i ss d) = (if b.val = 4 ∨ b.val = 5 then .ss else .ds)) ∧
  (∀ (m : Mode) (pre : Prefixes) (d : BitVec 32) (i : Option (Fin 16)) (ss : BitVec 2), pre.seg = none →
    memSeg m pre (.ripRel d) = .ds ∧ memSeg m pre (.absolute d) = .ds ∧ memSeg m pre (.sibNoBase i ss d) = .ds) ∧
  (∀ (pre : Prefixes) (a : Mem) (sg : SegReg), pre.seg = some sg →
    memSeg .mode32 pre a = sg ∧
    memSeg .mode64 pre a =
      (if sg = .fs ∨ sg = .gs then sg else memSeg .mode64 { pre with seg := none } a)) ∧
  (∀ (s : State) (sg : SegReg) (off : Word),
    linearAddr s .mode64 sg off = (if sg = .fs ∨ sg = .gs then (s.segs.get sg).base + off else off) ∧
    (linearAddr s .mode32 sg off).toNat = ((s.segs.get sg).base.toNat + off.toNat) % 2 ^ 32)

/-- 30_encoding.md R64: in an EVEX form a `disp8` is sign-extended and multiplied by the bytes the form reads, 8, 16 or
32, or 4 with a broadcast, in every addressing form; a `disp32` is not scaled. In LEGACY and VEX forms the factor is 1
(R63). What a factor does in the sum is `OffsetIsSumModuloAddressSize`. -/
def Obligations.CompressedDisplacement : Prop :=
  (∀ (s : State) (m : Mode) (e : EvexOp) (bcst : Bool) (a : Mem),
    (evexForm 2 true e s).offset s m bcst a = memOffset s m e.pre e.len (if bcst then 4 else 8) a ∧
    (evexForm 4 true e s).offset s m bcst a = memOffset s m e.pre e.len (if bcst then 4 else 16) a ∧
    (evexForm 8 false e s).offset s m bcst a = memOffset s m e.pre e.len (if bcst then 4 else 32) a) ∧
  (∀ (s : State) (m : Mode) (l : LegacyOp) (v : VexOp) (n kl : Nat) (a : Mem),
    (legacyForm l s).offset s m false a = memOffset s m l.pre l.len 1 a ∧
    (vexForm n kl v s).offset s m false a = memOffset s m v.pre (v.len n) 1 a) ∧
  (∀ (n : Nat) (d : BitVec 8) (w : BitVec 32),
    dispValue n (.d8 d) = BitVec.ofInt 64 (d.toInt * n) ∧ dispValue n (.d32 w) = BitVec.ofInt 64 w.toInt)

/-- 20_memory.md R30 to R32: element `j` of a memory operand is the four bytes at distances `4j` to `4j + 3`, the lowest
address least significant, each address wrapping at the linear-address width. -/
def Obligations.MemoryElementsAreLittleEndian : Prop :=
  ∀ (s : State) (m : Mode) (seg : SegReg) (off : Word) (j : Nat),
    (memElem s m seg off j).toNat =
      (byteAt s m seg off (4 * j)).toNat + 2 ^ 8 * (byteAt s m seg off (4 * j + 1)).toNat
        + 2 ^ 16 * (byteAt s m seg off (4 * j + 2)).toNat + 2 ^ 24 * (byteAt s m seg off (4 * j + 3)).toNat ∧
    ∀ t, byteAt s m seg off t = readCell s.mem
      (((linearAddr s m seg off).toNat + t) % 2 ^ (match m with | .mode64 => 64 | .mode32 => 32))

/-! ### Runs -/

/-- 70_reset_and_hazards.md R138: a run over a program that finishes has `pc` at the end address, was reached by steps
of the machine, and no earlier state of it had `pc` there. -/
def Obligations.RunFinishesAtEndAddress : Prop :=
  ∀ (stop : Word) (n : Nat) (s t : State), runTo stop n s = .finished t →
    t.pc = stop ∧ ∃ k, k ≤ n ∧ Host.Core.run Sys2Proof.core k s = .next t ∧
      ∀ (j : Nat) (u : State), j < k → Host.Core.run Sys2Proof.core j s = .next u → u.pc ≠ stop

/-- 70_reset_and_hazards.md R138: an instruction that a run executes stands before the end address in all its bytes, 3 to
13 of them (30_encoding.md R65), and `pc` advances over just these. -/
def Obligations.RunStaysInsideProgram : Prop :=
  ∀ (stop : Word) (s t : State) (m : Mode), s.opMode = .run m → stepBefore stop s = .next t →
    ∃ n, 3 ≤ n ∧ n ≤ 13 ∧ n ≤ bytesBefore m s.pc stop ∧ t.pc = nextPc m s.pc n

/-! ### Fetch faults -/

/-- 60_exceptions.md R118 step 1, R113: an instruction whose bytes cannot all be had ends the step, if with a fault, in
#GP(0), or in #PF at the address of the first byte that is not had, for which `Translate` answers the page fault; the
code has its bit 4 from that answer; the state is unchanged. That `Translate`'s #SS and #AC for a fetch are no such
faults is log entry 35; the width of the code is log entry 33. -/
def Obligations.FetchFaultsArePageFaultOrGp : Prop :=
  ∀ (s : State) (m : Mode) (f : Fault), s.opMode = .run m → premiseRefusal s = none →
    decode m (fetchBytes s m).1 = .truncated → step s = .fault f →
    f = .generalProtection s ∨
    ∃ (code : BitVec 32) (la : Word) (p r d : Bool), f = .pageFault code la s ∧
      la = byteAddr s m .cs s.pc (fetchBytes s m).1.length ∧
      translateAnswer s.cfg.translate la .cs s.cpl .fetch = .pf p r d ∧
      code.getLsbD 0 = p ∧ code.getLsbD 1 = false ∧ code.getLsbD 2 = (s.cpl == 3#2) ∧ code.getLsbD 3 = r ∧
      code.getLsbD 4 = d ∧ ∀ b, 5 ≤ b → code.getLsbD b = false
end

