-- ==== Sys2Proof/Laws/Flags.lean ====
section
/-! SUPPORT. The conversion primitive by class, and the `MXCSR` flags bit by bit. -/

namespace Sys2Proof.Machine

/-! ### Fields of a packed double -/

theorem getLsbD_packDouble (s : BitVec 1) (e : BitVec 11) (f : BitVec 52) (i : Nat) :
    (packDouble s e f).getLsbD i =
      if i < 52 then f.getLsbD i else if i < 63 then e.getLsbD (i - 52) else s.getLsbD (i - 63) := by
  have h1 : (packDouble s e f).getLsbD i = if i < 52 then f.getLsbD i else (s ++ e).getLsbD (i - 52) :=
    BitVec.getLsbD_append
  have h2 : (s ++ e).getLsbD (i - 52) =
      if i - 52 < 11 then e.getLsbD (i - 52) else s.getLsbD (i - 52 - 11) := BitVec.getLsbD_append
  rw [h1, h2]
  by_cases h : i < 52
  · simp [h]
  · by_cases h' : i < 63
    · simp [h, h', show i - 52 < 11 by omega]
    · simp [h, h', show ¬ i - 52 < 11 by omega, show i - 52 - 11 = i - 63 by omega]

@[simp] theorem doubleSign_packDouble (s : BitVec 1) (e : BitVec 11) (f : BitVec 52) :
    doubleSign (packDouble s e f) = s := by
  apply BitVec.eq_of_getLsbD_eq
  intro i hi
  rw [doubleSign, BitVec.getLsbD_extractLsb', getLsbD_packDouble, if_neg (by omega), if_neg (by omega)]
  simp [hi]

@[simp] theorem doubleExp_packDouble (s : BitVec 1) (e : BitVec 11) (f : BitVec 52) :
    doubleExp (packDouble s e f) = e := by
  apply BitVec.eq_of_getLsbD_eq
  intro i hi
  rw [doubleExp, BitVec.getLsbD_extractLsb', getLsbD_packDouble, if_neg (by omega), if_pos (by omega)]
  simp [hi]

@[simp] theorem doubleFrac_packDouble (s : BitVec 1) (e : BitVec 11) (f : BitVec 52) :
    doubleFrac (packDouble s e f) = f := by
  apply BitVec.eq_of_getLsbD_eq
  intro i hi
  rw [doubleFrac, BitVec.getLsbD_extractLsb', getLsbD_packDouble, if_pos (by omega)]
  simp [hi]

/-! ### `Cvt` by class (40_conversion_numerics.md R77) -/

theorem cvt_zero {s : Single} (daz : Bool) (h : singleClass s = .zero) :
    cvt s daz = ⟨packDouble (singleSign s) 0#11 0#52, false, false⟩ := by simp [cvt, h]

theorem cvt_denormal {s : Single} (h : singleClass s = .denormal) :
    cvt s false = ⟨normaliseDenormal (singleSign s) (singleFrac s), false, true⟩ := by simp [cvt, h]

theorem cvt_denormal_daz {s : Single} (h : singleClass s = .denormal) :
    cvt s true = ⟨packDouble (singleSign s) 0#11 0#52, false, false⟩ := by simp [cvt, h]

theorem cvt_normal {s : Single} (daz : Bool) (h : singleClass s = .normal) :
    cvt s daz =
      ⟨packDouble (singleSign s) ((singleExp s).setWidth 11 + 896#11) (widenFrac (singleFrac s)), false, false⟩ := by
  simp [cvt, h]

theorem cvt_infinity {s : Single} (daz : Bool) (h : singleClass s = .infinity) :
    cvt s daz = ⟨packDouble (singleSign s) 2047#11 0#52, false, false⟩ := by simp [cvt, h]

theorem cvt_qnan {s : Single} (daz : Bool) (h : singleClass s = .qnan) :
    cvt s daz = ⟨packDouble (singleSign s) 2047#11 (widenFrac (singleFrac s)), false, false⟩ := by simp [cvt, h]

theorem cvt_snan {s : Single} (daz : Bool) (h : singleClass s = .snan) :
    cvt s daz =
      ⟨packDouble (singleSign s) 2047#11 (widenFrac (singleFrac s ||| 0x400000#23)), true, false⟩ := by
  simp [cvt, h]

/-! ### `setFlags` bit by bit -/

theorem getLsbD_setFlags_ie (m : BitVec 32) (i d : Bool) :
    (setFlags m i d).getLsbD 0 = (m.getLsbD 0 || i) := by
  cases i <;> cases d <;> simp [setFlags]

theorem getLsbD_setFlags_de (m : BitVec 32) (i d : Bool) :
    (setFlags m i d).getLsbD 1 = (m.getLsbD 1 || d) := by
  cases i <;> cases d <;> simp [setFlags]

theorem getLsbD_setFlags_other (m : BitVec 32) (i d : Bool) {b : Nat} (h : 2 ≤ b) :
    (setFlags m i d).getLsbD b = m.getLsbD b := by
  have h4 : 4 ≤ 2 ^ b := Nat.pow_le_pow_right (n := 2) (by decide) h
  have h1 : (1#32).getLsbD b = false := by
    rw [BitVec.getLsbD_ofNat, Nat.testBit_lt_two_pow (by omega), Bool.and_false]
  have h2 : (2#32).getLsbD b = false := by
    rw [BitVec.getLsbD_ofNat, Nat.testBit_lt_two_pow (by omega), Bool.and_false]
  cases i <;> cases d <;> simp [setFlags, h1, h2]

@[simp] theorem mxcsrDAZ_setFlags (m : BitVec 32) (i d : Bool) : mxcsrDAZ (setFlags m i d) = mxcsrDAZ m :=
  getLsbD_setFlags_other m i d (by decide)

/-- The flags never change a reserved bit. -/
theorem mxcsrReservedBits_setFlags (m : BitVec 32) (i d : Bool) :
    mxcsrReservedBits (setFlags m i d) = mxcsrReservedBits m := by
  apply BitVec.eq_of_getLsbD_eq
  intro b hb
  simp only [mxcsrReservedBits, BitVec.getLsbD_extractLsb', hb, decide_true, Bool.true_and]
  exact getLsbD_setFlags_other m i d (by omega)

end Sys2Proof.Machine
end

