-- ==== Sys2Proof/Laws/State.lean ====
section
/-! SUPPORT. One lemma per field per update of the state, so that no proof unfolds a record update. -/

namespace Sys2Proof.Machine

variable (s : State)

/-! ### State.setVec -/

@[simp] theorem State.setVec_cfg (n : Fin 32) (u : VecReg) : (s.setVec n u).cfg = s.cfg := rfl
@[simp] theorem State.setVec_opMode (n : Fin 32) (u : VecReg) : (s.setVec n u).opMode = s.opMode := rfl
@[simp] theorem State.setVec_v (n : Fin 32) (u : VecReg) : (s.setVec n u).v = s.v.set n (u &&& lowMask s.cfg.maxVl) := rfl
@[simp] theorem State.setVec_k (n : Fin 32) (u : VecReg) : (s.setVec n u).k = s.k := rfl
@[simp] theorem State.setVec_mxcsr (n : Fin 32) (u : VecReg) : (s.setVec n u).mxcsr = s.mxcsr := rfl
@[simp] theorem State.setVec_x (n : Fin 32) (u : VecReg) : (s.setVec n u).x = s.x := rfl
@[simp] theorem State.setVec_pc (n : Fin 32) (u : VecReg) : (s.setVec n u).pc = s.pc := rfl
@[simp] theorem State.setVec_rflags (n : Fin 32) (u : VecReg) : (s.setVec n u).rflags = s.rflags := rfl
@[simp] theorem State.setVec_segs (n : Fin 32) (u : VecReg) : (s.setVec n u).segs = s.segs := rfl
@[simp] theorem State.setVec_cpl (n : Fin 32) (u : VecReg) : (s.setVec n u).cpl = s.cpl := rfl
@[simp] theorem State.setVec_cr0 (n : Fin 32) (u : VecReg) : (s.setVec n u).cr0 = s.cr0 := rfl
@[simp] theorem State.setVec_cr2 (n : Fin 32) (u : VecReg) : (s.setVec n u).cr2 = s.cr2 := rfl
@[simp] theorem State.setVec_cr4 (n : Fin 32) (u : VecReg) : (s.setVec n u).cr4 = s.cr4 := rfl
@[simp] theorem State.setVec_xcr0 (n : Fin 32) (u : VecReg) : (s.setVec n u).xcr0 = s.xcr0 := rfl
@[simp] theorem State.setVec_x87 (n : Fin 32) (u : VecReg) : (s.setVec n u).x87 = s.x87 := rfl
@[simp] theorem State.setVec_dbg (n : Fin 32) (u : VecReg) : (s.setVec n u).dbg = s.dbg := rfl
@[simp] theorem State.setVec_perfCounting (n : Fin 32) (u : VecReg) : (s.setVec n u).perfCounting = s.perfCounting := rfl
@[simp] theorem State.setVec_msr (n : Fin 32) (u : VecReg) : (s.setVec n u).msr = s.msr := rfl
@[simp] theorem State.setVec_mem (n : Fin 32) (u : VecReg) : (s.setVec n u).mem = s.mem := rfl

/-! ### State.setMxcsr -/

@[simp] theorem State.setMxcsr_cfg (m : BitVec 32) : (s.setMxcsr m).cfg = s.cfg := rfl
@[simp] theorem State.setMxcsr_opMode (m : BitVec 32) : (s.setMxcsr m).opMode = s.opMode := rfl
@[simp] theorem State.setMxcsr_v (m : BitVec 32) : (s.setMxcsr m).v = s.v := rfl
@[simp] theorem State.setMxcsr_k (m : BitVec 32) : (s.setMxcsr m).k = s.k := rfl
@[simp] theorem State.setMxcsr_mxcsr (m : BitVec 32) : (s.setMxcsr m).mxcsr = m := rfl
@[simp] theorem State.setMxcsr_x (m : BitVec 32) : (s.setMxcsr m).x = s.x := rfl
@[simp] theorem State.setMxcsr_pc (m : BitVec 32) : (s.setMxcsr m).pc = s.pc := rfl
@[simp] theorem State.setMxcsr_rflags (m : BitVec 32) : (s.setMxcsr m).rflags = s.rflags := rfl
@[simp] theorem State.setMxcsr_segs (m : BitVec 32) : (s.setMxcsr m).segs = s.segs := rfl
@[simp] theorem State.setMxcsr_cpl (m : BitVec 32) : (s.setMxcsr m).cpl = s.cpl := rfl
@[simp] theorem State.setMxcsr_cr0 (m : BitVec 32) : (s.setMxcsr m).cr0 = s.cr0 := rfl
@[simp] theorem State.setMxcsr_cr2 (m : BitVec 32) : (s.setMxcsr m).cr2 = s.cr2 := rfl
@[simp] theorem State.setMxcsr_cr4 (m : BitVec 32) : (s.setMxcsr m).cr4 = s.cr4 := rfl
@[simp] theorem State.setMxcsr_xcr0 (m : BitVec 32) : (s.setMxcsr m).xcr0 = s.xcr0 := rfl
@[simp] theorem State.setMxcsr_x87 (m : BitVec 32) : (s.setMxcsr m).x87 = s.x87 := rfl
@[simp] theorem State.setMxcsr_dbg (m : BitVec 32) : (s.setMxcsr m).dbg = s.dbg := rfl
@[simp] theorem State.setMxcsr_perfCounting (m : BitVec 32) : (s.setMxcsr m).perfCounting = s.perfCounting := rfl
@[simp] theorem State.setMxcsr_msr (m : BitVec 32) : (s.setMxcsr m).msr = s.msr := rfl
@[simp] theorem State.setMxcsr_mem (m : BitVec 32) : (s.setMxcsr m).mem = s.mem := rfl

/-! ### State.setPc -/

@[simp] theorem State.setPc_cfg (p : Word) : (s.setPc p).cfg = s.cfg := rfl
@[simp] theorem State.setPc_opMode (p : Word) : (s.setPc p).opMode = s.opMode := rfl
@[simp] theorem State.setPc_v (p : Word) : (s.setPc p).v = s.v := rfl
@[simp] theorem State.setPc_k (p : Word) : (s.setPc p).k = s.k := rfl
@[simp] theorem State.setPc_mxcsr (p : Word) : (s.setPc p).mxcsr = s.mxcsr := rfl
@[simp] theorem State.setPc_x (p : Word) : (s.setPc p).x = s.x := rfl
@[simp] theorem State.setPc_pc (p : Word) : (s.setPc p).pc = p := rfl
@[simp] theorem State.setPc_rflags (p : Word) : (s.setPc p).rflags = s.rflags := rfl
@[simp] theorem State.setPc_segs (p : Word) : (s.setPc p).segs = s.segs := rfl
@[simp] theorem State.setPc_cpl (p : Word) : (s.setPc p).cpl = s.cpl := rfl
@[simp] theorem State.setPc_cr0 (p : Word) : (s.setPc p).cr0 = s.cr0 := rfl
@[simp] theorem State.setPc_cr2 (p : Word) : (s.setPc p).cr2 = s.cr2 := rfl
@[simp] theorem State.setPc_cr4 (p : Word) : (s.setPc p).cr4 = s.cr4 := rfl
@[simp] theorem State.setPc_xcr0 (p : Word) : (s.setPc p).xcr0 = s.xcr0 := rfl
@[simp] theorem State.setPc_x87 (p : Word) : (s.setPc p).x87 = s.x87 := rfl
@[simp] theorem State.setPc_dbg (p : Word) : (s.setPc p).dbg = s.dbg := rfl
@[simp] theorem State.setPc_perfCounting (p : Word) : (s.setPc p).perfCounting = s.perfCounting := rfl
@[simp] theorem State.setPc_msr (p : Word) : (s.setPc p).msr = s.msr := rfl
@[simp] theorem State.setPc_mem (p : Word) : (s.setPc p).mem = s.mem := rfl

/-! ### State.setMem -/

@[simp] theorem State.setMem_cfg (l : List Host.Cell) : (s.setMem l).cfg = s.cfg := rfl
@[simp] theorem State.setMem_opMode (l : List Host.Cell) : (s.setMem l).opMode = s.opMode := rfl
@[simp] theorem State.setMem_v (l : List Host.Cell) : (s.setMem l).v = s.v := rfl
@[simp] theorem State.setMem_k (l : List Host.Cell) : (s.setMem l).k = s.k := rfl
@[simp] theorem State.setMem_mxcsr (l : List Host.Cell) : (s.setMem l).mxcsr = s.mxcsr := rfl
@[simp] theorem State.setMem_x (l : List Host.Cell) : (s.setMem l).x = s.x := rfl
@[simp] theorem State.setMem_pc (l : List Host.Cell) : (s.setMem l).pc = s.pc := rfl
@[simp] theorem State.setMem_rflags (l : List Host.Cell) : (s.setMem l).rflags = s.rflags := rfl
@[simp] theorem State.setMem_segs (l : List Host.Cell) : (s.setMem l).segs = s.segs := rfl
@[simp] theorem State.setMem_cpl (l : List Host.Cell) : (s.setMem l).cpl = s.cpl := rfl
@[simp] theorem State.setMem_cr0 (l : List Host.Cell) : (s.setMem l).cr0 = s.cr0 := rfl
@[simp] theorem State.setMem_cr2 (l : List Host.Cell) : (s.setMem l).cr2 = s.cr2 := rfl
@[simp] theorem State.setMem_cr4 (l : List Host.Cell) : (s.setMem l).cr4 = s.cr4 := rfl
@[simp] theorem State.setMem_xcr0 (l : List Host.Cell) : (s.setMem l).xcr0 = s.xcr0 := rfl
@[simp] theorem State.setMem_x87 (l : List Host.Cell) : (s.setMem l).x87 = s.x87 := rfl
@[simp] theorem State.setMem_dbg (l : List Host.Cell) : (s.setMem l).dbg = s.dbg := rfl
@[simp] theorem State.setMem_perfCounting (l : List Host.Cell) : (s.setMem l).perfCounting = s.perfCounting := rfl
@[simp] theorem State.setMem_msr (l : List Host.Cell) : (s.setMem l).msr = s.msr := rfl
@[simp] theorem State.setMem_mem (l : List Host.Cell) : (s.setMem l).mem = l := rfl

/-! ### Reading a register after `State.setVec` -/

@[simp] theorem State.setVec_get_same (n : Fin 32) (u : VecReg) :
    (s.setVec n u).v[n] = u &&& lowMask s.cfg.maxVl := by
  simp

theorem State.setVec_get_other (n k : Fin 32) (u : VecReg) (h : k ≠ n) :
    (s.setVec n u).v[k] = s.v[k] := by
  have : n.val ≠ k.val := fun e => h (Fin.ext e.symm)
  simp [this]

@[simp] theorem State.setMem_readByte (l : List Host.Cell) (la : Word) :
    (s.setMem l).readByte la = readCell l la.toNat := rfl

end Sys2Proof.Machine
end

