-- ==== Sys2Proof/Laws/Vector.lean ====
section
/-! SUPPORT. Elements of a vector register: what writing elements changes and what it leaves. -/

namespace Sys2Proof.Machine

theorem getLsbD_lowMask (n b : Nat) : (lowMask n).getLsbD b = (decide (b < 512) && decide (b < n)) := by
  simp [lowMask, BitVec.getLsbD_ofNat, Nat.testBit_two_pow_sub_one]

theorem getLsbD_and_lowMask (v : VecReg) (n b : Nat) :
    (v &&& lowMask n).getLsbD b = (v.getLsbD b && decide (b < n)) := by
  rw [BitVec.getLsbD_and, getLsbD_lowMask]
  by_cases hb : b < 512
  · simp [hb]
  · simp [BitVec.getLsbD_of_ge _ _ (Nat.not_lt.mp hb)]

theorem getLsbD_elem64 (v : VecReg) (j b : Nat) :
    (elem64 v j).getLsbD b = (decide (b < 64) && v.getLsbD (64 * j + b)) := by
  simp [elem64, BitVec.getLsbD_extractLsb']

/-- Bit by bit, `setElem64` takes bits `64j+63:64j` from the new element and the rest from the old value. -/
theorem getLsbD_setElem64 (v : VecReg) (j : Nat) (d : Double) (b : Nat) (hb : b < 512) :
    (setElem64 v j d).getLsbD b =
      if 64 * j ≤ b ∧ b < 64 * j + 64 then d.getLsbD (b - 64 * j) else v.getLsbD b := by
  simp only [setElem64, BitVec.getLsbD_or, BitVec.getLsbD_and, BitVec.getLsbD_not, BitVec.getLsbD_shiftLeft,
    getLsbD_lowMask, BitVec.getLsbD_setWidth, hb, decide_true, Bool.true_and]
  by_cases h1 : b < 64 * j
  · simp [h1, Nat.not_le.mpr h1]
  · have h1' : 64 * j ≤ b := Nat.not_lt.mp h1
    by_cases h2 : b < 64 * j + 64
    · have h3 : b - 64 * j < 64 := by omega
      have h4 : b - 64 * j < 512 := by omega
      simp [h1, h1', h2, h3, h4]
    · have h3 : ¬ b - 64 * j < 64 := by omega
      have h4 : d.getLsbD (b - 64 * j) = false := BitVec.getLsbD_of_ge _ _ (by omega)
      simp [h1, h2, h3, h4]

theorem elem64_setElem64_same (v : VecReg) (j : Nat) (d : Double) (hj : j < 8) :
    elem64 (setElem64 v j d) j = d := by
  apply BitVec.eq_of_getLsbD_eq
  intro b hb
  rw [getLsbD_elem64, getLsbD_setElem64 _ _ _ _ (by omega), if_pos (by omega)]
  simp [hb]

theorem elem64_setElem64_other (v : VecReg) {i j : Nat} (d : Double) (hij : i ≠ j) (hi : i < 8) :
    elem64 (setElem64 v j d) i = elem64 v i := by
  apply BitVec.eq_of_getLsbD_eq
  intro b hb
  rw [getLsbD_elem64, getLsbD_elem64, getLsbD_setElem64 _ _ _ _ (by omega), if_neg (by omega)]

/-- Bits above the elements written are left alone. -/
theorem getLsbD_writeElems_above (l : List (Option Double)) (j : Nat) (v : VecReg) (b : Nat) (hb : b < 512)
    (h : 64 * (j + l.length) ≤ b) : (writeElems j l v).getLsbD b = v.getLsbD b := by
  induction l generalizing j v with
  | nil => rfl
  | cons o rest ih =>
    have h' : 64 * (j + 1 + rest.length) ≤ b := by simp at h; omega
    cases o with
    | none => exact ih _ _ h'
    | some d =>
      rw [writeElems, ih _ _ h', getLsbD_setElem64 _ _ _ _ hb, if_neg]
      simp at h; omega

/-- Elements below the first written are left alone. -/
theorem elem64_writeElems_below (l : List (Option Double)) (i j : Nat) (v : VecReg) (hi : i < j) (hi8 : i < 8) :
    elem64 (writeElems j l v) i = elem64 v i := by
  induction l generalizing j v with
  | nil => rfl
  | cons o rest ih =>
    cases o with
    | none => exact ih _ _ (by omega)
    | some d => rw [writeElems, ih _ _ (by omega), elem64_setElem64_other _ _ (by omega) hi8]

/-- Element `j + i` after `writeElems j l v`: the `i`-th of `l` where it is given, else the old one. -/
theorem elem64_writeElems (l : List (Option Double)) (i j : Nat) (v : VecReg) (hi : i < l.length)
    (h8 : j + i < 8) :
    elem64 (writeElems j l v) (j + i) =
      match l[i] with
      | some d => d
      | none => elem64 v (j + i) := by
  induction l generalizing i j v with
  | nil => simp at hi
  | cons o rest ih =>
    cases i with
    | zero =>
      cases o with
      | none => exact elem64_writeElems_below rest (j + 0) (j + 1) v (by omega) h8
      | some d =>
        simp only [writeElems, List.getElem_cons_zero, Nat.add_zero]
        rw [elem64_writeElems_below _ _ _ _ (by omega) (by omega), elem64_setElem64_same _ _ _ (by omega)]
    | succ i =>
      have hi' : i < rest.length := by simpa using hi
      have he : j + (i + 1) = j + 1 + i := by omega
      cases o with
      | none =>
        simp only [writeElems, List.getElem_cons_succ, he]
        exact ih i (j + 1) v hi' (by omega)
      | some d =>
        simp only [writeElems, List.getElem_cons_succ, he]
        rw [ih i (j + 1) _ hi' (by omega)]
        cases rest[i] with
        | some e => rfl
        | none => exact elem64_setElem64_other _ _ (by omega) (by omega)

/-- Cutting to `MAX_VL` leaves an element below it alone. -/
theorem elem64_and_lowMask (v : VecReg) (n j : Nat) (h : 64 * j + 64 ≤ n) :
    elem64 (v &&& lowMask n) j = elem64 v j := by
  apply BitVec.eq_of_getLsbD_eq
  intro b hb
  rw [getLsbD_elem64, getLsbD_elem64, getLsbD_and_lowMask]
  simp [hb, show 64 * j + b < n by omega]

/-- What a register holds after `State.setVec` has no bit at or above `MAX_VL`. -/
theorem setVec_high (s : State) (n : Fin 32) (u : VecReg) (b : Nat) (h : s.cfg.maxVl ≤ b) :
    ((s.setVec n u).v[n]).getLsbD b = false := by
  rw [State.setVec_get_same, getLsbD_and_lowMask]
  simp [Nat.not_lt.mpr h]

end Sys2Proof.Machine
end

