-- ==== Sys2Proof/Laws/Convert.lean ====
section
/-! SUPPORT. What the shared operations can do: the check of a memory operand byte by byte, the destination
element by element, and every outcome of `convert`. -/

namespace Sys2Proof.Machine

/-! ### Checking the bytes of an access -/

/-- Nothing stops the access iff each byte, on its own, may be accessed. -/
theorem checkBytes_none_iff (s : State) (m : Mode) (seg : SegReg) (k : AccessKind) (off : Word) (l : List Nat) :
    checkBytes s m seg k off l = none ↔ ∀ t ∈ l, checkBytes s m seg k off [t] = none := by
  simp only [checkBytes, Option.or_eq_none_iff, List.findSome?_eq_none_iff, List.mem_singleton, forall_eq]
  exact ⟨fun h t ht => ⟨⟨h.1.1 t ht, h.1.2 t ht⟩, h.2 t ht⟩,
    fun h => ⟨⟨fun t ht => (h t ht).1.1, fun t ht => (h t ht).1.2⟩, fun t ht => (h t ht).2⟩⟩

theorem checkBytes_append_none (s : State) (m : Mode) (seg : SegReg) (k : AccessKind) (off : Word)
    (l l' : List Nat) :
    checkBytes s m seg k off (l ++ l') = none ↔
      checkBytes s m seg k off l = none ∧ checkBytes s m seg k off l' = none := by
  rw [checkBytes_none_iff, checkBytes_none_iff s m seg k off l, checkBytes_none_iff s m seg k off l']
  simp only [List.mem_append]
  exact ⟨fun h => ⟨fun t ht => h t (.inl ht), fun t ht => h t (.inr ht)⟩,
    fun h t ht => ht.elim (h.1 t) (h.2 t)⟩

/-- The exceptions the bytes of an access raise (60_exceptions.md R111 to R113). -/
def ExceptionCause.ofBytes (c : ExceptionCause) : Prop := c = .ss ∨ c = .gp ∨ ∃ code la, c = .pf code la

theorem segmentFault_stop {s : State} {m : Mode} {seg : SegReg} {k : AccessKind} {off la : Word} {st : Stop}
    (h : segmentFault s m seg k off la = some st) :
    st = .fault (takeException .gp s) ∨
      st = .fault (takeException .ss s) ∧
        (seg = .ss ∧ segmentAllows s m seg k off la = false ∨ k = .dataRead) := by
  unfold segmentFault at h
  split at h
  · split at h <;> cases h
    · cases k
      · exact .inr ⟨rfl, .inr rfl⟩
      · exact .inl rfl
    · exact .inl rfl
  · rename_i ha
    cases h
    unfold segmentException
    split
    · rename_i hs
      exact .inr ⟨rfl, .inl ⟨hs, by simpa using ha⟩⟩
    · exact .inl rfl

theorem pageFault_stop {s : State} {seg : SegReg} {k : AccessKind} {la : Word} {st : Stop}
    (h : pageFault s seg k la = some st) :
    ∃ p r d, translateAnswer s.cfg.translate la seg s.cpl k = .pf p r d ∧
      st = .fault (takeException (.pf (pfCode p r d s.cpl k) la) s) := by
  unfold pageFault at h
  split at h <;> cases h
  rename_i p r d ha
  exact ⟨p, r, d, ha, rfl⟩

theorem deviceAccess_stop {s : State} {seg : SegReg} {k : AccessKind} {la : Word} {st : Stop}
    (h : deviceAccess s seg k la = some st) : st = .refused .deviceMemory := by
  unfold deviceAccess at h
  split at h <;> cases h
  rfl

/-- A byte gives neither #SS nor #GP iff the checks of R37 hold and `Translate` answers neither. -/
theorem segmentFault_none_iff (s : State) (m : Mode) (seg : SegReg) (k : AccessKind) (off la : Word) :
    segmentFault s m seg k off la = none ↔ segmentAllows s m seg k off la = true ∧
      translateAnswer s.cfg.translate la seg s.cpl k ≠ .ss ∧ translateAnswer s.cfg.translate la seg s.cpl k ≠ .gp := by
  unfold segmentFault
  split
  · cases translateAnswer s.cfg.translate la seg s.cpl k <;> simp_all
  · simp_all

/-- A byte gives no #PF iff `Translate` answers none. -/
theorem pageFault_none_iff (s : State) (seg : SegReg) (k : AccessKind) (la : Word) :
    pageFault s seg k la = none ↔
      ∀ p r d, translateAnswer s.cfg.translate la seg s.cpl k ≠ .pf p r d := by
  unfold pageFault
  cases translateAnswer s.cfg.translate la seg s.cpl k <;> simp

/-- The bits of a page-fault error code (60_exceptions.md R113). -/
theorem pfCode_bits (p r d : Bool) (c : BitVec 2) (k : AccessKind) :
    (pfCode p r d c k).getLsbD 0 = p ∧ (pfCode p r d c k).getLsbD 1 = false ∧
      (pfCode p r d c k).getLsbD 2 = (c == 3#2) ∧ (pfCode p r d c k).getLsbD 3 = r ∧
      (pfCode p r d c k).getLsbD 4 = (d && k == .fetch) := by
  revert p r d c; cases k <;> decide

theorem pfCode_above (p r d : Bool) (c : BitVec 2) (k : AccessKind) {b : Nat} (hb : 5 ≤ b) :
    (pfCode p r d c k).getLsbD b = false := by
  unfold pfCode
  rw [BitVec.getLsbD_setWidth, BitVec.getLsbD_of_ge _ _ (by omega), Bool.and_false]

/-- A stop of `checkByte`: a fault that leaves the state as it was, or the refusal of device memory. -/
theorem checkByte_stop {s : State} {m : Mode} {seg : SegReg} {k : AccessKind} {off la : Word} {st : Stop}
    (h : checkByte s m seg k off la = some st) :
    (∃ c, st = .fault (takeException c s) ∧ c.ofBytes) ∨ st = .refused .deviceMemory := by
  rcases Option.or_eq_some_iff.mp h with h | ⟨-, h⟩
  · rcases Option.or_eq_some_iff.mp h with h | ⟨-, h⟩
    · rcases segmentFault_stop h with h | ⟨h, -⟩ <;> exact .inl ⟨_, h, by simp [ExceptionCause.ofBytes]⟩
    · obtain ⟨p, r, d, -, h⟩ := pageFault_stop h
      exact .inl ⟨_, h, by simp [ExceptionCause.ofBytes]⟩
  · exact .inr (deviceAccess_stop h)

/-- The same of `checkBytes`. -/
theorem checkBytes_stop {s : State} {m : Mode} {seg : SegReg} {k : AccessKind} {off : Word} {l : List Nat}
    {st : Stop} (h : checkBytes s m seg k off l = some st) :
    (∃ c, st = .fault (takeException c s) ∧ c.ofBytes) ∨ st = .refused .deviceMemory := by
  rcases Option.or_eq_some_iff.mp h with h | ⟨-, h⟩
  · rcases Option.or_eq_some_iff.mp h with h | ⟨-, h⟩
    · obtain ⟨t, -, h⟩ := List.exists_of_findSome?_eq_some h
      rcases segmentFault_stop h with h | ⟨h, -⟩ <;> exact .inl ⟨_, h, by simp [ExceptionCause.ofBytes]⟩
    · obtain ⟨t, -, h⟩ := List.exists_of_findSome?_eq_some h
      obtain ⟨p, r, d, -, h⟩ := pageFault_stop h
      exact .inl ⟨_, h, by simp [ExceptionCause.ofBytes]⟩
  · obtain ⟨t, -, h⟩ := List.exists_of_findSome?_eq_some h
    exact .inr (deviceAccess_stop h)

/-- What stops the fetch of instruction bytes: #GP, #PF of the first byte that is not had, or the refusal of device
memory (60_exceptions.md R118 step 1). -/
theorem fetchFrom_stop {s : State} {m : Mode} {t n : Nat} {st : Stop} (h : (fetchFrom s m t n).2 = some st) :
    st = .fault (takeException .gp s) ∨
      (∃ la p r d, la = byteAddr s m .cs s.pc (t + (fetchFrom s m t n).1.length) ∧
        translateAnswer s.cfg.translate la .cs s.cpl .fetch = .pf p r d ∧
        st = .fault (takeException (.pf (pfCode p r d s.cpl .fetch) la) s)) ∨
      st = .refused .deviceMemory := by
  induction n generalizing t with
  | zero => cases h
  | succ n ih =>
    simp only [fetchFrom] at h ⊢
    split at h
    · rename_i st' hst
      cases h
      rcases Option.or_eq_some_iff.mp hst with h | ⟨-, h⟩
      · rcases Option.or_eq_some_iff.mp h with h | ⟨-, h⟩
        · rcases segmentFault_stop h with h | ⟨-, ⟨h, -⟩ | h⟩
          · exact .inl h
          · cases h
          · cases h
        · obtain ⟨p, r, d, ha, h⟩ := pageFault_stop h
          exact .inr (.inl ⟨_, p, r, d, rfl, ha, h⟩)
      · exact .inr (.inr (deviceAccess_stop h))
    · rename_i hst
      refine (ih h).imp_right (Or.imp_left ?_)
      rintro ⟨la, p, r, d, hla, h⟩
      refine ⟨la, p, r, d, ?_, h⟩
      simp only [hla, List.length_cons]
      congr 1
      omega

/-- A fetch of at most `n` bytes gives at most `n`. -/
theorem fetchFrom_length (s : State) (m : Mode) (t n : Nat) : (fetchFrom s m t n).1.length ≤ n := by
  induction n generalizing t with
  | zero => exact Nat.le_refl 0
  | succ n ih =>
    simp only [fetchFrom]
    split
    · exact Nat.zero_le _
    · simpa using ih (t + 1)

/-! ### Forms -/

theorem Form.mem_selected (f : Form) (j : Nat) : j ∈ f.selected ↔ j < f.kl ∧ f.mask.getLsbD j = true := by
  simp [Form.selected]

/-- A register source is read without a check (60_exceptions.md R118). -/
theorem Form.accessCheck_reg {f : Form} {n : Fin 32} (h : f.src = .reg n) (s : State) (m : Mode) :
    f.accessCheck s m = none := by simp [Form.accessCheck, h]

/-- With no selected element nothing is accessed (20_memory.md R40). -/
theorem Form.accessCheck_none_selected {f : Form} (h : f.selected = []) (s : State) (m : Mode) :
    f.accessCheck s m = none := by
  have ha : ∀ c, f.accessed c = [] := fun c => by simp [Form.accessed, h]
  unfold Form.accessCheck
  split
  · rfl
  · simp [ha, checkBytes, Form.alignmentStop]

theorem Form.alignmentStop_off {s : State} (h : s.alignmentChecking = false) (f : Form) (m : Mode) (bcst : Bool)
    (a : Mem) : f.alignmentStop s m bcst a = none := by simp [Form.alignmentStop, h]

/-- With alignment checking off, a memory operand is checked byte by byte and no more. -/
theorem Form.accessCheck_mem {f : Form} {s : State} {bcst : Bool} {a : Mem} (h : f.src = .mem bcst a)
    (hac : s.alignmentChecking = false) (m : Mode) :
    f.accessCheck s m =
      checkBytes s m (memSeg m f.pre a) .dataRead (f.offset s m bcst a) (f.accessed bcst) := by
  simp [Form.accessCheck, h, Form.alignmentStop_off hac]

/-- What `alignmentStop` can do, alignment checking being on. -/
theorem Form.alignmentStop_stop {f : Form} {s : State} {m : Mode} {bcst : Bool} {a : Mem} {st : Stop}
    (h : f.alignmentStop s m bcst a = some st) :
    s.alignmentChecking = true ∧
      (st = .fault (takeException .ac s) ∧ f.misaligned s m bcst a = true ∨ st = .refused .alignmentUnsettled) := by
  unfold Form.alignmentStop at h
  split at h
  · cases h
  · rename_i hc
    simp only [Bool.or_eq_true, Bool.not_eq_true', not_or, Bool.not_eq_false] at hc
    split at h
    · rename_i hm
      cases h
      exact ⟨hc.1, .inl ⟨rfl, (Bool.and_eq_true_iff.mp hm).1⟩⟩
    · cases h
      exact ⟨hc.1, .inr rfl⟩

/-- A stop of `accessCheck`: a fault of the bytes, #AC, or a refusal. -/
theorem Form.accessCheck_stop {f : Form} {s : State} {m : Mode} {st : Stop} (h : f.accessCheck s m = some st) :
    (∃ c, st = .fault (takeException c s) ∧ c.ofBytes) ∨
      (st = .fault (takeException .ac s) ∧ s.alignmentChecking = true ∧
        ∃ bcst a, f.src = .mem bcst a ∧ f.misaligned s m bcst a = true) ∨
      st = .refused .deviceMemory ∨ (st = .refused .alignmentUnsettled ∧ s.alignmentChecking = true) := by
  unfold Form.accessCheck at h
  split at h
  · cases h
  · rename_i bcst a hsrc
    rcases Option.or_eq_some_iff.mp h with h | ⟨-, h⟩
    · exact (checkBytes_stop h).imp_right fun h => .inr (.inl h)
    · rcases Form.alignmentStop_stop h with ⟨hc, ⟨h, hm⟩ | h⟩
      · exact .inr (.inl ⟨h, hc, bcst, a, hsrc, hm⟩)
      · exact .inr (.inr (.inr ⟨h, hc⟩))

/-- The condition `I` of R81. -/
theorem Form.anyInvalid_iff (f : Form) (s : State) (m : Mode) :
    f.anyInvalid s m = true ↔ ∃ j, j < f.kl ∧ f.mask.getLsbD j = true ∧ (f.result s m j).ie = true := by
  simp only [Form.anyInvalid, List.any_eq_true, Form.mem_selected]
  exact ⟨fun ⟨j, h, h'⟩ => ⟨j, h.1, h.2, h'⟩, fun ⟨j, h1, h2, h3⟩ => ⟨j, ⟨h1, h2⟩, h3⟩⟩

/-- The condition `D` of R81. -/
theorem Form.anyDenormal_iff (f : Form) (s : State) (m : Mode) :
    f.anyDenormal s m = true ↔ ∃ j, j < f.kl ∧ f.mask.getLsbD j = true ∧ (f.result s m j).de = true := by
  simp only [Form.anyDenormal, List.any_eq_true, Form.mem_selected]
  exact ⟨fun ⟨j, h, h'⟩ => ⟨j, h.1, h.2, h'⟩, fun ⟨j, h1, h2, h3⟩ => ⟨j, ⟨h1, h2⟩, h3⟩⟩

/-- Element `j` of the destination's value (42_vcvtps2pd_evex.md R99). -/
theorem Form.elem64_destValue (f : Form) (s : State) (m : Mode) {j : Nat} (hj : j < f.kl) (hkl : f.kl ≤ 8) :
    elem64 (f.destValue s m) j =
      match f.element s m j with
      | some d => d
      | none => elem64 s.v[f.dst] j := by
  have h := elem64_writeElems ((List.range f.kl).map (f.element s m)) j 0
    (if f.keepUpper then s.v[f.dst] else s.v[f.dst] &&& lowMask (64 * f.kl)) (by simpa using hj) (by omega)
  simp only [Nat.zero_add, List.getElem_map, List.getElem_range] at h
  unfold Form.destValue
  rw [h]
  cases f.element s m j with
  | some d => rfl
  | none =>
    simp only
    split
    · rfl
    · exact elem64_and_lowMask _ _ _ (by omega)

/-- The bits above the elements (R89, R90, R91, R104). -/
theorem Form.getLsbD_destValue_above (f : Form) (s : State) (m : Mode) {b : Nat} (hb : b < 512)
    (h : 64 * f.kl ≤ b) :
    (f.destValue s m).getLsbD b = (f.keepUpper && s.v[f.dst].getLsbD b) := by
  unfold Form.destValue
  rw [getLsbD_writeElems_above _ _ _ _ hb (by simpa using h)]
  cases hk : f.keepUpper
  · simp only [Bool.false_eq_true, if_false, Bool.false_and]
    rw [getLsbD_and_lowMask]
    simp [Nat.not_lt.mpr h]
  · simp

/-! ### The outcomes of `convert` -/

/-- The next state of an execution that completes. -/
def Form.nextState (f : Form) (s : State) (m : Mode) : State :=
  ((s.setVec f.dst (f.destValue s m)).setMxcsr (if f.sae then s.mxcsr else f.flags s m)).setPc
    (nextPc m s.pc f.len)

/-- When an execution completes, and with which state: once for all forms. -/
theorem convert_next {f : Form} {s : State} {m : Mode} (hm : s.opMode = .run m) (hud : f.ud = false)
    (hts : s.cr0TS = false) (hacc : f.accessCheck s m = none)
    (hun : f.sae = true ∨ unmasked s.mxcsr (f.anyInvalid s m) (f.anyDenormal s m) = false)
    (hpc : pcWraps m s.pc f.len = false) :
    convert f s = .next (f.nextState s m) := by
  unfold convert
  rw [hm]
  cases hs : f.sae
  · have hun' : unmasked s.mxcsr (f.anyInvalid s m) (f.anyDenormal s m) = false := by
      rcases hun with h | h
      · rw [hs] at h; cases h
      · exact h
    simp [hud, hts, hacc, hs, hun', commit, hpc, Form.nextState]
  · simp [hud, hts, hacc, hs, commit, hpc, Form.nextState]

/-- Everything `convert` can do: complete, or stop in one of these ways. -/
theorem convert_cases (f : Form) (s : State) :
    (∃ m, s.opMode = .run m ∧ f.ud = false ∧ s.cr0TS = false ∧ f.accessCheck s m = none ∧
      (f.sae = true ∨ unmasked s.mxcsr (f.anyInvalid s m) (f.anyDenormal s m) = false) ∧
      pcWraps m s.pc f.len = false ∧ convert f s = .next (f.nextState s m)) ∨
    (convert f s = .refused .unsupportedMode ∧ ∀ m, s.opMode ≠ .run m) ∨
    (∃ m, s.opMode = .run m ∧ f.ud = true ∧ convert f s = .fault (takeException .ud s)) ∨
    (∃ m, s.opMode = .run m ∧ f.ud = false ∧ s.cr0TS = true ∧ convert f s = .fault (takeException .nm s)) ∨
    (∃ m st, s.opMode = .run m ∧ f.ud = false ∧ s.cr0TS = false ∧ f.accessCheck s m = some st ∧
      convert f s = st.outcome) ∨
    (∃ m, s.opMode = .run m ∧ f.ud = false ∧ s.cr0TS = false ∧ f.accessCheck s m = none ∧ f.sae = false ∧
      unmasked s.mxcsr (f.anyInvalid s m) (f.anyDenormal s m) = true ∧
      convert f s = .fault (takeException (simdException s) (s.setMxcsr (f.flags s m)))) ∨
    (convert f s = .refused .pcWrap ∧ ∃ m, s.opMode = .run m ∧ pcWraps m s.pc f.len = true) := by
  cases hm : s.opMode with
  | realAddress => exact .inr (.inl ⟨by simp [convert, hm], by simp⟩)
  | virtual8086 => exact .inr (.inl ⟨by simp [convert, hm], by simp⟩)
  | systemManagement => exact .inr (.inl ⟨by simp [convert, hm], by simp⟩)
  | code16 => exact .inr (.inl ⟨by simp [convert, hm], by simp⟩)
  | run m =>
    cases hud : f.ud with
    | true => exact .inr (.inr (.inl ⟨m, rfl, rfl, by simp [convert, hm, hud]⟩))
    | false =>
      cases hts : s.cr0TS with
      | true => exact .inr (.inr (.inr (.inl ⟨m, rfl, rfl, rfl, by simp [convert, hm, hud, hts]⟩)))
      | false =>
        cases hacc : f.accessCheck s m with
        | some st =>
          exact .inr (.inr (.inr (.inr (.inl ⟨m, st, rfl, rfl, rfl, hacc, by simp [convert, hm, hud, hts, hacc]⟩))))
        | none =>
          by_cases hx : f.sae = true ∨ unmasked s.mxcsr (f.anyInvalid s m) (f.anyDenormal s m) = false
          · cases hpc : pcWraps m s.pc f.len with
            | false => exact .inl ⟨m, rfl, rfl, rfl, hacc, hx, hpc, convert_next hm hud hts hacc hx hpc⟩
            | true =>
              refine .inr (.inr (.inr (.inr (.inr (.inr ⟨?_, m, rfl, hpc⟩)))))
              cases hs : f.sae with
              | true => simp [convert, hm, hud, hts, hacc, hs, commit, hpc]
              | false =>
                have hun : unmasked s.mxcsr (f.anyInvalid s m) (f.anyDenormal s m) = false := by
                  rcases hx with h | h
                  · rw [hs] at h; cases h
                  · exact h
                simp [convert, hm, hud, hts, hacc, hs, hun, commit, hpc]
          · simp only [not_or, Bool.not_eq_true, Bool.not_eq_false] at hx
            exact .inr (.inr (.inr (.inr (.inr (.inl ⟨m, rfl, rfl, rfl, hacc, hx.1, hx.2, by
              simp [convert, hm, hud, hts, hacc, hx.1, hx.2]⟩)))))

/-- What a next state of `convert` is, and under which conditions it is one. -/
theorem convert_next_inv {f : Form} {s t : State} (h : convert f s = .next t) :
    ∃ m, s.opMode = .run m ∧ f.ud = false ∧ s.cr0TS = false ∧ f.accessCheck s m = none ∧
      (f.sae = true ∨ unmasked s.mxcsr (f.anyInvalid s m) (f.anyDenormal s m) = false) ∧
      pcWraps m s.pc f.len = false ∧ t = f.nextState s m := by
  rcases convert_cases f s with ⟨m, h1, h2, h3, h4, h5, h6, h7⟩ | ⟨h1, -⟩ | ⟨m, -, -, h1⟩ | ⟨m, -, -, -, h1⟩ |
    ⟨m, st, -, -, -, -, h1⟩ | ⟨m, -, -, -, -, -, -, h1⟩ | ⟨h1, -⟩
  · exact ⟨m, h1, h2, h3, h4, h5, h6, by rw [h7] at h; exact (Host.Outcome.next.inj h).symm⟩
  all_goals rw [h1] at h
  · cases h
  · cases h
  · cases h
  · cases st <;> cases h
  · cases h
  · cases h

end Sys2Proof.Machine
end

