-- ==== Sys2Proof/Laws/Decode.lean ====
section
/-! SUPPORT. The encoder's lengths, the fields of the bytes it packs, and the prefixes it writes read back. -/

namespace Sys2Proof

/-! ### Lengths (30_encoding.md R65) -/

theorem Disp.encode_length (d : Disp) : d.encode.length = d.len := by cases d <;> rfl

theorem Mem.encode_length (a : Mem) (reg : BitVec 3) : (a.encode reg).length = 1 + a.tailLen := by
  cases a <;> simp [Mem.encode, Mem.tailLen, Disp.encode_length, encode32] <;> omega

theorem Source.encode_length (src : Source) (reg : BitVec 3) : (src.encode reg).length = 1 + src.tailLen := by
  cases src with
  | reg n => rfl
  | mem a => exact a.encode_length reg

theorem EvexSource.encode_length (src : EvexSource) (reg : BitVec 3) :
    (src.encode reg).length = 1 + src.tailLen := by
  cases src with
  | reg n => rfl
  | mem c a => exact a.encode_length reg

theorem encodePrefixes_length (p : Prefixes) (bad : Bool) :
    (encodePrefixes p bad).length = p.len + if bad then 1 else 0 := by
  obtain ⟨seg, a67, lock⟩ := p
  cases seg <;> cases a67 <;> cases lock <;> cases bad <;> rfl

theorem Mem.tailLen_le (a : Mem) : a.tailLen ≤ 5 := by
  cases a with
  | base b d => cases d <;> simp [Mem.tailLen, Disp.len]
  | ripRel d => simp [Mem.tailLen]
  | absolute d => simp [Mem.tailLen]
  | sib b i s d => cases d <;> simp [Mem.tailLen, Disp.len]
  | sibNoBase i s d => simp [Mem.tailLen]

theorem Source.tailLen_le (src : Source) : src.tailLen ≤ 5 := by
  cases src with
  | reg n => simp [Source.tailLen]
  | mem a => exact a.tailLen_le

theorem EvexSource.tailLen_le (src : EvexSource) : src.tailLen ≤ 5 := by
  cases src with
  | reg n => simp [EvexSource.tailLen]
  | mem c a => exact a.tailLen_le

/-- At most one segment override and one `67`, where there is no `LOCK` (30_encoding.md R46). -/
theorem Prefixes.len_le (p : Prefixes) (h : p.lock = false) : p.len ≤ 2 := by
  obtain ⟨seg, a67, lock⟩ := p
  simp only at h
  subst h
  cases seg <;> cases a67 <;> simp [Prefixes.len]

/-! ### Fields of packed bytes (30_encoding.md R48, R50, R51, R55, R58) -/

theorem pack233_mod (a : BitVec 2) (b c : BitVec 3) : (pack233 a b c).extractLsb' 6 2 = a := by
  revert a b c; decide

theorem pack233_reg (a : BitVec 2) (b c : BitVec 3) : (pack233 a b c).extractLsb' 3 3 = b := by
  revert a b c; decide

theorem pack233_rm (a : BitVec 2) (b c : BitVec 3) : (pack233 a b c).extractLsb' 0 3 = c := by
  revert a b c; decide

theorem rexByte_fields (w r x b : Bool) :
    (rexByte w r x b).extractLsb' 4 4 = 4#4 ∧ (rexByte w r x b).getLsbD 3 = w ∧
      (rexByte w r x b).getLsbD 2 = r ∧ (rexByte w r x b).getLsbD 1 = x ∧ (rexByte w r x b).getLsbD 0 = b := by
  revert w r x b; decide

theorem vex2Byte_fields (r : Bool) (v : BitVec 4) (l : Bool) :
    (vex2Byte r v l).getLsbD 7 = !r ∧ (vex2Byte r v l).extractLsb' 3 4 = v ∧
      (vex2Byte r v l).getLsbD 2 = l ∧ (vex2Byte r v l).extractLsb' 0 2 = 0#2 := by
  revert r v l; decide

theorem vex3Byte1_fields (r x b : Bool) :
    (vex3Byte1 r x b).getLsbD 7 = !r ∧ (vex3Byte1 r x b).getLsbD 6 = !x ∧
      (vex3Byte1 r x b).getLsbD 5 = !b ∧ (vex3Byte1 r x b).extractLsb' 0 5 = 1#5 := by
  revert r x b; decide

theorem vex3Byte2_fields (w : Bool) (v : BitVec 4) (l : Bool) :
    (vex3Byte2 w v l).getLsbD 7 = w ∧ (vex3Byte2 w v l).extractLsb' 3 4 = v ∧
      (vex3Byte2 w v l).getLsbD 2 = l ∧ (vex3Byte2 w v l).extractLsb' 0 2 = 0#2 := by
  revert w v l; decide

theorem evexP0_fields (r x b r' : Bool) :
    (evexP0 r x b r').getLsbD 7 = !r ∧ (evexP0 r x b r').getLsbD 6 = !x ∧ (evexP0 r x b r').getLsbD 5 = !b ∧
      (evexP0 r x b r').getLsbD 4 = !r' ∧ (evexP0 r x b r').extractLsb' 0 4 = 1#4 := by
  revert r x b r'; decide

theorem evexP1_fields (w : Bool) (v : BitVec 4) :
    (evexP1 w v).getLsbD 7 = w ∧ (evexP1 w v).extractLsb' 3 4 = v ∧ (evexP1 w v).extractLsb' 0 3 = 4#3 := by
  revert w v; decide

theorem evexP2_fields (z : Bool) (ll : BitVec 2) (b v : Bool) (aaa : BitVec 3) :
    (evexP2 z ll b v aaa).getLsbD 7 = z ∧ (evexP2 z ll b v aaa).extractLsb' 5 2 = ll ∧
      (evexP2 z ll b v aaa).getLsbD 4 = b ∧ (evexP2 z ll b v aaa).getLsbD 3 = v ∧
      (evexP2 z ll b v aaa).extractLsb' 0 3 = aaa := by
  revert z ll b v aaa; decide

/-! ### Register numbers -/

theorem gprOf_bits (n : Fin 16) : gprOf (bit3 n.val) (low3 n.val) = n := by revert n; decide

theorem vecOf_bits (n : Fin 32) : vecOf (bit4 n.val) (bit3 n.val) (low3 n.val) = n := by revert n; decide

/-! ### Prefixes -/

theorem segOfByte_byteOfSeg (sg : SegReg) : segOfByte (byteOfSeg sg) = some sg := by cases sg <;> decide

theorem note_seg (p : PrefixScan) (sg : SegReg) :
    p.note (byteOfSeg sg) = some { p with seg := some sg, redundant := p.redundant || p.seg.isSome } := by
  simp [PrefixScan.note, segOfByte_byteOfSeg]

theorem note_67 (p : PrefixScan) :
    p.note 0x67#8 = some { p with addr67 := true, redundant := p.redundant || p.addr67 } := rfl

theorem note_lock (p : PrefixScan) : p.note 0xF0#8 = some { p with lock := true } := rfl

theorem note_66 (p : PrefixScan) : p.note 0x66#8 = some { p with simd := true } := rfl

theorem take_of_note (m : Mode) {p q : PrefixScan} {b : Byte} (h : p.note b = some q) :
    p.take m b = some { q with rex := none, strayRex := p.strayRex || p.rex.isSome } := by
  simp [PrefixScan.take, h]

/-- A byte that is taken is followed by more of them. -/
theorem scanPrefixes_cons {m : Mode} {p p' : PrefixScan} {b : Byte} (h : p.take m b = some p')
    (rest : List Byte) : scanPrefixes m p (b :: rest) = scanPrefixes m p' rest := by simp [scanPrefixes, h]

/-- A byte that is not taken starts the format. -/
theorem scanPrefixes_stop {m : Mode} {p : PrefixScan} {b : Byte} (h : p.take m b = none) (rest : List Byte) :
    scanPrefixes m p (b :: rest) = (p, b :: rest) := by simp [scanPrefixes, h]

/-- Prefix bytes written by `encodePrefixes` are consumed and noted, whatever follows them. -/
theorem scanPrefixes_encodePrefixes (m : Mode) (p : Prefixes) (bad : Bool) (rest : List Byte) :
    scanPrefixes m .start (encodePrefixes p bad ++ rest) =
      scanPrefixes m ⟨p.seg, p.addr67, p.lock, bad, false, none, false⟩ rest := by
  obtain ⟨seg, a67, lock⟩ := p
  cases seg <;> cases a67 <;> cases lock <;> cases bad <;>
    simp [encodePrefixes, scanPrefixes_cons (take_of_note _ (note_seg _ _)),
      scanPrefixes_cons (take_of_note _ (note_67 _)), scanPrefixes_cons (take_of_note _ (note_lock _)),
      scanPrefixes_cons (take_of_note _ (note_66 _)), PrefixScan.start]

/-- A displacement of four bytes reads back (30_encoding.md R63). -/
theorem encode32_join (v : BitVec 32) :
    (v.extractLsb' 24 8 ++ v.extractLsb' 16 8 ++ v.extractLsb' 8 8 ++ v.extractLsb' 0 8 : BitVec 32) = v := by
  apply BitVec.eq_of_getLsbD_eq
  intro i hi
  have h1 : (v.extractLsb' 24 8 ++ v.extractLsb' 16 8 ++ v.extractLsb' 8 8 ++ v.extractLsb' 0 8 : BitVec 32).getLsbD i
      = if i < 8 then (v.extractLsb' 0 8).getLsbD i
        else (v.extractLsb' 24 8 ++ v.extractLsb' 16 8 ++ v.extractLsb' 8 8).getLsbD (i - 8) :=
    BitVec.getLsbD_append
  rw [h1, BitVec.getLsbD_append, BitVec.getLsbD_append]
  simp only [BitVec.getLsbD_extractLsb']
  by_cases a : i < 8
  · simp [a]
  · by_cases b : i - 8 < 8
    · simp [a, b, show 8 + (i - 8) = i by omega]
    · by_cases c : i - 8 - 8 < 8
      · simp [a, b, c, show 16 + (i - 8 - 8) = i by omega]
      · simp [a, b, c, show i - 8 - 8 - 8 < 8 by omega, show 24 + (i - 8 - 8 - 8) = i by omega]

end Sys2Proof
end

