-- ==== Sys2Proof/Laws/Memory.lean ====
section
/-! SUPPORT. Memory as a sorted list: read after write, and every write keeps the canonical form. -/

namespace Sys2Proof.Machine

theorem memWf_cons {c : Host.Cell} {rest : List Host.Cell} (h : memWf (c :: rest) = true) :
    c.1 < 2 ^ 64 ∧ c.2 ≠ unlistedByte ∧ (∀ c' ∈ rest, c.1 < c'.1) ∧ memWf rest = true := by
  simpa [memWf, and_assoc] using h

theorem memWf_cons_iff (c : Host.Cell) (rest : List Host.Cell) :
    memWf (c :: rest) = true ↔
      c.1 < 2 ^ 64 ∧ c.2 ≠ unlistedByte ∧ (∀ c' ∈ rest, c.1 < c'.1) ∧ memWf rest = true := by
  simp [memWf, and_assoc]

/-- An address below every listed one reads as unlisted. -/
theorem readCell_below {l : List Host.Cell} {a : Nat} (h : ∀ c ∈ l, a < c.1) : readCell l a = unlistedByte := by
  induction l with
  | nil => rfl
  | cons c rest ih =>
    have hc : a ≠ c.1 := Nat.ne_of_lt (h c (by simp))
    simp only [readCell, hc, if_false]
    exact ih fun c' h' => h c' (by simp [h'])

theorem mem_writeCell {l : List Host.Cell} {a : Nat} {b : Byte} {c : Host.Cell} (h : c ∈ writeCell l a b) :
    c = (a, b) ∨ c ∈ l := by
  induction l with
  | nil =>
    simp only [writeCell] at h
    split at h <;> simp_all
  | cons d rest ih =>
    simp only [writeCell] at h
    split at h
    · split at h <;> simp_all
    · split at h
      · split at h
        · exact .inr (by simp [h])
        · rcases List.mem_cons.mp h with h | h
          · exact .inl h
          · exact .inr (by simp [h])
      · rcases List.mem_cons.mp h with h | h
        · exact .inr (by simp [h])
        · rcases ih h with h | h
          · exact .inl h
          · exact .inr (by simp [h])

/-- Writing a byte keeps the canonical form. -/
theorem writeCell_wf {l : List Host.Cell} {a : Nat} {b : Byte} (hl : memWf l = true) (ha : a < 2 ^ 64) :
    memWf (writeCell l a b) = true := by
  induction l with
  | nil =>
    simp only [writeCell]
    split
    · rfl
    · rename_i hb; exact (memWf_cons_iff _ _).mpr ⟨ha, hb, by simp, rfl⟩
  | cons c rest ih =>
    obtain ⟨h1, h2, h3, h4⟩ := memWf_cons hl
    simp only [writeCell]
    split
    · rename_i hlt
      split
      · exact hl
      · rename_i hb
        refine (memWf_cons_iff _ _).mpr ⟨ha, hb, fun c' hc' => ?_, hl⟩
        rcases List.mem_cons.mp hc' with rfl | hc'
        · exact hlt
        · exact Nat.lt_trans hlt (h3 c' hc')
    · rename_i hge
      split
      · rename_i heq
        split
        · exact h4
        · rename_i hb
          exact (memWf_cons_iff _ _).mpr ⟨ha, hb, fun c' hc' => heq ▸ h3 c' hc', h4⟩
      · rename_i hne
        refine (memWf_cons_iff _ _).mpr ⟨h1, h2, fun c' hc' => ?_, ih h4⟩
        rcases mem_writeCell hc' with rfl | hc'
        · omega
        · exact h3 c' hc'

/-- A read of the byte just written gives that byte. -/
theorem readCell_writeCell_same {l : List Host.Cell} (a : Nat) (b : Byte) (hl : memWf l = true) :
    readCell (writeCell l a b) a = b := by
  induction l with
  | nil => simp only [writeCell]; split <;> simp_all [readCell]
  | cons c rest ih =>
    obtain ⟨-, -, h3, h4⟩ := memWf_cons hl
    simp only [writeCell]
    split
    · rename_i hlt
      split
      · rename_i hb
        rw [readCell_below, hb]
        intro c' hc'
        rcases List.mem_cons.mp hc' with rfl | hc'
        · exact hlt
        · exact Nat.lt_trans hlt (h3 c' hc')
      · simp [readCell]
    · split
      · rename_i heq
        split
        · rename_i hb
          rw [readCell_below, hb]
          exact fun c' hc' => heq ▸ h3 c' hc'
        · simp [readCell]
      · rename_i hne
        simp only [readCell, hne, if_false]
        exact ih h4

/-- A write leaves every other byte alone. -/
theorem readCell_writeCell_other (l : List Host.Cell) {a a' : Nat} (b : Byte) (h : a' ≠ a) :
    readCell (writeCell l a b) a' = readCell l a' := by
  induction l with
  | nil => simp only [writeCell]; split <;> simp [readCell, h]
  | cons c rest ih =>
    simp only [writeCell]
    split
    · split <;> simp [readCell, h]
    · split
      · rename_i heq
        have hc : a' ≠ c.1 := heq ▸ h
        split <;> simp [readCell, h, hc]
      · simp only [readCell, ih]

/-- Storing a list of bytes keeps the canonical form. -/
theorem storeBytes_wf (m : Mode) (bytes : List Byte) (la : Word) {l : List Host.Cell} (hl : memWf l = true) :
    memWf (storeBytes m la bytes l) = true := by
  induction bytes generalizing la l with
  | nil => exact hl
  | cons b rest ih => exact ih _ (writeCell_wf hl la.isLt)

/-- Memory after reset is in canonical form. -/
theorem reset_memWf : memWf State.reset.mem = true := rfl

/-- Placing code keeps the canonical form. -/
theorem placeCode_memWf (s : State) (m : Mode) (bytes : List Byte) (h : memWf s.mem = true) :
    memWf (s.placeCode m bytes).mem = true := storeBytes_wf m bytes _ h

end Sys2Proof.Machine
end

