-- ==== Sys2Proof/Laws/PerInstr.lean ====
section
/-! SUPPORT. The per-instruction family `EncodedLength` (30_encoding.md R65): the encoder writes as many bytes as the
instruction's length, which is 3 to 13 where no prefix that is #UD stands before it. -/

namespace Sys2Proof.Laws.EncodedLength

open Sys2Proof.Safety

/-- The encoder writes `len` bytes; without `LOCK` and without a byte of R53, 3 to 13 of them. -/
def Statement (i : Instr) : Prop :=
  (encode i).length = i.len ∧
    ((prefixesOf i).lock = false → badPrefixOf i = false → 3 ≤ i.len ∧ i.len ≤ 13)

theorem cvtps2pd (op : LegacyOp) : Statement (.cvtps2pd op) := by
  refine ⟨?_, fun hl _ => ?_⟩
  · have h := encodePrefixes_length op.pre false
    simp only [Bool.false_eq_true, if_false] at h
    simp only [encode, LegacyOp.encode, Instr.len, LegacyOp.len, List.length_append, Source.encode_length, h]
    cases op.rex <;> simp <;> omega
  · have h1 := op.pre.len_le hl
    have h2 := op.src.tailLen_le
    simp only [Instr.len, LegacyOp.len]
    split <;> omega

theorem vexC5 (l : Bool) (op : VexOp) : (op.encodeC5 l).length = op.len 2 := by
  simp only [VexOp.encodeC5, VexOp.len, List.length_append, Source.encode_length, encodePrefixes_length]
  simp
  omega

theorem vexC4 (l : Bool) (op : VexOp) : (op.encodeC4 l).length = op.len 3 := by
  simp only [VexOp.encodeC4, VexOp.len, List.length_append, Source.encode_length, encodePrefixes_length]
  simp
  omega

theorem vex_bounds {n : Nat} (op : VexOp) (hn : 2 ≤ n ∧ n ≤ 3) (hl : op.pre.lock = false)
    (hb : op.badPrefix = false) : 3 ≤ op.len n ∧ op.len n ≤ 13 := by
  have h1 := op.pre.len_le hl
  have h2 := op.src.tailLen_le
  simp only [VexOp.len, hb, Bool.false_eq_true, if_false]
  omega

theorem evex (ll : BitVec 2) (op : EvexOp) : (op.encode ll).length = op.len := by
  simp only [EvexOp.encode, EvexOp.len, List.length_append, EvexSource.encode_length, encodePrefixes_length]
  simp
  omega

theorem evex_bounds (op : EvexOp) (hl : op.pre.lock = false) (hb : op.badPrefix = false) :
    3 ≤ op.len ∧ op.len ≤ 13 := by
  have h1 := op.pre.len_le hl
  have h2 := op.src.tailLen_le
  simp only [EvexOp.len, hb, Bool.false_eq_true, if_false]
  omega

theorem vcvtps2pdVex128C5 (op : VexOp) : Statement (.vcvtps2pdVex128C5 op) :=
  ⟨vexC5 false op, vex_bounds op (by decide)⟩

theorem vcvtps2pdVex128C4 (op : VexOp) : Statement (.vcvtps2pdVex128C4 op) :=
  ⟨vexC4 false op, vex_bounds op (by decide)⟩

theorem vcvtps2pdVex256C5 (op : VexOp) : Statement (.vcvtps2pdVex256C5 op) :=
  ⟨vexC5 true op, vex_bounds op (by decide)⟩

theorem vcvtps2pdVex256C4 (op : VexOp) : Statement (.vcvtps2pdVex256C4 op) :=
  ⟨vexC4 true op, vex_bounds op (by decide)⟩

theorem vcvtps2pdEvex512Sae (op : SaeOp) : Statement (.vcvtps2pdEvex512Sae op) := by
  refine ⟨?_, fun hl hb => ?_⟩
  · simp only [encode, SaeOp.encode, Instr.len, SaeOp.len, List.length_append, encodePrefixes_length]
    simp
  · have h1 := op.pre.len_le hl
    have hb' : op.badPrefix = false := hb
    simp only [Instr.len, SaeOp.len, hb', Bool.false_eq_true, if_false]
    omega

theorem vcvtps2pdEvex128 (op : EvexOp) : Statement (.vcvtps2pdEvex128 op) := ⟨evex _ op, evex_bounds op⟩

theorem vcvtps2pdEvex256 (op : EvexOp) : Statement (.vcvtps2pdEvex256 op) := ⟨evex _ op, evex_bounds op⟩

theorem vcvtps2pdEvex512 (op : EvexOp) : Statement (.vcvtps2pdEvex512 op) := ⟨evex _ op, evex_bounds op⟩

theorem vcvtps2pdEvexReservedLL11 (op : EvexOp) : Statement (.vcvtps2pdEvexReservedLL11 op) :=
  ⟨evex _ op, evex_bounds op⟩

end Sys2Proof.Laws.EncodedLength
end

