-- ==== Sys2Proof/Laws/Step.lean ====
section
/-! SUPPORT. One step: what it is where the launch premises hold, and that a step which may fetch fewer bytes, as the
steps of a run do (70_reset_and_hazards.md R138), does the same where it completes. -/

namespace Sys2Proof

/-! ### Decoding more bytes than an instruction has -/

theorem scanPrefixes_append {m : Mode} {p : PrefixScan} {bytes : List Byte} (more : List Byte)
    (h : (scanPrefixes m p bytes).2 ≠ []) :
    scanPrefixes m p (bytes ++ more) = ((scanPrefixes m p bytes).1, (scanPrefixes m p bytes).2 ++ more) := by
  induction bytes generalizing p with
  | nil => exact absurd rfl h
  | cons b rest ih =>
    simp only [scanPrefixes, List.cons_append] at h ⊢
    split
    · rename_i q hq
      rw [hq] at h
      exact ih h
    · rfl

theorem takeDisp32_append {bytes rest : List Byte} {d : BitVec 32} (more : List Byte)
    (h : takeDisp32 bytes = some (d, rest)) : takeDisp32 (bytes ++ more) = some (d, rest ++ more) := by
  unfold takeDisp32 at h
  split at h
  · cases h; rfl
  · cases h

theorem takeDisp_append {mod : BitVec 2} {bytes rest : List Byte} {d : Disp} (more : List Byte)
    (h : takeDisp mod bytes = some (d, rest)) : takeDisp mod (bytes ++ more) = some (d, rest ++ more) := by
  unfold takeDisp at h ⊢
  split
  · simp_all
  · split
    · simp_all only [if_true, if_false]
      split at h <;> cases h
      rfl
    · simp_all only [if_false]
      split at h <;> cases h
      rfl

theorem takeSib_append {x b : Bool} {mod : BitVec 2} {bytes rest : List Byte} {a : Mem} (more : List Byte)
    (h : takeSib x b mod bytes = some (a, rest)) : takeSib x b mod (bytes ++ more) = some (a, rest ++ more) := by
  cases bytes with
  | nil => cases h
  | cons sib tail =>
    simp only [takeSib, List.cons_append] at h ⊢
    split <;> rename_i hc
    · simp only [if_pos hc] at h
      split at h <;> cases h
      rename_i hd
      simp only [takeDisp32_append more hd]
    · simp only [if_neg hc] at h
      split at h <;> cases h
      rename_i hd
      simp only [takeDisp_append more hd]

theorem takeMem_append {m : Mode} {x b : Bool} {mod : BitVec 2} {rm : BitVec 3} {bytes rest : List Byte} {a : Mem}
    (more : List Byte) (h : takeMem m x b mod rm bytes = some (a, rest)) :
    takeMem m x b mod rm (bytes ++ more) = some (a, rest ++ more) := by
  unfold takeMem at h ⊢
  split <;> rename_i hr
  · rw [if_pos hr] at h
    exact takeSib_append more h
  · rw [if_neg hr] at h
    split <;> rename_i hc
    · rw [if_pos hc] at h
      split at h
      · cases h
      · rename_i hd
        cases m <;> cases h <;> simp only [takeDisp32_append more hd]
    · rw [if_neg hc] at h
      split at h <;> cases h
      rename_i hd
      simp only [takeDisp_append more hd]

theorem takeModrm_append {m : Mode} {x b : Bool} {bytes rest : List Byte} {reg : BitVec 3} {rm : Rm}
    (more : List Byte) (h : takeModrm m x b bytes = some (reg, rm, rest)) :
    takeModrm m x b (bytes ++ more) = some (reg, rm, rest ++ more) := by
  cases bytes with
  | nil => cases h
  | cons modrm tail =>
    simp only [takeModrm, List.cons_append] at h ⊢
    split <;> rename_i hc
    · simp only [if_pos hc] at h
      cases h; rfl
    · simp only [if_neg hc] at h
      split at h <;> cases h
      rename_i hd
      simp only [takeMem_append more hd]

theorem Decoded.accept_append {p : PrefixScan} {e : Bool} {i j : Instr} {rest r : List Byte} (more : List Byte)
    (h : Decoded.accept p e i rest = .instr j r) : Decoded.accept p e i (rest ++ more) = .instr j (r ++ more) := by
  unfold Decoded.accept at h ⊢
  split at h
  · cases h
  split at h
  · cases h
  split at h
  · cases h
  cases h
  simp_all

/-- A string with 16-bit addressing is no instruction. -/
theorem refuseSixteenBit_ne_instr (bytes : List Byte) (i : Instr) (rest : List Byte) :
    refuseSixteenBit bytes ≠ .instr i rest := by cases bytes <;> simp [refuseSixteenBit]

/-- What the three formats do once their opcode is there: the operands, then the instruction. -/
theorem operands_append {m : Mode} {x b s16 : Bool} {p : PrefixScan} {e : Bool} {f : BitVec 3 → Rm → Instr}
    {bytes rest : List Byte} {i : Instr} (more : List Byte)
    (h : (if s16 then refuseSixteenBit bytes else match takeModrm m x b bytes with
      | none => Decoded.truncated
      | some (reg, rm, rest') => Decoded.accept p e (f reg rm) rest') = .instr i rest) :
    (if s16 then refuseSixteenBit (bytes ++ more) else match takeModrm m x b (bytes ++ more) with
      | none => Decoded.truncated
      | some (reg, rm, rest') => Decoded.accept p e (f reg rm) rest') = .instr i (rest ++ more) := by
  split at h
  · exact absurd h (refuseSixteenBit_ne_instr _ _ _)
  · rename_i h16
    rw [if_neg h16]
    split at h
    · cases h
    · rename_i hm
      simp only [takeModrm_append more hm]
      exact Decoded.accept_append more h

theorem decodeLegacy_append {m : Mode} {p : PrefixScan} {bytes rest : List Byte} {i : Instr} (more : List Byte)
    (h : decodeLegacy m p bytes = .instr i rest) : decodeLegacy m p (bytes ++ more) = .instr i (rest ++ more) :=
  operands_append more h

theorem decodeVex2_append {m : Mode} {p : PrefixScan} {bad : Bool} {b1 : Byte} {bytes rest : List Byte} {i : Instr}
    (more : List Byte) (h : decodeVex2 m p bad b1 bytes = .instr i rest) :
    decodeVex2 m p bad b1 (bytes ++ more) = .instr i (rest ++ more) := by
  match bytes, h with
  | opcode :: tail, h =>
    simp only [decodeVex2, List.cons_append] at h ⊢
    split <;> rename_i hc
    · rw [if_pos hc] at h
      cases h
    · rw [if_neg hc] at h
      exact operands_append more h

theorem decodeVex3_append {m : Mode} {p : PrefixScan} {bad : Bool} {b1 : Byte} {bytes rest : List Byte} {i : Instr}
    (more : List Byte) (h : decodeVex3 m p bad b1 bytes = .instr i rest) :
    decodeVex3 m p bad b1 (bytes ++ more) = .instr i (rest ++ more) := by
  match bytes, h with
  | b2 :: opcode :: tail, h =>
    simp only [decodeVex3, List.cons_append] at h ⊢
    split <;> rename_i hc
    · rw [if_pos hc] at h
      cases h
    · rw [if_neg hc] at h
      exact operands_append more h

theorem decodeEvex_append {m : Mode} {p : PrefixScan} {bad : Bool} {p0 : Byte} {bytes rest : List Byte} {i : Instr}
    (more : List Byte) (h : decodeEvex m p bad p0 bytes = .instr i rest) :
    decodeEvex m p bad p0 (bytes ++ more) = .instr i (rest ++ more) := by
  match bytes, h with
  | p1 :: p2 :: opcode :: tail, h =>
    simp only [decodeEvex, List.cons_append] at h ⊢
    split <;> rename_i hc
    · rw [if_pos hc] at h
      cases h
    · rw [if_neg hc] at h
      exact operands_append more h

theorem decodeVector_append {m : Mode} {p : PrefixScan} {b b1 : Byte} {bytes rest : List Byte} {i : Instr}
    (more : List Byte) (h : decodeVector m p b b1 bytes = .instr i rest) :
    decodeVector m p b b1 (bytes ++ more) = .instr i (rest ++ more) := by
  simp only [decodeVector] at h ⊢
  split at h
  · cases h
  · rename_i ho
    rw [if_neg ho]
    split <;> rename_i hb
    · rw [if_pos hb] at h
      exact decodeVex2_append more h
    · rw [if_neg hb] at h
      split <;> rename_i hb'
      · rw [if_pos hb'] at h
        exact decodeVex3_append more h
      · rw [if_neg hb'] at h
        exact decodeEvex_append more h

theorem decodeFormat_append {m : Mode} {p : PrefixScan} {bytes rest : List Byte} {i : Instr} (more : List Byte)
    (h : decodeFormat m p bytes = .instr i rest) : decodeFormat m p (bytes ++ more) = .instr i (rest ++ more) := by
  match bytes, h with
  | [b], h =>
    simp only [decodeFormat] at h
    split at h
    · cases h
    · split at h <;> cases h
  | b :: b1 :: tail, h =>
    simp only [decodeFormat, List.cons_append] at h ⊢
    split <;> rename_i hb
    · rw [if_pos hb] at h
      split at h
      · cases h
      · rename_i hc
        rw [if_neg hc]
        exact decodeLegacy_append more h
    · rw [if_neg hb] at h
      split at h
      · rename_i hv
        rw [if_pos hv]
        exact decodeVector_append more h
      · cases h

/-- An instruction is the same whatever bytes follow it. -/
theorem decode_append {m : Mode} {bytes rest : List Byte} {i : Instr} (more : List Byte)
    (h : decode m bytes = .instr i rest) : decode m (bytes ++ more) = .instr i (rest ++ more) := by
  have hne : (scanPrefixes m .start bytes).2 ≠ [] := by
    intro h0
    rw [decode, h0] at h
    cases h
  rw [decode, scanPrefixes_append more hne]
  exact decodeFormat_append more h

end Sys2Proof

namespace Sys2Proof.Machine

/-- Fetching more bytes: the same ones, and more. -/
theorem fetchFrom_prefix (s : State) (m : Mode) (t : Nat) {k n : Nat} (h : k ≤ n) :
    ∃ more, (fetchFrom s m t n).1 = (fetchFrom s m t k).1 ++ more := by
  induction k generalizing t n with
  | zero => exact ⟨_, rfl⟩
  | succ k ih =>
    obtain ⟨n, rfl⟩ : ∃ n', n = n' + 1 := ⟨n - 1, by omega⟩
    simp only [fetchFrom]
    split
    · exact ⟨[], rfl⟩
    · obtain ⟨more, hm⟩ := ih (t + 1) (n := n) (by omega)
      exact ⟨more, by simp [hm]⟩

/-- A step of at most `n` bytes where the launch premises hold. -/
theorem stepWithin_run {s : State} {m : Mode} (hm : s.opMode = .run m) (hp : premiseRefusal s = none) (n : Nat) :
    stepWithin n s = runDecoded s n (fetchFrom s m 0 n).2 (decode m (fetchFrom s m 0 n).1) := by
  simp [stepWithin, hm, hp]

theorem truncatedOutcome_ne_next (s t : State) (n : Nat) (stop : Option Stop) :
    truncatedOutcome s n stop ≠ .next t := by
  unfold truncatedOutcome
  split
  · rename_i st
    cases st <;> simp [Stop.outcome]
  · split <;> simp

/-- A step that completes: the mode, the launch premises, and the instruction it runs. -/
theorem stepWithin_next {s t : State} {n : Nat} (h : stepWithin n s = .next t) :
    ∃ m i rest, s.opMode = .run m ∧ premiseRefusal s = none ∧ decode m (fetchFrom s m 0 n).1 = .instr i rest ∧
      exec i s = .next t := by
  unfold stepWithin at h
  split at h
  · cases h
  · cases h
  · cases h
  · cases h
  · rename_i m hm
    split at h
    · cases h
    · rename_i hp
      cases hd : decode m (fetchFrom s m 0 n).1 with
      | instr i rest => exact ⟨m, i, rest, hm, hp, hd, by rwa [hd] at h⟩
      | refused r => rw [hd] at h; cases h
      | truncated => rw [hd] at h; exact absurd h (truncatedOutcome_ne_next _ _ _ _)

/-- A step that completes with few bytes completes in the same state with more. -/
theorem stepWithin_mono {s t : State} {k n : Nat} (hk : k ≤ n) (h : stepWithin k s = .next t) :
    stepWithin n s = .next t := by
  obtain ⟨m, i, rest, hm, hp, hd, he⟩ := stepWithin_next h
  obtain ⟨more, hf⟩ := fetchFrom_prefix s m 0 hk
  rw [stepWithin_run hm hp, hf, decode_append more hd]
  exact he

/-- What a completed step of a run is: a step, over bytes before the end address. -/
theorem stepBefore_next {stop : Word} {s t : State} (h : stepBefore stop s = .next t) :
    step s = .next t ∧
    ∃ m, s.opMode = .run m ∧ stepWithin (min maxInstrLen (bytesBefore m s.pc stop)) s = .next t := by
  unfold stepBefore at h
  split at h
  · cases h
  · cases h
  · cases h
  · cases h
  · rename_i m hm
    exact ⟨stepWithin_mono (Nat.min_le_left _ _) h, m, hm, h⟩

end Sys2Proof.Machine
end

