-- ==== Sys2Proof/Tests/Slice0.lean ====
section
/-! SUPPORT. The model's own tests. Expected values are those of 95_test_vectors.md (the vector's number is named),
or worked out by hand from the rule named. The last sections show, for every statement with hypotheses, concrete data
that meets them. -/

namespace Sys2Proof.Tests

-- One theorem after the other: each waiting proof would hold a thread and its stack.
set_option Elab.async false

open Sys2Proof.Machine Sys2Proof.Safety

/-! ### States -/

def plain : Prefixes := ⟨none, false, false⟩

/-- A state in `Mode64` after the boot work of R132, every address readable, `pc = 1000h`. -/
def ready : State := { State.reset.boot with pc := 0x1000#64 }

/-- The same in `Mode32`, every segment 4 GiB. -/
def ready32 : State :=
  { ready with
    opMode := .run .mode32
    segs := {
      es := { resetSegment with limit := 0xFFFFFFFF#32 }
      cs := { resetSegment with limit := 0xFFFFFFFF#32 }
      ss := { resetSegment with limit := 0xFFFFFFFF#32 }
      ds := { resetSegment with limit := 0xFFFFFFFF#32 }
      fs := { resetSegment with limit := 0xFFFFFFFF#32 }
      gs := { resetSegment with limit := 0xFFFFFFFF#32 } } }

def withV (s : State) (n : Fin 32) (v : VecReg) : State := { s with v := s.v.set n v }
def withX (s : State) (n : Fin 16) (x : Word) : State := { s with x := s.x.set n x }
def withK (s : State) (n : Fin 8) (k : Word) : State := { s with k := s.k.set n k }
def withLevel (s : State) (l : IsaLevel) : State := { s with cfg := { s.cfg with level := l } }
def withBytes (s : State) (la : Word) (bytes : List Byte) : State :=
  s.setMem (storeBytes .mode64 la bytes s.mem)

/-- Code at `pc`. -/
def code (s : State) (bytes : List Byte) : State := withBytes s s.pc bytes

/-- Only the addresses `first` to `last` may be read as data; code may be fetched anywhere. -/
def onlyMapped (s : State) (first last : Nat) : State :=
  { s with cfg := { s.cfg with translate := {
      rules := [⟨first, last, none, none, some .dataRead, .ok⟩, ⟨0, 2 ^ 64, none, none, some .fetch, .ok⟩]
      otherwise := .pf false false false } } }

/-! ### What a test looks at -/

def vecAfter (n : Fin 32) : StepOutcome → Option VecReg
  | .next t => some t.v[n]
  | .fault _ => none
  | .refused _ => none

/-- `MXCSR` and `pc`. -/
def ctlAfter : StepOutcome → Option (BitVec 32 × Word)
  | .next t => some (t.mxcsr, t.pc)
  | .fault _ => none
  | .refused _ => none

/-- The fault outcome of R121: vector, error code, `CR2`. -/
def faultInfo : StepOutcome → Option (Nat × Option (BitVec 32) × Option Word)
  | .next _ => none
  | .fault f => some (f.vector, f.errorCode, f.faultAddr)
  | .refused _ => none

def faultState : StepOutcome → Option State
  | .next _ => none
  | .fault f => some f.after
  | .refused _ => none

def refusal : StepOutcome → Option Refusal
  | .next _ => none
  | .fault _ => none
  | .refused r => some r

def isNext : StepOutcome → Bool
  | .next _ => true
  | .fault _ => false
  | .refused _ => false

theorem next_of_isNext {o : StepOutcome} (h : isNext o = true) : ∃ t, o = .next t := by
  cases o with
  | next t => exact ⟨t, rfl⟩
  | fault _ => cases h
  | refused _ => cases h

/-! ### WellFormed: one ill-formed term for each check -/

def regOp (d r : Fin 32) : LegacyOp := ⟨plain, some false, d, .reg r⟩
def memOp (a : Mem) : Instr := .cvtps2pd ⟨plain, some false, 0, .mem a⟩
def vexReg (d r : Fin 32) : VexOp := ⟨plain, false, false, 15#4, d, .reg r⟩
def evexReg (d r : Fin 32) : EvexOp := ⟨plain, false, false, 15#4, true, false, 0#3, d, .reg r⟩
def saeReg (d r : Fin 32) : SaeOp := ⟨plain, false, false, 15#4, true, false, 0#2, 0#3, d, r⟩

theorem test_wf_accepts :
    (Instr.cvtps2pd (regOp 15 15)).wf .mode64 = true ∧
    (memOp (.sib 13 (some 12) 3#2 (.d8 0#8))).wf .mode64 = true ∧
    (Instr.vcvtps2pdEvex512 (evexReg 31 31)).wf .mode64 = true ∧
    (Instr.vcvtps2pdVex128C5 (vexReg 7 7)).wf .mode32 = true := by decide

/-- Prefixes: `67` in `Mode32`; REX in `Mode32`. -/
theorem test_wf_refuses_prefixes :
    (Instr.vcvtps2pdVex128C4 { vexReg 0 0 with pre := ⟨none, true, false⟩ }).wf .mode32 = false ∧
    (Instr.cvtps2pd (regOp 0 0)).wf .mode32 = false := by decide

/-- Register numbers: no REX, no such register, two-byte VEX source, `Mode32`. -/
theorem test_wf_refuses_registers :
    (Instr.cvtps2pd { regOp 8 0 with rex := none }).wf .mode64 = false ∧
    (Instr.cvtps2pd (regOp 16 0)).wf .mode64 = false ∧
    (Instr.cvtps2pd (regOp 0 16)).wf .mode64 = false ∧
    (Instr.vcvtps2pdVex256C5 (vexReg 0 8)).wf .mode64 = false ∧
    (Instr.vcvtps2pdVex256C4 (vexReg 16 0)).wf .mode64 = false ∧
    (Instr.vcvtps2pdEvex512 (evexReg 8 0)).wf .mode32 = false ∧
    (Instr.vcvtps2pdEvex128 (evexReg 0 8)).wf .mode32 = false ∧
    (Instr.vcvtps2pdEvex512Sae (saeReg 8 0)).wf .mode32 = false ∧
    (Instr.vcvtps2pdEvex512Sae (saeReg 0 8)).wf .mode32 = false := by decide

/-- ModRM and SIB: base 4 and 12 need SIB, base 5 and 13 a displacement, no index 4, the mode's own `mod = 00,
r/m = 101`, general registers beyond the format's. -/
theorem test_wf_refuses_memory :
    (memOp (.base 4 .none)).wf .mode64 = false ∧ (memOp (.base 12 (.d8 0#8))).wf .mode64 = false ∧
    (memOp (.base 5 .none)).wf .mode64 = false ∧ (memOp (.base 13 .none)).wf .mode64 = false ∧
    (memOp (.sib 13 none 0#2 .none)).wf .mode64 = false ∧
    (memOp (.sib 0 (some 4) 0#2 .none)).wf .mode64 = false ∧
    (memOp (.sibNoBase (some 4) 0#2 0#32)).wf .mode64 = false ∧
    (memOp (.absolute 0#32)).wf .mode64 = false ∧
    (Instr.vcvtps2pdEvex256 { evexReg 0 0 with src := .mem true (.ripRel 0#32) }).wf .mode32 = false ∧
    (Instr.vcvtps2pdVex128C5 { vexReg 0 0 with src := .mem (.base 8 .none) }).wf .mode64 = false ∧
    (Instr.vcvtps2pdVex128C5 { vexReg 0 0 with src := .mem (.sib 0 (some 8) 0#2 .none) }).wf .mode64 = false := by
  decide

/-- Fields the format or the mode fixes: `W` of two-byte VEX, `vvvv` bit 3 and `V'` in `Mode32`. -/
theorem test_wf_refuses_fields :
    (Instr.vcvtps2pdVex128C5 { vexReg 0 0 with w := true }).wf .mode64 = false ∧
    (Instr.vcvtps2pdVex128C5 { vexReg 0 0 with vvvv := 7#4 }).wf .mode32 = false ∧
    (Instr.vcvtps2pdEvexReservedLL11 { evexReg 0 0 with vbar := false }).wf .mode32 = false ∧
    (Instr.vcvtps2pdEvex512Sae { saeReg 0 0 with vbar := false }).wf .mode32 = false := by decide

/-! ### Decoding: every constructor, from the spec's own bytes -/

/-- E1 to E7: `0F 5A CA`; `45 0F 5A C1`; RIP-relative; SIB with scale 4; SIB with no index and disp8 -8. -/
theorem test_decode_cvtps2pd :
    decode .mode64 [0x0F#8, 0x5A#8, 0xCA#8] = .instr (.cvtps2pd ⟨plain, none, 1, .reg 2⟩) [] ∧
    decode .mode64 [0x45#8, 0x0F#8, 0x5A#8, 0xC1#8] = .instr (.cvtps2pd ⟨plain, some false, 8, .reg 9⟩) [] ∧
    decode .mode64 [0x0F#8, 0x5A#8, 0x05#8, 0x10#8, 0#8, 0#8, 0#8] =
      .instr (.cvtps2pd ⟨plain, none, 0, .mem (.ripRel 16#32)⟩) [] ∧
    decode .mode64 [0x0F#8, 0x5A#8, 0x04#8, 0x8B#8] =
      .instr (.cvtps2pd ⟨plain, none, 0, .mem (.sib 3 (some 1) 2#2 .none)⟩) [] ∧
    decode .mode64 [0x0F#8, 0x5A#8, 0x44#8, 0x24#8, 0xF8#8] =
      .instr (.cvtps2pd ⟨plain, none, 0, .mem (.sib 4 none 0#2 (.d8 0xF8#8))⟩) [] := by decide

/-- E9, E13: `C5 F8 5A CA`, `C5 F8 5A 5B 08`, by R50: `R̄ = 1`, `vvvv = 1111`, `L = 0`, `pp = 00`. -/
theorem test_decode_vcvtps2pdVex128C5 :
    decode .mode64 [0xC5#8, 0xF8#8, 0x5A#8, 0xCA#8] = .instr (.vcvtps2pdVex128C5 (vexReg 1 2)) [] ∧
    decode .mode64 [0xC5#8, 0xF8#8, 0x5A#8, 0x5B#8, 0x08#8] =
      .instr (.vcvtps2pdVex128C5 ⟨plain, false, false, 15#4, 3, .mem (.base 3 (.d8 8#8))⟩) [] := by decide

/-- `C4 C1 F8 5A 04 24` by R51, R61, R62: `R̄X̄B̄ = 110`, map 1, `W = 1`, `L = 0`; SIB base `1 ++ 100`, no index. -/
theorem test_decode_vcvtps2pdVex128C4 :
    decode .mode64 [0xC4#8, 0xC1#8, 0xF8#8, 0x5A#8, 0x04#8, 0x24#8] =
      .instr (.vcvtps2pdVex128C4 ⟨plain, false, true, 15#4, 0, .mem (.sib 12 none 0#2 .none)⟩) [] := by decide

/-- `C5 FC 5A CA` of section 9, and `C5 7C 5A CA` by R50: `R̄ = 0`. -/
theorem test_decode_vcvtps2pdVex256C5 :
    decode .mode64 [0xC5#8, 0xFC#8, 0x5A#8, 0xCA#8] = .instr (.vcvtps2pdVex256C5 (vexReg 1 2)) [] ∧
    decode .mode64 [0xC5#8, 0x7C#8, 0x5A#8, 0xCA#8] = .instr (.vcvtps2pdVex256C5 (vexReg 9 2)) [] := by decide

/-- `C4 41 7C 5A D4` of section 9. -/
theorem test_decode_vcvtps2pdVex256C4 :
    decode .mode64 [0xC4#8, 0x41#8, 0x7C#8, 0x5A#8, 0xD4#8] = .instr (.vcvtps2pdVex256C4 (vexReg 10 12)) [] := by
  decide

/-- E23, E24: `L'L` = 00 and 11. -/
theorem test_decode_vcvtps2pdEvex512Sae :
    decode .mode64 [0x62#8, 0xF1#8, 0x7C#8, 0x18#8, 0x5A#8, 0xCA#8] =
      .instr (.vcvtps2pdEvex512Sae (saeReg 1 2)) [] ∧
    decode .mode64 [0x62#8, 0xF1#8, 0x7C#8, 0x78#8, 0x5A#8, 0xCA#8] =
      .instr (.vcvtps2pdEvex512Sae { saeReg 1 2 with ll := 3#2 }) [] := by decide

/-- E20, E30. -/
theorem test_decode_vcvtps2pdEvex128 :
    decode .mode64 [0x62#8, 0x81#8, 0x7C#8, 0x0A#8, 0x5A#8, 0xCE#8] =
      .instr (.vcvtps2pdEvex128 { evexReg 17 30 with aaa := 2#3 }) [] ∧
    decode .mode64 [0x62#8, 0xF1#8, 0x7C#8, 0x18#8, 0x5A#8, 0x48#8, 0x02#8] =
      .instr (.vcvtps2pdEvex128 { evexReg 1 0 with src := .mem true (.base 0 (.d8 2#8)) }) [] := by decide

/-- E26. -/
theorem test_decode_vcvtps2pdEvex256 :
    decode .mode64 [0x62#8, 0xF1#8, 0x7C#8, 0xBB#8, 0x5A#8, 0x20#8] =
      .instr (.vcvtps2pdEvex256 { evexReg 4 0 with z := true, aaa := 3#3, src := .mem true (.base 0 .none) }) [] := by
  decide

/-- E21, E22, E32 (the longest). -/
theorem test_decode_vcvtps2pdEvex512 :
    decode .mode64 [0x62#8, 0xE1#8, 0x7C#8, 0x48#8, 0x5A#8, 0xC0#8] = .instr (.vcvtps2pdEvex512 (evexReg 16 0)) [] ∧
    decode .mode64 [0x62#8, 0xB1#8, 0x7C#8, 0x48#8, 0x5A#8, 0xC0#8] = .instr (.vcvtps2pdEvex512 (evexReg 0 16)) [] ∧
    decode .mode64 [0x36#8, 0x67#8, 0x62#8, 0xF1#8, 0x7C#8, 0x48#8, 0x5A#8, 0x84#8, 0xC8#8, 0#8, 1#8, 0#8, 0#8] =
      .instr (.vcvtps2pdEvex512 { evexReg 0 0 with
        pre := ⟨some .ss, true, false⟩, src := .mem false (.sib 0 (some 1) 3#2 (.d32 256#32)) }) [] := by decide

/-- E36, E37. -/
theorem test_decode_vcvtps2pdEvexReservedLL11 :
    decode .mode64 [0x62#8, 0xF1#8, 0x7C#8, 0x68#8, 0x5A#8, 0xCA#8] =
      .instr (.vcvtps2pdEvexReservedLL11 (evexReg 1 2)) [] ∧
    decode .mode64 [0x62#8, 0xF1#8, 0x7C#8, 0x78#8, 0x5A#8, 0x08#8] =
      .instr (.vcvtps2pdEvexReservedLL11 { evexReg 1 0 with src := .mem true (.base 0 .none) }) [] := by decide

/-- E33, E35, E38 to E41: what is #UD decodes, its fields kept. -/
theorem test_decode_keeps_reserved_fields :
    decode .mode64 [0xC5#8, 0xF0#8, 0x5A#8, 0xCA#8] =
      .instr (.vcvtps2pdVex128C5 { vexReg 1 2 with vvvv := 14#4 }) [] ∧
    decode .mode64 [0x62#8, 0xF1#8, 0xFC#8, 0x48#8, 0x5A#8, 0xCA#8] =
      .instr (.vcvtps2pdEvex512 { evexReg 1 2 with w := true }) [] ∧
    decode .mode64 [0x62#8, 0xF1#8, 0x7C#8, 0x88#8, 0x5A#8, 0xCA#8] =
      .instr (.vcvtps2pdEvex128 { evexReg 1 2 with z := true }) [] ∧
    decode .mode64 [0x62#8, 0xF1#8, 0x7C#8, 0x40#8, 0x5A#8, 0xCA#8] =
      .instr (.vcvtps2pdEvex512 { evexReg 1 2 with vbar := false }) [] ∧
    decode .mode64 [0xF0#8, 0x0F#8, 0x5A#8, 0x00#8] =
      .instr (.cvtps2pd ⟨⟨none, false, true⟩, none, 0, .mem (.base 0 .none)⟩) [] ∧
    decode .mode64 [0x48#8, 0xC5#8, 0xF8#8, 0x5A#8, 0xCA#8] =
      .instr (.vcvtps2pdVex128C5 { vexReg 1 2 with badPrefix := true }) [] := by decide

/-- E42 to E45. -/
theorem test_decode_refuses :
    decode .mode64 [0x66#8, 0x0F#8, 0x5A#8, 0xCA#8] = .refused .notThisInstruction ∧
    decode .mode64 [0x62#8, 0xF5#8, 0x7C#8, 0x48#8, 0x5A#8, 0xCA#8] = .refused .notThisInstruction ∧
    decode .mode64 [0x62#8, 0xF1#8, 0x78#8, 0x48#8, 0x5A#8, 0xCA#8] = .refused .notThisInstruction ∧
    decode .mode64 [0xC5#8, 0xF9#8, 0x5A#8, 0xCA#8] = .refused .notThisInstruction ∧
    decode .mode64 [0x2E#8, 0x3E#8, 0x0F#8, 0x5A#8, 0x00#8] = .refused .redundantPrefix ∧
    decode .mode64 [0x67#8, 0x67#8, 0x0F#8, 0x5A#8, 0x00#8] = .refused .redundantPrefix ∧
    decode .mode64 [0x48#8, 0x2E#8, 0x0F#8, 0x5A#8, 0x00#8] = .refused .rexNotAdjacent := by decide

/-- R54, R57: in `Mode32`, one byte after `C5`, `C4` or `62` tells another instruction. -/
theorem test_decode_mode32_other_instruction :
    decode .mode32 [0xC5#8, 0x78#8] = .refused .notThisInstruction ∧
    decode .mode32 [0xC4#8, 0x81#8] = .refused .notThisInstruction ∧
    decode .mode32 [0x62#8, 0x71#8] = .refused .notThisInstruction ∧
    decode .mode64 [0x62#8, 0x71#8] = .truncated := by decide

/-- Section 2.2, `Mode32`. -/
theorem test_decode_mode32 :
    decode .mode32 [0xC5#8, 0xF8#8, 0x5A#8, 0xCA#8] = .instr (.vcvtps2pdVex128C5 (vexReg 1 2)) [] ∧
    decode .mode32 [0x45#8, 0x0F#8, 0x5A#8, 0xC1#8] = .refused .notThisInstruction ∧
    decode .mode32 [0x62#8, 0xE1#8, 0x7C#8, 0x48#8, 0x5A#8, 0xC0#8] = .refused .mode32ExtensionBits ∧
    decode .mode32 [0xC4#8, 0xC1#8, 0x78#8, 0x5A#8, 0xC1#8] = .refused .mode32ExtensionBits ∧
    decode .mode32 [0x67#8, 0x0F#8, 0x5A#8, 0xC1#8] = .refused .sixteenBitAddressing ∧
    decode .mode32 [0x0F#8, 0x5A#8, 0x05#8, 0x10#8, 0#8, 0#8, 0#8] =
      .instr (.cvtps2pd ⟨plain, none, 0, .mem (.absolute 16#32)⟩) [] := by decide

/-- The `match` strings of opcode_table.json, as words: each gives its row. -/
theorem test_table_words :
    [(24, 0x005A0F), (32, 0x005A00C5), (40, 0x005A0001C4), (32, 0x005A04C5), (40, 0x005A0401C4),
      (48, 0xC05A10040162), (48, 0x005A00040162), (48, 0x005A20040162), (48, 0x005A40040162),
      (48, 0x005A60040162)].map (fun w => (decodeTableWord w.1 w.2).map Instr.row) =
    (List.range 10).map some := by decide +kernel

/-- The first row's word runs as the first instruction after reset. -/
theorem test_withFetchWord_runs : isNext (step (State.reset.withFetchWord 24 0x005A0F)) = true := by decide +kernel

/-! ### The conversion primitive -/

/-- A10, A17, A18, A23, A28, A32. -/
theorem test_cvt :
    cvt 0x40490FDB#32 false = ⟨0x400921FB60000000#64, false, false⟩ ∧
    cvt 0x00000001#32 false = ⟨0x36A0000000000000#64, false, true⟩ ∧
    cvt 0x00000001#32 true = ⟨0#64, false, false⟩ ∧
    cvt 0x00012345#32 false = ⟨0x37A2345000000000#64, false, true⟩ ∧
    cvt 0x7F800001#32 false = ⟨0x7FF8000020000000#64, true, false⟩ ∧
    cvt 0xFFA55AA5#32 true = ⟨0xFFFCAB54A0000000#64, true, false⟩ := by decide +kernel

/-! ### Steps, at most two for each instruction -/

/-- Elements 7 to 0 of M1 to M6: a denormal, an SNaN, 10, -5, pi, 3, 2, 1. -/
def eight : VecReg := 0x000000017F80000141200000C0A0000040490FDB40400000400000003F800000#512

/-- A register filled with `11`. -/
def ones : VecReg := BitVec.ofNat 512 (2 ^ 512 / 15)

/-- V7: source and destination the same register, the upper bits kept. -/
theorem test_cvtps2pd_aliased :
    vecAfter 1 (step (code (withV ready 1 (ones ^^^ (ones &&& lowMask 128) |||
        0x2222222222222222400000003F800000#512)) [0x0F#8, 0x5A#8, 0xC9#8])) =
      some (ones ^^^ (ones &&& lowMask 128) ||| 0x40000000000000003FF0000000000000#512) := by decide +kernel

/-- V11: RIP-relative, little-endian. -/
theorem test_cvtps2pd_ripRel :
    let o := step (code (withBytes (onlyMapped ready 0x1017 0x101E) 0x1017#64
      [0#8, 0#8, 0x20#8, 0x41#8, 0#8, 0#8, 0xA0#8, 0xC0#8]) [0x0F#8, 0x5A#8, 0x05#8, 0x10#8, 0#8, 0#8, 0#8])
    vecAfter 0 o = some 0xC0140000000000004024000000000000#512 ∧ ctlAfter o = some (0x1F80#32, 0x1007#64) := by
  decide +kernel

/-- V2: the upper bits zeroed. -/
theorem test_vcvtps2pdVex128C5_zeroes_upper :
    vecAfter 1 (step (code (withV (withV ready 1 ones) 2 0xEEEEEEEEEEEEEEEE400000003F800000#512)
      [0xC5#8, 0xF8#8, 0x5A#8, 0xCA#8])) = some 0x40000000000000003FF0000000000000#512 := by decide +kernel

/-- X1: an unmasked Invalid: #XM, nothing stored, `IE` set. -/
theorem test_vcvtps2pdVex128C5_unmasked :
    let s := { withV (withV ready 1 ones) 2 0x7F8000013F800000#512 with mxcsr := 0x1F00#32 }
    let o := exec (.vcvtps2pdVex128C5 (vexReg 1 2)) s
    faultInfo o = some (19, none, none) ∧ faultState o = some { s with mxcsr := 0x1F01#32 } := by decide +kernel

/-- R90 with R51, R62: `[r12]` through the three-byte VEX. -/
theorem test_vcvtps2pdVex128C4_memory :
    vecAfter 0 (step (code (withBytes (withX ready 12 0x3000#64) 0x3000#64
      [0#8, 0#8, 0x80#8, 0x7F#8, 0#8, 0#8, 0#8, 0x80#8]) [0xC4#8, 0xC1#8, 0xF8#8, 0x5A#8, 0x04#8, 0x24#8])) =
      some 0x80000000000000007FF0000000000000#512 := by decide +kernel

/-- V6: a denormal, a negative SNaN, a QNaN, a denormal, masked. -/
theorem test_vcvtps2pdVex256C5_masked_conditions :
    let o := exec (.vcvtps2pdVex256C5 (vexReg 1 2)) (withV ready 2 0x00400000FFA55AA57FC1234500012345#512)
    vecAfter 1 o = some 0x3800000000000000FFFCAB54A00000007FF82468A000000037A2345000000000#512 ∧
    ctlAfter o = some (0x1F83#32, 0x1004#64) := by decide +kernel

/-- Program 2, step 3. -/
theorem test_vcvtps2pdVex256C4 :
    vecAfter 10 (step (code (withV ready 12 0x41200000FF800000008000007F7FFFFF#512)
      [0xC4#8, 0x41#8, 0x7C#8, 0x5A#8, 0xD4#8])) =
      some 0x4024000000000000FFF0000000000000381000000000000047EFFFFFE0000000#512 := by decide +kernel

/-- M14: no flag, no fault, with Invalid unmasked. -/
theorem test_vcvtps2pdEvex512Sae_suppresses :
    let o := exec (.vcvtps2pdEvex512Sae (saeReg 5 6)) { withV ready 6
      0xFFC00000000000000000000000000000000000003F800000000000017F800001#512 with mxcsr := 0x1F00#32 }
    vecAfter 5 o = some 0xFFF800000000000000000000000000000000000000000000000000000000000000000000000000003FF000000000000036A00000000000007FF8000020000000#512 ∧
    ctlAfter o = some (0x1F00#32, 0x1006#64) := by decide +kernel

/-- E23 without AVX512VL: executes. With `sae_ignores_LL` false: refused (R56). -/
theorem test_vcvtps2pdEvex512Sae_parameters :
    isNext (exec (.vcvtps2pdEvex512Sae (saeReg 1 2)) (withLevel ready .avx512f)) = true ∧
    refusal (exec (.vcvtps2pdEvex512Sae (saeReg 1 2))
      { ready with cfg := { ready.cfg with saeIgnoresLL := false } }) = some .saeVectorLength := by decide +kernel

/-- M8: merging under `K[2]`, an unselected SNaN signals nothing. -/
theorem test_vcvtps2pdEvex128_merging :
    let o := exec (.vcvtps2pdEvex128 { evexReg 17 30 with aaa := 2#3 })
      (withK (withV (withV ready 30 0x7FA000003DCCCCCD#512) 17 0x171717171717171717171717171717171717#512) 2 1#64)
    vecAfter 17 o = some 0x17171717171717173FB99999A0000000#512 ∧ ctlAfter o = some (0x1F80#32, 0x1006#64) := by
  decide +kernel

/-- M7: nothing selected, nothing mapped, no fault. -/
theorem test_vcvtps2pdEvex128_none_selected :
    vecAfter 0 (exec (.vcvtps2pdEvex128 { evexReg 0 0 with aaa := 1#3, src := .mem false (.base 0 .none) })
      (withK (withV (withX (onlyMapped ready 1 0) 0 0xDEAD0000#64) 0 ones) 1 0xFC#64)) =
      some (ones &&& lowMask 128) := by decide +kernel

/-- The state of M12 and M13: only `2FF8h` to `2FFFh` mapped. -/
def m12 (k : Word) : State :=
  withBytes (withK (withX (onlyMapped ready 0x2FF8 0x2FFF) 0 0x2FF8#64) 1 k) 0x2FF8#64
    [0#8, 0#8, 0x80#8, 0x3F#8, 0#8, 0#8, 0#8, 0x40#8]

def m12Op : EvexOp := { evexReg 0 0 with aaa := 1#3, src := .mem false (.base 0 .none) }

/-- M12: the unmapped bytes belong to unselected elements. -/
theorem test_vcvtps2pdEvex256_fault_suppressed :
    vecAfter 0 (exec (.vcvtps2pdEvex256 m12Op) (withV (m12 3#64) 0 ones)) =
      some 0x1111111111111111111111111111111140000000000000003FF0000000000000#512 := by decide +kernel

/-- M13: #PF at `3000h`; the user bit is set at `CPL = 3`. -/
theorem test_vcvtps2pdEvex256_page_fault :
    faultInfo (exec (.vcvtps2pdEvex256 m12Op) { m12 7#64 with cpl := 3#2 }) =
      some (14, some 4#32, some 0x3000#64) := by decide +kernel

/-- M3, with the mask bits of M4: elements 0, 2 and 5, merging. -/
theorem test_vcvtps2pdEvex512_merging :
    vecAfter 1 (exec (.vcvtps2pdEvex512 { evexReg 1 2 with aaa := 1#3 })
      (withK (withV (withV ready 2 eight) 1 ones) 1 0xFF25#64)) =
      some 0x111111111111111111111111111111114024000000000000111111111111111111111111111111114008000000000000_11111111111111113FF0000000000000#512 := by
  decide +kernel

/-- M10: a broadcast from `[rax - 4]`, disp8 scaled by 4. -/
theorem test_vcvtps2pdEvex512_broadcast :
    (vecAfter 1 (step (code (withBytes (withX (onlyMapped ready 0x5000 0x5003) 0 0x5004#64) 0x5000#64
      [0x79#8, 0xE9#8, 0xF6#8, 0xC2#8]) [0x62#8, 0xF1#8, 0x7C#8, 0x58#8, 0x5A#8, 0x48#8, 0xFF#8]))).map
        (fun v => (elem64 v 0, elem64 v 7)) = some (0xC05EDD2F20000000#64, 0xC05EDD2F20000000#64) := by decide +kernel

/-- E36: #UD. -/
theorem test_vcvtps2pdEvexReservedLL11_ud :
    faultInfo (exec (.vcvtps2pdEvexReservedLL11 (evexReg 1 2)) ready) = some (6, none, none) := by decide +kernel

/-! ### Exceptions -/

/-- X2: Denormal unmasked and `CR4.OSXMMEXCPT = 0`: #UD, both flags recorded. -/
theorem test_ud_in_place_of_xm :
    let s := { withV ready 2 0x7F80000100000001#512 with mxcsr := 0x1E80#32, cr4 := 0x40200#64 }
    let o := exec (.cvtps2pd ⟨plain, none, 1, .reg 2⟩) s
    faultInfo o = some (6, none, none) ∧ faultState o = some { s with mxcsr := 0x1E83#32 } := by decide +kernel

/-- X9: a non-canonical address is #GP, through `RBP` #SS. -/
theorem test_non_canonical :
    faultInfo (exec (memOp (.base 0 .none)) (withX ready 0 0x800000000000#64)) = some (13, some 0#32, none) ∧
    faultInfo (exec (memOp (.base 5 (.d8 0#8))) (withX ready 5 0x800000000000#64)) = some (12, some 0#32, none) := by
  decide +kernel

/-- A limit of `1FFFh` in `Mode32` (R37): the operand's eighth byte decides. -/
theorem test_limit_mode32 :
    let s := { ready32 with segs := { ready32.segs with ds := { ready32.segs.ds with limit := 0x1FFF#32 } } }
    let i : Instr := .cvtps2pd ⟨plain, none, 1, .mem (.base 0 .none)⟩
    isNext (exec i (withX s 0 0x1FF8#64)) = true ∧
    faultInfo (exec i (withX s 0 0x1FF9#64)) = some (13, some 0#32, none) := by decide +kernel

/-- U11: more than fifteen bytes are #GP(0), with a REX byte before a legacy prefix or two `67` too; a string of fewer is
refused (log entry 34). -/
theorem test_length_limit :
    faultInfo (step (code ready (List.replicate 13 0x2E#8 ++ [0x48#8, 0x2E#8, 0x0F#8, 0x5A#8, 0xCA#8]))) =
      some (13, some 0#32, none) ∧
    faultInfo (step (code ready32 (List.replicate 13 0x67#8 ++ [0x0F#8, 0x5A#8, 0xC1#8]))) =
      some (13, some 0#32, none) ∧
    refusal (step (code ready [0x48#8, 0x2E#8, 0xC5#8, 0xF8#8, 0x5A#8, 0xCA#8])) =
      some (.notDecoded .rexNotAdjacent) ∧
    refusal (step (code ready [0xF0#8, 0x2E#8, 0x2E#8, 0x0F#8, 0x5A#8, 0x00#8])) =
      some (.notDecoded .redundantPrefix) := by decide +kernel

/-- X4 (R120, D23): #PF leaves the state as it was, `CR2` with it. -/
theorem test_page_fault_leaves_cr2 :
    let s := { onlyMapped ready 1 0 with cr2 := 0x55#64 }
    faultState (exec (memOp (.base 0 .none)) s) = some s := by decide +kernel

/-- D22: #GP of the byte at `800000000000h` before #PF of every byte below it. -/
theorem test_gp_before_pf :
    faultInfo (exec (memOp (.base 0 .none)) (withX (onlyMapped ready 1 0) 0 0x7FFFFFFFFFFC#64)) =
      some (13, some 0#32, none) := by decide +kernel

/-- The launch premise on alignment checking (D7) refuses a register form; `Translate`'s #AC has no force on a fetch (log
entry 35). -/
theorem test_alignment_premise :
    let s := code (withV ready 2 0x400000003F800000#512) [0x0F#8, 0x5A#8, 0xCA#8]
    let ac := { s with cfg := { s.cfg with translate := { rules := [], otherwise := .ac } } }
    refusal (step { s with cpl := 3#2, cr0 := 0x80040001#64, rflags := 0x40002#64 }) = some .alignmentUnsettled ∧
    isNext (step ac) = true := by decide +kernel

/-- U22: a performance counter that is on is refused. -/
theorem test_performance_premise :
    refusal (step { code ready [0x0F#8, 0x5A#8, 0xCA#8] with perfCounting := true }) = some .performanceCounting := by
  decide +kernel

/-- U19: `MXCSR.DAZ = 1` is refused on a processor without DAZ, and runs on one with it. -/
theorem test_daz_premise :
    let s := { code ready [0x0F#8, 0x5A#8, 0xCA#8] with mxcsr := 0x1FC0#32 }
    refusal (step { s with cfg := { s.cfg with supportsDAZ := false } }) = some .mxcsrReserved ∧
    isNext (step s) = true := by decide +kernel

/-! ### Witnesses: concrete data that meet the hypotheses of each statement together -/

/-- A Boolean form of `NoUnmasked`, for all elements. -/
def quiet (s : State) (kl : Nat) (bits : Nat → Single) : Bool :=
  (List.range kl).all fun j =>
    (!(cvt (bits j) (mxcsrDAZ s.mxcsr)).ie || mxcsrIM s.mxcsr) &&
    (!(cvt (bits j) (mxcsrDAZ s.mxcsr)).de || mxcsrDM s.mxcsr)

theorem noUnmasked_of_quiet {s : State} {kl : Nat} {bits : Nat → Single} (h : quiet s kl bits = true)
    (sel : Nat → Prop) : NoUnmasked s kl sel bits := by
  intro j hj _
  have hq := List.all_eq_true.mp h j (List.mem_range.mpr hj)
  revert hq
  cases (cvt (bits j) (mxcsrDAZ s.mxcsr)).ie <;> cases (cvt (bits j) (mxcsrDAZ s.mxcsr)).de <;>
    cases mxcsrIM s.mxcsr <;> cases mxcsrDM s.mxcsr <;> simp

/-- A Boolean form of `HighZero` for registers. -/
theorem highZero_of_and {w n : Nat} {x : BitVec w} (h : x >>> n = 0#w) : HighZero n x := by
  intro b hb
  have hx : (x >>> n).getLsbD (b - n) = false := by rw [h]; exact BitVec.getLsbD_zero
  rw [BitVec.getLsbD_ushiftRight] at hx
  rwa [show n + (b - n) = b by omega] at hx

theorem inv_of_checks {s : State} (hm : memWf s.mem = true)
    (hv : ∀ n : Fin 32, s.v[n] >>> s.cfg.maxVl = 0#512 ∧ (physicalVecRegs s.cfg ≤ n.val → s.v[n] = 0#512))
    (hk : ∀ n : Fin 8, s.k[n] >>> s.cfg.opmaskBits = 0#64) (hx : mxcsrReservedBits s.mxcsr = 0#16)
    (hp : s.opMode = .run .mode32 → s.pc.toNat < 2 ^ 32) : Inv s :=
  ⟨hm, fun n => highZero_of_and (hv n).1, fun n => (hv n).2, fun n => highZero_of_and (hk n), hx, hp⟩

/-- V1's code and source, at 1000h. -/
def runnable : State := code (withV ready 2 0x400000003F800000#512) [0x0F#8, 0x5A#8, 0xCA#8]

theorem test_witness_StepKeepsInvariant : Inv runnable ∧ ∃ t, step runnable = .next t :=
  ⟨inv_of_checks (by decide +kernel) (by decide +kernel) (by decide +kernel) (by decide +kernel)
    (by decide +kernel), next_of_isNext (by decide +kernel)⟩

/-- The same of a `Mode32` state without AVX whose `pc` is the last address. -/
theorem test_witness_StepKeepsInvariant_boundary :
    let s := withLevel { code (withBytes ready32 0#64 [0x5A#8, 0xCA#8]) [] with pc := 0xFFFFFFFF#64 } .sse2
    let t := withBytes s 0xFFFFFFFF#64 [0x0F#8]
    Inv t ∧ ∃ u, step t = .next u :=
  ⟨inv_of_checks (by decide +kernel) (by decide +kernel) (by decide +kernel) (by decide +kernel)
    (by decide +kernel), next_of_isNext (by decide +kernel)⟩

theorem test_witness_StepRunsDecodedInstruction :
    runnable.opMode = .run .mode64 ∧ premiseRefusal runnable = none ∧
    decode .mode64 (fetchBytes runnable .mode64).1 =
      .instr (.cvtps2pd ⟨plain, none, 1, .reg 2⟩) (List.replicate 12 0#8) := by decide +kernel

/-- Fifteen prefix bytes; a REX byte and fourteen; and three, after which the fetch faults. -/
theorem test_witness_EndlessPrefixesFault :
    let s := code ready (List.replicate 15 0x2E#8)
    let r := code ready (0x48#8 :: List.replicate 14 0x2E#8)
    let u := { s with cfg := { s.cfg with translate := {
      rules := [⟨0x1000, 0x1002, none, none, none, .ok⟩], otherwise := .pf false false false } } }
    s.opMode = .run .mode64 ∧ premiseRefusal s = none ∧
    (∀ b ∈ (fetchBytes s .mode64).1, isPrefixByte b = true ∨ isRexByte .mode64 b = true) ∧
    (fetchBytes s .mode64).2 = none ∧
    r.opMode = .run .mode64 ∧ premiseRefusal r = none ∧
    (∀ b ∈ (fetchBytes r .mode64).1, isPrefixByte b = true ∨ isRexByte .mode64 b = true) ∧
    (fetchBytes r .mode64).2 = none ∧
    u.opMode = .run .mode64 ∧ premiseRefusal u = none ∧
    (∀ b ∈ (fetchBytes u .mode64).1, isPrefixByte b = true ∨ isRexByte .mode64 b = true) ∧
    (fetchBytes u .mode64).1.length = 3 ∧
    (fetchBytes u .mode64).2 = some (.fault (.pageFault 0#32 0x1003#64 u)) := by
  decide +kernel

theorem test_witness_StepRefusesUndecoded :
    let s := code ready [0x66#8, 0x0F#8, 0x5A#8, 0xCA#8]
    s.opMode = .run .mode64 ∧ premiseRefusal s = none ∧
    decode .mode64 (fetchBytes s .mode64).1 = .refused .notThisInstruction := by decide +kernel

theorem test_witness_OtherModesRefused : ∀ m, State.reset.opMode ≠ .run m := by
  intro m h
  cases h

theorem test_witness_LaunchPremisesRequired :
    ({ ready with rflags := 0x102#64 } : State).rflags.getLsbD 8 = true ∧
    ({ ready with dbg := { ready.dbg with dr7 := 0x401#64 } } : State).dbg.dr7.extractLsb' 0 8 ≠ 0#8 ∧
    ({ ready with perfCounting := true } : State).perfCounting = true ∧
    mxcsrReservedBits ({ ready with mxcsr := 0x80001F80#32 } : State).mxcsr ≠ 0#16 ∧
    ({ ready with mxcsr := 0x1FC0#32 } : State).mxcsr.getLsbD 6 = true ∧
    ({ ready with cfg := { ready.cfg with supportsDAZ := false } } : State).cfg.supportsDAZ = false ∧
    ({ ready with cr0 := 0x80040001#64 } : State).cr0.getLsbD 18 = true ∧
    ({ ready with rflags := 0x40002#64 } : State).rflags.getLsbD 18 = true ∧
    ({ ready with cpl := 3#2 } : State).cpl = 3#2 := by decide +kernel

/-- One instruction of each format, and its bytes' decoding. -/
theorem test_witness_DecodeOfEncodeIsInstruction :
    (Instr.cvtps2pd (regOp 15 0)).wf .mode64 = true ∧
    (Instr.vcvtps2pdVex128C5 (vexReg 15 7)).wf .mode64 = true ∧
    (Instr.vcvtps2pdVex256C4 (vexReg 7 7)).wf .mode32 = true ∧
    (Instr.vcvtps2pdEvex512Sae (saeReg 31 31)).wf .mode64 = true ∧
    (Instr.vcvtps2pdEvex256 m12Op).wf .mode64 = true := by decide

/-- Also of `DecoderTakesFirstMatchingRow` and `DecodedLengthIsConsumed`, whose further hypotheses it meets; the
shortest and the longest instruction. -/
theorem test_witness_DecodedInstructionsAreWellFormed :
    decode .mode64 [0x0F#8, 0x5A#8, 0xC1#8, 0x90#8] = .instr (.cvtps2pd ⟨plain, none, 0, .reg 1⟩) [0x90#8] ∧
    (prefixesOf (.cvtps2pd ⟨plain, none, 0, .reg 1⟩)).lock = false ∧
    badPrefixOf (.cvtps2pd ⟨plain, none, 0, .reg 1⟩) = false ∧
    (Instr.vcvtps2pdEvex512 { evexReg 0 0 with
      pre := ⟨some .ss, true, false⟩, src := .mem false (.sib 0 (some 1) 3#2 (.d32 256#32)) }).len = 13 := by decide

theorem test_witness_RepeatedPrefixesRefused :
    (∀ b ∈ [0x2E#8, 0x3E#8], isPrefixByte b = true) ∧ 2 ≤ [0x2E#8, 0x3E#8].countP isSegByte ∧
    (∀ b ∈ [0x67#8, 0x2E#8, 0x67#8], isPrefixByte b = true) ∧ 2 ≤ [0x67#8, 0x2E#8, 0x67#8].count 0x67#8 := by decide

/-- With `F0` too. -/
theorem test_witness_MandatoryPrefixIsAnotherInstruction :
    (∀ b ∈ [0x2E#8, 0xF3#8], isPrefixByte b = true) ∧ 0xF3#8 ∈ [0x2E#8, 0xF3#8] ∧
    (∀ b ∈ [0xF0#8, 0x66#8], isPrefixByte b = true) ∧ 0x66#8 ∈ [0xF0#8, 0x66#8] ∧
    (0x48#8).extractLsb' 4 4 = 4#4 := by decide

/-- One value of each class (R74). -/
theorem test_witness_Cvt :
    FiniteSingle 0x7F7FFFFF#32 ∧ singleClass 0x80000000#32 = .zero ∧ singleClass 0x00800000#32 = .normal ∧
    singleClass 0xFF800000#32 = .infinity ∧ singleClass 0x00000001#32 = .denormal ∧
    singleClass 0x807FFFFF#32 = .denormal ∧ singleClass 0x7FFFFFFF#32 = .qnan ∧ singleClass 0xFFC00000#32 = .qnan ∧
    singleClass 0x7F800001#32 = .snan ∧ singleClass 0x7FBFFFFF#32 = .snan := by
  refine ⟨?_, ?_⟩
  · unfold FiniteSingle
    decide
  · decide

/-! #### Completion -/

def legacyReg : LegacyOp := ⟨plain, none, 1, .reg 2⟩
def legacyMem : LegacyOp := ⟨plain, none, 1, .mem (.base 0 .none)⟩
def vexMem : VexOp := ⟨plain, false, false, 15#4, 1, .mem (.base 0 .none)⟩

theorem test_witness_LegacyConvertsTwo_register :
    runnable.opMode = .run .mode64 ∧ LegacyEnabled legacyReg runnable ∧
    SourceReadable runnable .mode64 legacyReg.pre legacyReg.len 8 legacyReg.src ∧
    NoUnmasked runnable 2 (fun _ => True)
      (fun j => sourceBits runnable .mode64 legacyReg.pre legacyReg.len j legacyReg.src) ∧
    PcFits runnable .mode64 legacyReg.len :=
  ⟨by decide +kernel, by constructor <;> decide +kernel, trivial, noUnmasked_of_quiet (by decide +kernel) _, by
    intro _
    decide +kernel⟩

/-- Eight bytes and no more are mapped; `pc + 4` is the last address; the source signals both conditions, masked. -/
def edge : State :=
  { withBytes (withX (onlyMapped ready 0x2001 0x2008) 0 0x2001#64) 0x2001#64
      [1#8, 0#8, 0x80#8, 0x7F#8, 1#8, 0#8, 0#8, 0#8] with pc := 0xFFFFFFFFFFFFFFFB#64 }

theorem test_witness_LegacyConvertsTwo_memory :
    edge.opMode = .run .mode64 ∧ LegacyEnabled legacyMem edge ∧
    SourceReadable edge .mode64 legacyMem.pre legacyMem.len 8 legacyMem.src ∧
    NoUnmasked edge 2 (fun _ => True)
      (fun j => sourceBits edge .mode64 legacyMem.pre legacyMem.len j legacyMem.src) ∧
    PcFits edge .mode64 legacyMem.len :=
  ⟨by decide +kernel, by constructor <;> decide +kernel, ⟨by decide +kernel, by decide +kernel⟩,
    noUnmasked_of_quiet (by decide +kernel) _, by
      intro _
      decide +kernel⟩

theorem test_witness_Vex128ConvertsTwo :
    edge.opMode = .run .mode64 ∧ VexEnabled vexMem edge ∧
    SourceReadable edge .mode64 vexMem.pre (vexMem.len 2) 8 vexMem.src ∧
    NoUnmasked edge 2 (fun _ => True)
      (fun j => sourceBits edge .mode64 vexMem.pre (vexMem.len 2) j vexMem.src) ∧
    PcFits edge .mode64 (vexMem.len 2) :=
  ⟨by decide +kernel, by constructor <;> decide +kernel, ⟨by decide +kernel, by decide +kernel⟩,
    noUnmasked_of_quiet (by decide +kernel) _, by
      intro _
      decide +kernel⟩

/-- V5, in a state with AVX and no AVX-512. -/
theorem test_witness_Vex256ConvertsFour :
    let s := withLevel (withV ready 2 0xC0A0000040400000400000003F800000#512) .avx
    s.opMode = .run .mode64 ∧ VexEnabled (vexReg 1 2) s ∧
    SourceReadable s .mode64 plain ((vexReg 1 2).len 3) 16 (vexReg 1 2).src ∧
    NoUnmasked s 4 (fun _ => True)
      (fun j => sourceBits s .mode64 plain ((vexReg 1 2).len 3) j (vexReg 1 2).src) ∧
    PcFits s .mode64 ((vexReg 1 2).len 3) :=
  ⟨by decide +kernel, by constructor <;> decide +kernel, trivial, noUnmasked_of_quiet (by decide +kernel) _, by
    intro _
    decide +kernel⟩

theorem fieldsOk_m12 : EvexFieldsOk m12Op := by
  constructor <;> first | rfl | (intro _; decide)

/-- M12: the bytes of the unselected elements are not mapped. -/
theorem test_witness_Evex256ConvertsUnderMask :
    (m12 3#64).opMode = .run .mode64 ∧ Avx512Enabled (m12 3#64) ∧ (m12 3#64).cfg.hasAVX512VL = true ∧
    EvexFieldsOk m12Op ∧ EvexReadable (m12 3#64) .mode64 m12Op.pre m12Op.len 4 m12Op.aaa m12Op.src ∧
    NoUnmasked (m12 3#64) 4 (Selected (m12 3#64) m12Op.aaa)
      (fun j => evexBits (m12 3#64) .mode64 m12Op.pre m12Op.len 4 j m12Op.src) ∧
    PcFits (m12 3#64) .mode64 m12Op.len := by
  refine ⟨by decide +kernel, by constructor <;> decide +kernel, by decide +kernel, fieldsOk_m12, ⟨by decide +kernel, ?_⟩,
    noUnmasked_of_quiet (by decide +kernel) _, ?_⟩
  · unfold Selected
    decide +kernel
  · intro _
    decide +kernel

/-- A broadcast operand of four bytes, at `2004h`. -/
def bcstOp : EvexOp := { evexReg 4 0 with z := true, aaa := 3#3, src := .mem true (.base 0 (.d8 1#8)) }

def bcst : State :=
  withBytes (withK (withX (onlyMapped ready 0x2004 0x2007) 0 0x2000#64) 3 5#64) 0x2004#64 [0#8, 0#8, 0x80#8, 0x3F#8]

theorem test_witness_Evex128ConvertsUnderMask :
    bcst.opMode = .run .mode64 ∧ Avx512Enabled bcst ∧ bcst.cfg.hasAVX512VL = true ∧ EvexFieldsOk bcstOp ∧
    EvexReadable bcst .mode64 bcstOp.pre bcstOp.len 2 bcstOp.aaa bcstOp.src ∧
    NoUnmasked bcst 2 (Selected bcst bcstOp.aaa)
      (fun j => evexBits bcst .mode64 bcstOp.pre bcstOp.len 2 j bcstOp.src) ∧
    PcFits bcst .mode64 bcstOp.len := by
  refine ⟨by decide +kernel, by constructor <;> rfl, by decide +kernel, ?_, ⟨by decide +kernel, ?_⟩,
    noUnmasked_of_quiet (by decide +kernel) _, ?_⟩
  · constructor <;> first | rfl | (intro _; decide)
  · unfold Selected
    decide +kernel
  · intro _
    decide +kernel

/-- M1's source, no mask, without AVX512VL. -/
theorem test_witness_Evex512ConvertsUnderMask :
    let s := withLevel (withV ready 2 eight) .avx512f
    s.opMode = .run .mode64 ∧ Avx512Enabled s ∧ EvexFieldsOk (evexReg 1 2) ∧
    EvexReadable s .mode64 plain (evexReg 1 2).len 8 0#3 (evexReg 1 2).src ∧
    NoUnmasked s 8 (Selected s 0#3) (fun j => evexBits s .mode64 plain (evexReg 1 2).len 8 j (evexReg 1 2).src) ∧
    PcFits s .mode64 (evexReg 1 2).len := by
  refine ⟨by decide +kernel, by constructor <;> rfl, ?_, trivial, noUnmasked_of_quiet (by decide +kernel) _, ?_⟩
  · constructor <;> first | rfl | (intro h; cases h)
  · intro _
    decide +kernel

/-- M14's `MXCSR`. -/
theorem test_witness_SaeConvertsWithoutFlags :
    let s := { withV ready 2 eight with mxcsr := 0x1F00#32 }
    s.opMode = .run .mode64 ∧ Avx512Enabled s ∧ SaeFieldsOk (saeReg 1 2) ∧
    (s.cfg.saeIgnoresLL = true ∨ (saeReg 1 2).ll = 2#2) ∧ PcFits s .mode64 (saeReg 1 2).len := by
  refine ⟨by decide +kernel, by constructor <;> rfl, ?_, Or.inl rfl, ?_⟩
  · constructor <;> first | rfl | (intro h; cases h)
  · intro _
    decide +kernel

/-- The statement's second way: `L'L = 10` where `sae_ignores_LL` is false; and its opposite. -/
theorem test_witness_SaeVectorLengthParameter :
    let s := { ready with cfg := { ready.cfg with saeIgnoresLL := false } }
    s.cfg.saeIgnoresLL = false ∧ (saeReg 1 2).ll ≠ 2#2 ∧ ({ saeReg 1 2 with ll := 2#2 } : SaeOp).ll = 2#2 := by
  decide +kernel

/-- M7: `K[1] = FCh`, nothing mapped. -/
theorem test_witness_NothingSelectedAccessesNothing :
    let s := withK (onlyMapped ready 1 0) 1 0xFC#64
    s.opMode = .run .mode64 ∧ s.cfg.hasAVX512VL = true ∧ Avx512Enabled s ∧ EvexFieldsOk m12Op ∧
    PcFits s .mode64 m12Op.len ∧ ∀ j, j < 2 → ¬ Selected s 1#3 j := by
  refine ⟨by decide +kernel, by decide +kernel, by constructor <;> rfl, fieldsOk_m12, ?_, ?_⟩
  · intro _
    decide +kernel
  · unfold Selected
    decide +kernel

/-- The same for four and eight elements. -/
theorem test_witness_NothingSelectedAccessesNothing_wider :
    let s := withK (onlyMapped ready 1 0) 1 0xFF00#64
    (∀ j, j < 4 → ¬ Selected s 1#3 j) ∧ ∀ j, j < 8 → ¬ Selected s 1#3 j := by
  unfold Selected
  decide +kernel

/-! #### Every next state -/

/-- Also of `FlagsAreOnlyOredIn` and `CompletionAdvancesPc`; one instruction of each shape. -/
theorem test_witness_CompletionChangesOnlyItsDestination :
    (∃ t, exec (.cvtps2pd ⟨plain, none, 1, .mem (.base 0 .none)⟩) edge = .next t) ∧
    (∃ t, exec (.vcvtps2pdVex128C5 ⟨plain, false, false, 15#4, 1, .reg 2⟩) ready = .next t) ∧
    (∃ t, exec (.vcvtps2pdVex256C4 (vexReg 1 2)) ready = .next t) ∧
    (∃ t, exec (.vcvtps2pdEvex512Sae (saeReg 1 2)) ready = .next t) ∧
    (∃ t, exec (.vcvtps2pdEvex256 m12Op) (m12 3#64) = .next t) :=
  ⟨next_of_isNext (by decide +kernel), next_of_isNext (by decide +kernel), next_of_isNext (by decide +kernel),
    next_of_isNext (by decide +kernel), next_of_isNext (by decide +kernel)⟩

/-- `pc` wraps in `Mode32`. -/
theorem test_witness_CompletionAdvancesPc_mode32 :
    ∃ t, exec (.cvtps2pd ⟨plain, none, 1, .reg 2⟩) { ready32 with pc := 0xFFFFFFFE#64 } = .next t ∧ t.pc = 1#64 := by
  obtain ⟨t, ht⟩ := next_of_isNext (o := exec (.cvtps2pd ⟨plain, none, 1, .reg 2⟩)
    { ready32 with pc := 0xFFFFFFFE#64 }) (by decide +kernel)
  refine ⟨t, ht, ?_⟩
  have h : ctlAfter (exec (.cvtps2pd ⟨plain, none, 1, .reg 2⟩) { ready32 with pc := 0xFFFFFFFE#64 }) =
      some (0x1F80#32, 1#64) := by decide +kernel
  rw [ht] at h
  exact congrArg Prod.snd (Option.some.inj h)

/-- The highest registers of `Mode64`, without and with AVX-512. -/
theorem test_witness_ExecutedRegistersExist :
    decode .mode64 [0x45#8, 0x0F#8, 0x5A#8, 0xFF#8] = .instr (.cvtps2pd ⟨plain, some false, 15, .reg 15⟩) [] ∧
    (∃ t, exec (.cvtps2pd ⟨plain, some false, 15, .reg 15⟩) (withLevel ready .sse2) = .next t) ∧
    decode .mode64 [0x62#8, 0x01#8, 0x7C#8, 0x48#8, 0x5A#8, 0xFF#8] =
      .instr (.vcvtps2pdEvex512 (evexReg 31 31)) [] ∧
    (∃ t, exec (.vcvtps2pdEvex512 (evexReg 31 31)) ready = .next t) :=
  ⟨by decide, next_of_isNext (by decide +kernel), by decide, next_of_isNext (by decide +kernel)⟩

/-- Also of `PrivilegeLevelIrrelevant` and `RoundingAndFlushIrrelevant` (`x` differs in RC and FTZ). -/
theorem test_witness_AliasedSourceIsReadFirst :
    operandOf (.vcvtps2pdEvex512 (evexReg 1 1)) = .reg (dstOf (.vcvtps2pdEvex512 (evexReg 1 1))) ∧
    (∃ t, exec (.vcvtps2pdEvex512 (evexReg 1 1)) ready = .next t) ∧
    (∀ b, b = 6 ∨ b = 7 ∨ b = 8 → (0xFF80#32).getLsbD b = ready.mxcsr.getLsbD b) := by
  refine ⟨by decide, next_of_isNext (by decide +kernel), ?_⟩
  rintro b (rfl | rfl | rfl) <;> decide +kernel

/-- Other opmask contents, with the same bits 3:0 of `K[1]`; and with none the same where `aaa = 000`. -/
theorem test_witness_OnlyWritemaskBitsMatter :
    let k' := (Vector.replicate 8 0xFFFFFFFFFFFFFFFF#64).set 1 0xF3#64
    (∀ j, j < 4 → (k'[1]).getLsbD j = ((m12 3#64).k[1]).getLsbD j) ∧ k' ≠ (m12 3#64).k ∧
    (∃ t, exec (.vcvtps2pdEvex256 m12Op) (m12 3#64) = .next t) ∧
    (∃ t, exec (.vcvtps2pdEvex128 (evexReg 1 2)) ready = .next t) :=
  ⟨by decide +kernel, by decide +kernel, next_of_isNext (by decide +kernel), next_of_isNext (by decide +kernel)⟩

/-! #### Exceptions -/

/-- E33 after a segment override, the same with the three-byte VEX, E34, and E34 with `{sae}`. -/
theorem test_witness_VvvvMustBeOnes :
    ready.opMode = .run .mode64 ∧ (∀ b ∈ [0x64#8], isPrefixByte b = true) ∧
    decode .mode64 ([0x64#8] ++ 0xC5#8 :: 0xF0#8 :: [0x5A#8, 0xCA#8]) =
      .instr (.vcvtps2pdVex128C5 { vexReg 1 2 with pre := ⟨some .fs, false, false⟩, vvvv := 14#4 }) [] ∧
    decode .mode64 ([] ++ 0xC4#8 :: 0xE1#8 :: 0x70#8 :: [0x5A#8, 0xCA#8]) =
      .instr (.vcvtps2pdVex128C4 { vexReg 1 2 with vvvv := 14#4 }) [] ∧
    decode .mode64 ([] ++ 0x62#8 :: 0xF1#8 :: 0x74#8 :: 0x48#8 :: [0x5A#8, 0xCA#8]) =
      .instr (.vcvtps2pdEvex512 { evexReg 1 2 with vvvv := 14#4 }) [] ∧
    decode .mode64 ([] ++ 0x62#8 :: 0xF1#8 :: 0x04#8 :: 0x18#8 :: [0x5A#8, 0xCA#8]) =
      .instr (.vcvtps2pdEvex512Sae { saeReg 1 2 with vvvv := 0#4 }) [] ∧
    (0xF0#8).extractLsb' 3 4 ≠ 15#4 ∧ (0x70#8).extractLsb' 3 4 ≠ 15#4 ∧ (0x74#8).extractLsb' 3 4 ≠ 15#4 ∧
    (0x04#8).extractLsb' 3 4 ≠ 15#4 := by decide +kernel

theorem test_witness_VvvvMustBeOnes_accepted :
    SaeAccepted ready (.vcvtps2pdEvex512Sae { saeReg 1 2 with vvvv := 0#4 }) ∧
    SaeAccepted ready (.vcvtps2pdEvex512 { evexReg 1 2 with vvvv := 14#4 }) := ⟨Or.inl rfl, trivial⟩

/-- E40. -/
theorem test_witness_LockIsUd :
    ready.opMode = .run .mode64 ∧ SaeAccepted ready (.cvtps2pd ⟨⟨none, false, true⟩, none, 0, .mem (.base 0 .none)⟩) ∧
    decode .mode64 [0xF0#8, 0x0F#8, 0x5A#8, 0x00#8] =
      .instr (.cvtps2pd ⟨⟨none, false, true⟩, none, 0, .mem (.base 0 .none)⟩) [] ∧
    0xF0#8 ∈ [0xF0#8, 0x0F#8, 0x5A#8, 0x00#8].takeWhile isPrefixByte :=
  ⟨by decide +kernel, trivial, by decide, by decide⟩

/-- Each condition of R109 items 2 and 4 alone. -/
theorem test_witness_LegacyUdConditions :
    (withLevel ready .preSse2).cfg.hasSSE2 = false ∧ ({ ready with cr0 := 4#64 } : State).cr0.getLsbD 2 = true ∧
    State.reset.cr4.getLsbD 9 = false := by decide +kernel

/-- Each condition of R109 items 2 and 5 alone. -/
theorem test_witness_VexUdConditions :
    (withLevel ready .sse2).cfg.hasAVX = false ∧ State.reset.cr4.getLsbD 18 = false ∧
    ({ ready with xcr0 := 5#64 } : State).xcr0.getLsbD 1 = false ∧
    ({ ready with xcr0 := 3#64 } : State).xcr0.getLsbD 2 = false ∧
    ({ vexReg 1 2 with badPrefix := true } : VexOp).badPrefix = true := by decide +kernel

/-- Each condition of R109 items 2 and 6 alone; also of `SaeUdConditions`. -/
theorem test_witness_EvexUdConditions :
    ready.opMode = .run .mode64 ∧ (withLevel ready .avx).cfg.hasAVX512F = false ∧
    State.reset.cr4.getLsbD 18 = false ∧
    (∀ b ∈ [1, 2, 5, 6, 7], ({ ready with xcr0 := 0xE7#64 &&& ~~~(1#64 <<< b) } : State).xcr0.getLsbD b = false) ∧
    ({ evexReg 1 2 with badPrefix := true } : EvexOp).badPrefix = true ∧
    ({ evexReg 1 2 with w := true } : EvexOp).w = true ∧
    ({ evexReg 1 2 with vbar := false } : EvexOp).vbar = false ∧
    ({ evexReg 1 2 with z := true } : EvexOp).z = true ∧ ({ evexReg 1 2 with z := true } : EvexOp).aaa = 0#3 ∧
    (withLevel ready .avx512f).cfg.hasAVX512VL = false := by decide +kernel

/-- Without and with a cause for #UD. -/
theorem test_witness_TaskSwitchedIsNmAfterUd :
    let s := { ready with cr0 := 0x80000009#64 }
    s.opMode = .run .mode64 ∧ SaeAccepted s (.cvtps2pd (regOp 0 0)) ∧ s.cr0.getLsbD 3 = true ∧
    (formOf (.cvtps2pd (regOp 0 0)) s).ud = false ∧
    (formOf (.vcvtps2pdEvexReservedLL11 (evexReg 0 0)) s).ud = true :=
  ⟨by decide +kernel, trivial, by decide +kernel, by decide +kernel, by decide +kernel⟩

/-- A Boolean form of `SegmentPasses`, for several bytes. -/
theorem passes_of_checks {s : State} {m : Mode} {seg : SegReg} {off : Word} {l : List Nat}
    (h : (l.all fun t => segmentAllows s m seg .dataRead (byteOffset m off t) (byteAddr s m seg off t) &&
      translateAnswer s.cfg.translate (byteAddr s m seg off t) seg s.cpl .dataRead != .ss &&
      translateAnswer s.cfg.translate (byteAddr s m seg off t) seg s.cpl .dataRead != .gp) = true) :
    ∀ t ∈ l, SegmentPasses s m seg off t := by
  intro t ht
  have hq := List.all_eq_true.mp h t ht
  simp only [Bool.and_eq_true, bne_iff_ne] at hq
  exact ⟨hq.1.1, hq.1.2, hq.2⟩

/-- M13: the first byte of element 2, at `3000h`. -/
theorem test_witness_PageFaultReportsLowestByte :
    let s := m12 7#64
    let i := Instr.vcvtps2pdEvex256 m12Op
    let off := (formOf i s).offset s .mode64 false (.base 0 .none)
    s.opMode = .run .mode64 ∧ (formOf i s).ud = false ∧ s.cr0TS = false ∧
    operandOf i = .mem false (.base 0 .none) ∧ memSeg .mode64 (prefixesOf i) (.base 0 .none) = .ds ∧
    (formOf i s).accessed false = [0, 1, 2, 3, 4, 5, 6, 7] ++ 8 :: [9, 10, 11] ∧
    (∀ u ∈ [0, 1, 2, 3, 4, 5, 6, 7] ++ 8 :: [9, 10, 11], SegmentPasses s .mode64 .ds off u) ∧
    (∀ u ∈ [0, 1, 2, 3, 4, 5, 6, 7],
      translateAnswer s.cfg.translate (byteAddr s .mode64 .ds off u) .ds s.cpl .dataRead = .ok) ∧
    byteAddr s .mode64 .ds off 8 = 0x3000#64 ∧
    translateAnswer s.cfg.translate (byteAddr s .mode64 .ds off 8) .ds s.cpl .dataRead = .pf false false false :=
  ⟨by decide +kernel, by decide +kernel, by decide +kernel, by decide +kernel, by decide +kernel, by decide +kernel,
    passes_of_checks (by decide +kernel), by decide +kernel, by decide +kernel, by decide +kernel⟩

/-- The last canonical byte, and the first that is not: bytes 0 to 3 pass, though nothing is mapped, byte 4 fails, through
`DS` and `SS`. -/
theorem test_witness_SegmentViolationIsSsOrGp_mode64 :
    let s := withX (withX (onlyMapped ready 1 0) 0 0x7FFFFFFFFFFC#64) 5 0x7FFFFFFFFFFC#64
    let i := Instr.cvtps2pd ⟨plain, none, 1, .mem (.base 0 .none)⟩
    let j := Instr.cvtps2pd ⟨plain, none, 1, .mem (.base 5 (.d8 0#8))⟩
    (formOf i s).ud = false ∧ s.cr0TS = false ∧ (formOf i s).accessed false = [0, 1, 2, 3] ++ 4 :: [5, 6, 7] ∧
    memSeg .mode64 plain (.base 0 .none) = .ds ∧ memSeg .mode64 plain (.base 5 (.d8 0#8)) = .ss ∧
    (formOf i s).offset s .mode64 false (.base 0 .none) = 0x7FFFFFFFFFFC#64 ∧
    (formOf j s).offset s .mode64 false (.base 5 (.d8 0#8)) = 0x7FFFFFFFFFFC#64 ∧
    (∀ u ∈ [0, 1, 2, 3], SegmentPasses s .mode64 .ds 0x7FFFFFFFFFFC#64 u) ∧
    (∀ u ∈ [0, 1, 2, 3], SegmentPasses s .mode64 .ss 0x7FFFFFFFFFFC#64 u) ∧
    canonical s.cfg.laWidth (byteAddr s .mode64 .ds 0x7FFFFFFFFFFC#64 4) = false ∧
    canonical s.cfg.laWidth (byteAddr s .mode64 .ss 0x7FFFFFFFFFFC#64 4) = false :=
  ⟨by decide +kernel, by decide +kernel, by decide +kernel, by decide +kernel, by decide +kernel, by decide +kernel,
    by decide +kernel, passes_of_checks (by decide +kernel), passes_of_checks (by decide +kernel), by decide +kernel,
    by decide +kernel⟩

/-- In `Mode32`: a byte past the limit, a null segment, an unreadable one. -/
theorem test_witness_SegmentViolationIsSsOrGp_mode32 :
    let s := { ready32 with segs := { ready32.segs with
      ds := { ready32.segs.ds with limit := 0x1FFF#32 }
      es := { ready32.segs.es with isNull := true }
      fs := { ready32.segs.fs with readable := false } } }
    let t := withX s 0 0x1FFC#64
    let i := Instr.cvtps2pd ⟨plain, none, 1, .mem (.base 0 .none)⟩
    t.opMode = .run .mode32 ∧ (formOf i t).ud = false ∧ t.cr0TS = false ∧
    (formOf i t).accessed false = [0, 1, 2, 3] ++ 4 :: [5, 6, 7] ∧
    (formOf i t).offset t .mode32 false (.base 0 .none) = 0x1FFC#64 ∧
    (∀ u ∈ [0, 1, 2, 3], SegmentPasses t .mode32 .ds 0x1FFC#64 u) ∧
    (t.segs.get .ds).limit.toNat < (byteOffset .mode32 0x1FFC#64 4).toNat ∧
    (t.segs.get .es).isNull = true ∧ (t.segs.get .fs).readable = false :=
  ⟨by decide +kernel, by decide +kernel, by decide +kernel, by decide +kernel, by decide +kernel,
    passes_of_checks (by decide +kernel), by decide +kernel, by decide +kernel, by decide +kernel⟩

/-- X1: an unmasked Invalid; X2: an unmasked Denormal. -/
theorem test_witness_UnmaskedConditionFaults :
    let s := { withV ready 2 0x7F80000100000001#512 with mxcsr := 0x1F00#32 }
    let t := { s with mxcsr := 0x1E80#32 }
    let i := Instr.vcvtps2pdVex128C5 (vexReg 1 2)
    s.opMode = .run .mode64 ∧ (formOf i s).ud = false ∧ s.cr0TS = false ∧
    (formOf i s).accessCheck s .mode64 = none ∧ (formOf i s).sae = false ∧ 1 ∈ (formOf i s).selected ∧
    singleClass ((formOf i s).sourceElem s .mode64 1) = .snan ∧ mxcsrIM s.mxcsr = false ∧
    0 ∈ (formOf i t).selected ∧ singleClass ((formOf i t).sourceElem t .mode64 0) = .denormal ∧
    mxcsrDAZ t.mxcsr = false ∧ mxcsrDM t.mxcsr = false := by decide +kernel

/-- Faults of vectors 6, 14, 17 and 19. -/
theorem test_witness_FaultsLeaveStateUnchanged :
    let i := Instr.cvtps2pd ⟨plain, none, 1, .mem (.base 0 .none)⟩
    let ac := { withX ready 0 1#64 with
      cpl := 3#2, cr0 := 0x80040001#64, rflags := 0x40002#64
      cfg := { ready.cfg with translate := { rules := [], otherwise := .ac } } }
    let xm := { withV ready 2 0x7F80000100000001#512 with mxcsr := 0x1F00#32 }
    (faultInfo (exec (.vcvtps2pdEvexReservedLL11 (evexReg 1 2)) ready)).map (·.1) = some 6 ∧
    (faultInfo (exec i (onlyMapped ready 1 0))).map (·.1) = some 14 ∧
    (faultInfo (exec i ac)).map (·.1) = some 17 ∧
    (faultInfo (exec (.vcvtps2pdVex128C5 (vexReg 1 2)) xm)).map (·.1) = some 19 := by decide +kernel

/-- No override, and each kind of override. -/
theorem test_witness_SegmentOfMemoryOperand :
    plain.seg = none ∧ (⟨some .fs, false, false⟩ : Prefixes).seg = some .fs ∧
    (⟨some .es, false, false⟩ : Prefixes).seg = some .es := by decide

/-- A program of one instruction, and the empty program. -/
theorem test_witness_RunFinishesAtEndAddress :
    (∃ t, runTo 0x1003#64 1 runnable = .finished t) ∧ ∃ t, runTo 0x1000#64 0 runnable = .finished t := by
  refine ⟨?_, ⟨runnable, ?_⟩⟩
  · obtain ⟨t, ht⟩ := next_of_isNext (o := stepBefore 0x1003#64 runnable) (by decide +kernel)
    have hc : ctlAfter (stepBefore 0x1003#64 runnable) = some (0x1F80#32, 0x1003#64) := by decide +kernel
    rw [ht] at hc
    have hp : t.pc = 0x1003#64 := congrArg Prod.snd (Option.some.inj hc)
    have h0 : runnable.pc ≠ 0x1003#64 := by decide +kernel
    exact ⟨t, by rw [runTo, if_neg h0, ht]; simp [runTo, hp]⟩
  · have h0 : runnable.pc = 0x1000#64 := by decide +kernel
    rw [runTo, if_pos h0]

/-- The program of one instruction; one byte less of it is refused. -/
theorem test_witness_RunStaysInsideProgram :
    runnable.opMode = .run .mode64 ∧ (∃ t, stepBefore 0x1003#64 runnable = .next t) ∧
    refusal (stepBefore 0x1002#64 runnable) = some .programEnd :=
  ⟨by decide +kernel, next_of_isNext (by decide +kernel), by decide +kernel⟩

/-- `0F` at the end of the mapped bytes: #PF at `1001h`, a fetch with I/D; and after twelve prefixes with a ModRM byte that
asks for SIB: #GP(0). -/
theorem test_witness_FetchFaultsArePageFaultOrGp :
    let s := code ready [0x0F#8]
    let u := { s with cfg := { s.cfg with translate := {
      rules := [⟨0x1000, 0x1000, none, none, none, .ok⟩], otherwise := .pf false false true } } }
    let g := code ready (List.replicate 12 0x2E#8 ++ [0x0F#8, 0x5A#8, 0x04#8])
    u.opMode = .run .mode64 ∧ premiseRefusal u = none ∧ decode .mode64 (fetchBytes u .mode64).1 = .truncated ∧
    faultInfo (step u) = some (14, some 16#32, some 0x1001#64) ∧
    premiseRefusal g = none ∧ decode .mode64 (fetchBytes g .mode64).1 = .truncated ∧
    faultInfo (step g) = some (13, some 0#32, none) := by decide +kernel

end Sys2Proof.Tests
end

namespace Sys2Proof.Machine

/-! ### The step where the launch premises hold (00_scope.md R6) -/

/-- The step acts on what the decoder finds in the bytes fetched at `pc`, and on nothing else. -/
theorem step_run {s : State} {m : Mode} (hm : s.opMode = .run m) (hp : premiseRefusal s = none) :
    step s = runDecoded s maxInstrLen (fetchBytes s m).2 (decode m (fetchBytes s m).1) :=
  stepWithin_run hm hp maxInstrLen

/-- A decoded instruction is executed, whatever ended the fetch and whatever bytes follow it. -/
@[simp] theorem runDecoded_instr (s : State) (n : Nat) (fetchStop : Option Stop) (i : Instr) (rest : List Byte) :
    runDecoded s n fetchStop (.instr i rest) = exec i s := rfl

/-- Settles O4: the step is `runDecoded` of the decoder's answer, and for an instruction that is `exec`. -/
theorem stepRunsDecodedInstruction : Obligations.StepRunsDecodedInstruction := by
  intro s m i rest hm hp hd
  rw [step_run hm hp, hd, runDecoded_instr]

end Sys2Proof.Machine

namespace Sys2Proof.Machine

open Sys2Proof.Safety

/-! ### A completed execution (10_state.md R27) -/

@[simp] theorem formOf_dst (i : Instr) (s : State) : (formOf i s).dst = dstOf i := by cases i <;> rfl

@[simp] theorem formOf_src (i : Instr) (s : State) : (formOf i s).src = operandOf i := by cases i <;> rfl

@[simp] theorem formOf_len (i : Instr) (s : State) : (formOf i s).len = i.len := by cases i <;> rfl

/-- An instruction that completes is `convert` of its form; only the `{sae}` row can stop before that. -/
theorem convert_formOf_of_exec_next {i : Instr} {s t : State} (h : exec i s = .next t) :
    convert (formOf i s) s = .next t := by
  cases i with
  | vcvtps2pdEvex512Sae op =>
    simp only [exec, execVcvtps2pdEvex512Sae] at h
    split at h
    · cases h
    · exact h
  | _ => exact h

/-- What an instruction that completes leaves, and what it needed: its form is not #UD and `pc` does not wrap. -/
theorem exec_next_inv {i : Instr} {s t : State} (h : exec i s = .next t) :
    ∃ m, s.opMode = .run m ∧ (formOf i s).ud = false ∧ pcWraps m s.pc i.len = false ∧
      t = (formOf i s).nextState s m := by
  obtain ⟨m, hm, hud, -, -, -, hpc, rfl⟩ := convert_next_inv (convert_formOf_of_exec_next h)
  exact ⟨m, hm, hud, by simpa using hpc, rfl⟩

section NextState

variable (f : Form) (s : State) (m : Mode)

@[simp] theorem Form.nextState_cfg : (f.nextState s m).cfg = s.cfg := rfl
@[simp] theorem Form.nextState_opMode : (f.nextState s m).opMode = s.opMode := rfl
@[simp] theorem Form.nextState_k : (f.nextState s m).k = s.k := rfl
@[simp] theorem Form.nextState_mem : (f.nextState s m).mem = s.mem := rfl
@[simp] theorem Form.nextState_rflags : (f.nextState s m).rflags = s.rflags := rfl
@[simp] theorem Form.nextState_pc : (f.nextState s m).pc = nextPc m s.pc f.len := rfl
@[simp] theorem Form.nextState_mxcsr :
    (f.nextState s m).mxcsr = if f.sae then s.mxcsr else f.flags s m := rfl

theorem Form.nextState_vec_dst :
    (f.nextState s m).v[f.dst] = f.destValue s m &&& lowMask s.cfg.maxVl := State.setVec_get_same s _ _

theorem Form.nextState_vec_other {n : Fin 32} (h : n ≠ f.dst) : (f.nextState s m).v[n] = s.v[n] :=
  State.setVec_get_other s _ _ _ h

theorem Form.nextState_others :
    f.nextState s m =
      { s with v := (f.nextState s m).v, mxcsr := (f.nextState s m).mxcsr, pc := (f.nextState s m).pc } := rfl

theorem Form.nextState_mxcsr_bit {b : Nat} (h : 2 ≤ b) :
    (f.nextState s m).mxcsr.getLsbD b = s.mxcsr.getLsbD b := by
  rw [Form.nextState_mxcsr]
  split
  · rfl
  · exact getLsbD_setFlags_other _ _ _ h

end NextState

/-- Settles O29: the next state is `Form.nextState`, which writes the destination, the flags and `pc`. -/
theorem completionChangesOnlyItsDestination : Obligations.CompletionChangesOnlyItsDestination := by
  intro i s t h
  obtain ⟨m, -, -, -, rfl⟩ := exec_next_inv h
  exact {
    others := Form.nextState_others _ s m
    vec := fun n hn => Form.nextState_vec_other _ s m (by simpa using hn)
    mxcsr := fun b hb => Form.nextState_mxcsr_bit _ s m hb
    memory := fun la => rfl }

/-! ### `MXCSR` (10_state.md R15) -/

/-- Setting flags is OR-ing in the flags that would be set in zero. -/
theorem setFlags_eq_or (x : BitVec 32) (i d : Bool) : setFlags x i d = x ||| setFlags 0#32 i d := by
  simp [setFlags, BitVec.or_assoc]

theorem setFlags_zero_above (i d : Bool) : setFlags 0#32 i d &&& ~~~3#32 = 0#32 := by
  revert i d; decide

/-- Settles O30: the value OR-ed in is zero for `{sae}`, else the flags of the conditions. -/
theorem flagsAreOnlyOredIn : Obligations.FlagsAreOnlyOredIn := by
  intro i s t h
  obtain ⟨m, -, -, -, rfl⟩ := exec_next_inv h
  refine ⟨?_, Form.nextState_rflags _ s m⟩
  rw [Form.nextState_mxcsr]
  split
  · exact ⟨0#32, by decide, by simp⟩
  · exact ⟨_, setFlags_zero_above _ _, setFlags_eq_or _ _ _⟩

/-! ### `pc` (10_state.md R17) -/

theorem pcWraps_mode64_eq_false_iff (pc : Word) (len : Nat) :
    pcWraps .mode64 pc len = false ↔ pc.toNat + len < 2 ^ 64 := by simp [pcWraps]

theorem nextPc_mode64_toNat {pc : Word} {len : Nat} (h : pc.toNat + len < 2 ^ 64) :
    (nextPc .mode64 pc len).toNat = pc.toNat + len := by
  simp only [nextPc, wrapTo, BitVec.toNat_add, BitVec.toNat_ofNat]
  omega

theorem nextPc_mode32_toNat (pc : Word) (len : Nat) :
    (nextPc .mode32 pc len).toNat = (pc.toNat + len) % 2 ^ 32 := by
  simp only [nextPc, wrapTo, low32, BitVec.toNat_setWidth, BitVec.toNat_add, BitVec.toNat_ofNat]
  omega

/-- Settles O31: `nextPc` as integers, in each mode. -/
theorem completionAdvancesPc : Obligations.CompletionAdvancesPc := by
  intro i s t m hm h
  obtain ⟨m', hm', -, hpc, rfl⟩ := exec_next_inv h
  obtain rfl : m = m' := OpMode.run.inj (hm.symm.trans hm')
  rw [Form.nextState_pc, formOf_len]
  constructor
  · rintro rfl
    have hfit := (pcWraps_mode64_eq_false_iff _ _).mp hpc
    exact ⟨nextPc_mode64_toNat hfit, hfit⟩
  · rintro rfl
    exact nextPc_mode32_toNat _ _

/-! ### Reset (10_state.md R25) -/

theorem reset_vec (n : Fin 32) : State.reset.v[n] = 0#512 := by simp [State.reset]

theorem reset_opmask (n : Fin 8) : State.reset.k[n] = 0#64 := by simp [State.reset]

theorem reset_gpr {n : Fin 16} (h : n ≠ 2) : State.reset.x[n] = 0#64 := by
  have hval : 2 ≠ n.val := fun e => h (Fin.ext e.symm)
  simp [State.reset, Vector.getElem_set_ne, hval]

/-- A step from reset is refused: reset is in real-address mode (60_exceptions.md R126). -/
theorem step_reset : step State.reset = .refused .unsupportedMode := rfl

/-- Settles O1: each value by its own reading of the reset state. -/
theorem resetHoldsListedValues : Obligations.ResetHoldsListedValues :=
  ⟨rfl, reset_vec, reset_opmask, rfl, rfl, rfl, rfl, rfl, fun _ h => reset_gpr h, rfl, by decide, _, step_reset⟩

end Sys2Proof.Machine

namespace Sys2Proof

open Sys2Proof.Safety

/-! ### What decodes to an instruction (30_encoding.md R71) -/

theorem Decoded.accept_instr {p : PrefixScan} {e : Bool} {i j : Instr} {rest r : List Byte}
    (h : Decoded.accept p e i rest = .instr j r) :
    p.strayRex = false ∧ p.redundant = false ∧ e = false ∧ j = i ∧ r = rest := by
  unfold Decoded.accept at h
  split at h
  · cases h
  split at h
  · cases h
  split at h
  · cases h
  cases h
  simp_all

/-- What the formats share once their opcode is there: the operands are complete and nothing refuses them. -/
theorem operands_instr {m : Mode} {x b s16 : Bool} {p : PrefixScan} {e : Bool} {f : BitVec 3 → Rm → Instr}
    {bytes rest : List Byte} {i : Instr}
    (h : (if s16 then refuseSixteenBit bytes else match takeModrm m x b bytes with
      | none => Decoded.truncated
      | some (reg, rm, rest') => Decoded.accept p e (f reg rm) rest') = .instr i rest) :
    ∃ reg rm, takeModrm m x b bytes = some (reg, rm, rest) ∧ e = false ∧ i = f reg rm := by
  split at h
  · exact absurd h (refuseSixteenBit_ne_instr _ _ _)
  · split at h
    · cases h
    · rename_i hm
      obtain ⟨-, -, he, hi, rfl⟩ := Decoded.accept_instr h
      exact ⟨_, _, hm, he, hi⟩

/-- The three formats that start with `C5`, `C4` and `62`. -/
theorem decodeVector_instr {m : Mode} {p : PrefixScan} {b b1 : Byte} {bytes rest : List Byte} {i : Instr}
    (h : decodeVector m p b b1 bytes = .instr i rest) :
    otherInMode32 m b1 = false ∧
      (decodeVex2 m p (p.simd || p.rex.isSome) b1 bytes = .instr i rest ∨
        decodeVex3 m p (p.simd || p.rex.isSome) b1 bytes = .instr i rest ∨
        decodeEvex m p (p.simd || p.rex.isSome) b1 bytes = .instr i rest) := by
  simp only [decodeVector] at h
  split at h
  · cases h
  · rename_i ho
    refine ⟨by simpa using ho, ?_⟩
    split at h
    · exact .inl h
    · split at h
      · exact .inr (.inl h)
      · exact .inr (.inr h)

/-- The format is LEGACY, or one of those of `decodeVector`. -/
theorem decodeFormat_instr {m : Mode} {p : PrefixScan} {bytes rest : List Byte} {i : Instr}
    (h : decodeFormat m p bytes = .instr i rest) :
    (∃ tail, decodeLegacy m p tail = .instr i rest) ∨
      ∃ b b1 tail, decodeVector m p b b1 tail = .instr i rest := by
  unfold decodeFormat at h
  split at h
  · cases h
  split at h
  · split at h
    · cases h
    split at h
    · cases h
    · exact .inl ⟨_, h⟩
  · split at h
    · split at h
      · cases h
      · exact .inr ⟨_, _, _, h⟩
    · cases h

/-! ### Extension bits in `Mode32` (30_encoding.md R48, R54, R57) -/

/-- No byte is taken as REX in `Mode32`. -/
theorem take_mode32_rex {p q : PrefixScan} {b : Byte} (h : p.take .mode32 b = some q) : q.rex = none := by
  unfold PrefixScan.take at h
  split at h
  · cases h; rfl
  · cases h

theorem scanPrefixes_mode32_rex {p : PrefixScan} (hp : p.rex = none) (bytes : List Byte) :
    (scanPrefixes .mode32 p bytes).1.rex = none := by
  induction bytes generalizing p with
  | nil => exact hp
  | cons b rest ih =>
    rw [scanPrefixes]
    split
    · rename_i ht
      exact ih (take_mode32_rex ht)
    · exact hp

/-- Where `C4`, `C5` or `62` starts one of the formats in `Mode32`, the next two bits are stored as 1. -/
theorem otherInMode32_eq_false {b : Byte} (h : otherInMode32 .mode32 b = false) :
    b.getLsbD 7 = true ∧ b.getLsbD 6 = true := by
  revert b; decide

/-! ### Which vector registers a format can name (30_encoding.md R59, R60) -/

theorem vecOf_lt_vecLimit {m : Mode} {ext : Bool} (h : m = .mode32 → ext = false) (lo : BitVec 3) :
    (vecOf false ext lo).val < vecLimit m true := by
  have := lo.isLt
  cases m with
  | mode64 => cases ext <;> simp [vecOf, vecLimit, gprLimit] <;> omega
  | mode32 => simpa [h rfl, vecOf, vecLimit, gprLimit] using this

theorem vecOf_lt_evexLimit {m : Mode} {hi ext : Bool} (h : m = .mode32 → hi = false ∧ ext = false) (lo : BitVec 3) :
    (vecOf hi ext lo).val < evexLimit m := by
  cases m with
  | mode64 => exact (vecOf hi ext lo).isLt
  | mode32 =>
    obtain ⟨rfl, rfl⟩ := h rfl
    simpa [vecOf, evexLimit] using lo.isLt

/-- How many vector registers the format of an instruction can name in a mode (`NVREG` of 00_scope.md R7). -/
def vecRegsOf (m : Mode) : Instr → Nat
  | .cvtps2pd _ => vecLimit m true
  | .vcvtps2pdVex128C5 _ => vecLimit m true
  | .vcvtps2pdVex128C4 _ => vecLimit m true
  | .vcvtps2pdVex256C5 _ => vecLimit m true
  | .vcvtps2pdVex256C4 _ => vecLimit m true
  | .vcvtps2pdEvex512Sae _ => evexLimit m
  | .vcvtps2pdEvex128 _ => evexLimit m
  | .vcvtps2pdEvex256 _ => evexLimit m
  | .vcvtps2pdEvex512 _ => evexLimit m
  | .vcvtps2pdEvexReservedLL11 _ => evexLimit m

/-- The destination and a register source have numbers below `n`. -/
def RegistersBelow (n : Nat) (i : Instr) : Prop :=
  (dstOf i).val < n ∧ ∀ k, operandOf i = .reg k → k.val < n

theorem sourceOf_lt_vecLimit {m : Mode} {ext : Bool} (h : m = .mode32 → ext = false) (rm : Rm) {k : Fin 32}
    (hk : Machine.operandOfSource (sourceOf ext rm) = .reg k) : k.val < vecLimit m true := by
  cases rm with
  | reg r => cases hk; exact vecOf_lt_vecLimit h r
  | mem a => cases hk

theorem decodeLegacy_registersBelow {m : Mode} {p : PrefixScan} {bytes rest : List Byte} {i : Instr}
    (hp : m = .mode32 → p.rex = none) (h : decodeLegacy m p bytes = .instr i rest) :
    RegistersBelow (vecRegsOf m i) i := by
  obtain ⟨reg, rm, -, -, rfl⟩ := operands_instr h
  exact ⟨vecOf_lt_vecLimit (fun hm => by rw [hp hm]) reg,
    fun k hk => sourceOf_lt_vecLimit (fun hm => by rw [hp hm]) rm hk⟩

theorem decodeVex2_registersBelow {m : Mode} {p : PrefixScan} {bad : Bool} {b1 : Byte} {bytes rest : List Byte}
    {i : Instr} (ho : otherInMode32 m b1 = false) (h : decodeVex2 m p bad b1 bytes = .instr i rest) :
    RegistersBelow (vecRegsOf m i) i := by
  unfold decodeVex2 at h
  split at h
  · split at h
    · cases h
    · obtain ⟨reg, rm, -, -, rfl⟩ := operands_instr h
      have hdst : m = .mode32 → (!b1.getLsbD 7) = false := by
        rintro rfl
        simp [(otherInMode32_eq_false ho).1]
      split <;> exact ⟨vecOf_lt_vecLimit hdst reg, fun k hk => sourceOf_lt_vecLimit (fun _ => rfl) rm hk⟩
  · cases h

theorem decodeVex3_registersBelow {m : Mode} {p : PrefixScan} {bad : Bool} {b1 : Byte} {bytes rest : List Byte}
    {i : Instr} (ho : otherInMode32 m b1 = false) (h : decodeVex3 m p bad b1 bytes = .instr i rest) :
    RegistersBelow (vecRegsOf m i) i := by
  unfold decodeVex3 at h
  split at h
  · split at h
    · cases h
    · obtain ⟨reg, rm, -, he, rfl⟩ := operands_instr h
      have hdst : m = .mode32 → (!b1.getLsbD 7) = false := by
        rintro rfl
        simp [(otherInMode32_eq_false ho).1]
      have hsrc : m = .mode32 → (!b1.getLsbD 5) = false := by
        rintro rfl
        simpa using he
      split <;> exact ⟨vecOf_lt_vecLimit hdst reg, fun k hk => sourceOf_lt_vecLimit hsrc rm hk⟩
  · cases h

/-! The row that `L'L` selects decides neither the registers nor how many the format can name. -/

@[simp] theorem dstOf_evexRow (ll : BitVec 2) (op : EvexOp) : dstOf (evexRow ll op) = op.dst := by
  unfold evexRow; split_ifs <;> rfl

@[simp] theorem operandOf_evexRow (ll : BitVec 2) (op : EvexOp) :
    operandOf (evexRow ll op) = Machine.operandOfEvex op.src := by
  unfold evexRow; split_ifs <;> rfl

@[simp] theorem vecRegsOf_evexRow (m : Mode) (ll : BitVec 2) (op : EvexOp) :
    vecRegsOf m (evexRow ll op) = evexLimit m := by
  unfold evexRow; split_ifs <;> rfl

theorem evexInstr_registersBelow {m : Mode} {p0 p1 p2 : Byte} (p : PrefixScan) (bad : Bool)
    (h : m = .mode32 → ((!p0.getLsbD 4) = false ∧ (!p0.getLsbD 7) = false) ∧
      (!p0.getLsbD 6) = false ∧ (!p0.getLsbD 5) = false) (reg : BitVec 3) (rm : Rm) :
    RegistersBelow (vecRegsOf m (evexInstr p bad p0 p1 p2 reg rm)) (evexInstr p bad p0 p1 p2 reg rm) := by
  have hdst := vecOf_lt_evexLimit (fun hm => (h hm).1) reg
  cases rm with
  | mem a => simpa [evexInstr, RegistersBelow, Machine.operandOfEvex] using hdst
  | reg r =>
    have hsrc := vecOf_lt_evexLimit (fun hm => (h hm).2) r
    simp only [evexInstr]
    split
    · exact ⟨hdst, fun k hk => by cases hk; exact hsrc⟩
    · simpa [RegistersBelow, Machine.operandOfEvex] using ⟨hdst, hsrc⟩

theorem decodeEvex_registersBelow {m : Mode} {p : PrefixScan} {bad : Bool} {p0 : Byte} {bytes rest : List Byte}
    {i : Instr} (ho : otherInMode32 m p0 = false) (h : decodeEvex m p bad p0 bytes = .instr i rest) :
    RegistersBelow (vecRegsOf m i) i := by
  unfold decodeEvex at h
  split at h
  · split at h
    · cases h
    · obtain ⟨reg, rm, -, he, rfl⟩ := operands_instr h
      refine evexInstr_registersBelow p bad ?_ reg rm
      rintro rfl
      obtain ⟨h7, h6⟩ := otherInMode32_eq_false ho
      obtain ⟨⟨h5, h4⟩, -⟩ : (p0.getLsbD 5 = true ∧ p0.getLsbD 4 = true) ∧ _ := by simpa using he
      simp [h4, h5, h6, h7]
  · cases h

/-- A decoded instruction names only registers its format has in the mode. -/
theorem decode_registersBelow {m : Mode} {bytes rest : List Byte} {i : Instr} (h : decode m bytes = .instr i rest) :
    RegistersBelow (vecRegsOf m i) i := by
  rcases decodeFormat_instr h with ⟨_, h⟩ | ⟨_, _, _, h⟩
  · refine decodeLegacy_registersBelow ?_ h
    rintro rfl
    exact scanPrefixes_mode32_rex rfl bytes
  · obtain ⟨ho, h | h | h⟩ := decodeVector_instr h
    · exact decodeVex2_registersBelow ho h
    · exact decodeVex3_registersBelow ho h
    · exact decodeEvex_registersBelow ho h

end Sys2Proof

namespace Sys2Proof.Machine

open Sys2Proof.Safety

/-! ### Executed registers exist (10_state.md R10) -/

theorem vecLimit_le_nvregTotal (c : Config) (m : Mode) : vecLimit m true ≤ nvregTotal c m := by
  cases m with
  | mode64 => simp only [vecLimit, gprLimit, nvregTotal, if_true]; split <;> omega
  | mode32 => exact Nat.le_refl 8

theorem evexLimit_le_nvregTotal {c : Config} (h : c.hasAVX512F = true) (m : Mode) :
    evexLimit m ≤ nvregTotal c m := by cases m <;> simp [evexLimit, nvregTotal, h]

/-- In any mode there are at most the registers the processor has. -/
theorem nvregTotal_le_physicalVecRegs (c : Config) (m : Mode) : nvregTotal c m ≤ physicalVecRegs c := by
  cases m with
  | mode64 => exact Nat.le_refl _
  | mode32 => simp only [physicalVecRegs, nvregTotal]; split <;> omega

theorem evexUd_eq_false_hasAVX512F {pre : Prefixes} {bad w : Bool} {vvvv : BitVec 4} {vbar z : Bool} {aaa : BitVec 3}
    {s : State} (h : evexUd pre bad w vvvv vbar z aaa s = false) : s.cfg.hasAVX512F = true := by
  simp only [evexUd, Bool.or_eq_false_iff, Bool.not_eq_false'] at h
  tauto

/-- Where a form is not #UD, the processor has the registers its format can name: an EVEX form needs AVX512F. -/
theorem vecRegsOf_le_nvregTotal {i : Instr} {s : State} (h : (formOf i s).ud = false) (m : Mode) :
    vecRegsOf m i ≤ nvregTotal s.cfg m := by
  cases i with
  | cvtps2pd op => exact vecLimit_le_nvregTotal _ m
  | vcvtps2pdVex128C5 op => exact vecLimit_le_nvregTotal _ m
  | vcvtps2pdVex128C4 op => exact vecLimit_le_nvregTotal _ m
  | vcvtps2pdVex256C5 op => exact vecLimit_le_nvregTotal _ m
  | vcvtps2pdVex256C4 op => exact vecLimit_le_nvregTotal _ m
  | vcvtps2pdEvex512Sae op => exact evexLimit_le_nvregTotal (evexUd_eq_false_hasAVX512F h) m
  | vcvtps2pdEvex128 op =>
    exact evexLimit_le_nvregTotal (evexUd_eq_false_hasAVX512F (Bool.or_eq_false_iff.mp h).1) m
  | vcvtps2pdEvex256 op =>
    exact evexLimit_le_nvregTotal (evexUd_eq_false_hasAVX512F (Bool.or_eq_false_iff.mp h).1) m
  | vcvtps2pdEvex512 op =>
    exact evexLimit_le_nvregTotal (evexUd_eq_false_hasAVX512F (Bool.or_eq_false_iff.mp h).1) m
  | vcvtps2pdEvexReservedLL11 op => cases h

/-- Settles O32: the decoder keeps to the format's registers, and completing needs the feature that gives them. -/
theorem executedRegistersExist : Obligations.ExecutedRegistersExist := by
  intro s t m bytes rest i _ hd he
  obtain ⟨-, -, hud, -, -⟩ := exec_next_inv he
  obtain ⟨hdst, hsrc⟩ := decode_registersBelow hd
  have hle := vecRegsOf_le_nvregTotal hud m
  exact ⟨Nat.lt_of_lt_of_le hdst hle, fun n hn => Nat.lt_of_lt_of_le (hsrc n hn) hle⟩

/-! ### The invariant (10_state.md R10, R13, R14, R17) -/

theorem highZero_and_lowMask (u : VecReg) (n : Nat) : HighZero n (u &&& lowMask n) := by
  intro b hb
  rw [getLsbD_and_lowMask]
  simp [Nat.not_lt.mpr hb]

theorem Form.nextState_mxcsrReservedBits (f : Form) (s : State) (m : Mode) :
    mxcsrReservedBits (f.nextState s m).mxcsr = mxcsrReservedBits s.mxcsr := by
  rw [Form.nextState_mxcsr]
  split
  · rfl
  · exact mxcsrReservedBits_setFlags _ _ _

/-- Completing a form whose destination exists keeps the invariant. -/
theorem Form.nextState_inv {f : Form} {s : State} {m : Mode} (hm : s.opMode = .run m)
    (hdst : f.dst.val < physicalVecRegs s.cfg) (hs : Inv s) : Inv (f.nextState s m) where
  mem := hs.mem
  vecHigh n := by
    by_cases hn : n = f.dst
    · subst hn
      rw [Form.nextState_vec_dst]
      exact highZero_and_lowMask _ _
    · rw [Form.nextState_vec_other f s m hn]
      exact hs.vecHigh n
  vecNone n hge := by
    have hn : n ≠ f.dst := by
      rintro rfl
      exact Nat.not_lt.mpr hge hdst
    rw [Form.nextState_vec_other f s m hn]
    exact hs.vecNone n hge
  opmask := hs.opmask
  mxcsr := (Form.nextState_mxcsrReservedBits f s m).trans hs.mxcsr
  pc32 h32 := by
    obtain rfl : m = .mode32 := OpMode.run.inj (hm.symm.trans h32)
    rw [Form.nextState_pc, nextPc_mode32_toNat]
    exact Nat.mod_lt _ (by decide)

/-- Settles O3: a step that completes is a form whose destination the decoder's ranges and the feature checks put
among the registers that exist. -/
theorem stepKeepsInvariant : Obligations.StepKeepsInvariant := by
  intro s t hs h
  obtain ⟨m, i, rest, hm, -, hd, he⟩ := stepWithin_next h
  obtain ⟨hdst, -⟩ := executedRegistersExist s t m _ rest i hm hd he
  obtain ⟨m', hm', -, -, rfl⟩ := exec_next_inv he
  refine Form.nextState_inv hm' ?_ hs
  rw [formOf_dst]
  exact Nat.lt_of_lt_of_le hdst (nvregTotal_le_physicalVecRegs s.cfg m)

end Sys2Proof.Machine

namespace Sys2Proof.Machine

open Sys2Proof.Safety

/-! ### The destination a completed form leaves (42_vcvtps2pd_evex.md R99, R104) -/

section Destination

variable {f : Form} {s : State}

/-- Elements inside `MAX_VL` are those of the destination's value. -/
theorem Form.elem64_nextState_dst (hvl : 64 * f.kl ≤ s.cfg.maxVl) (hkl : f.kl ≤ 8) (m : Mode) {j : Nat}
    (hj : j < f.kl) :
    elem64 (f.nextState s m).v[f.dst] j = (f.element s m j).getD (elem64 s.v[f.dst] j) := by
  rw [Form.nextState_vec_dst, elem64_and_lowMask _ _ _ (by omega), Form.elem64_destValue f s m hj hkl]
  cases f.element s m j <;> rfl

theorem Form.nextState_dst_highZero (h : f.keepUpper = false) (m : Mode) :
    HighZero (64 * f.kl) (f.nextState s m).v[f.dst] := by
  intro b hb
  rw [Form.nextState_vec_dst, getLsbD_and_lowMask]
  by_cases hb' : b < 512
  · simp [Form.getLsbD_destValue_above f s m hb' hb, h]
  · simp [BitVec.getLsbD_of_ge _ _ (Nat.not_lt.mp hb')]

end Destination

/-! ### A form that selects no element (20_memory.md R40) -/

section NoneSelected

variable {f : Form} {s : State} (h : f.selected = [])
include h

theorem Form.anyInvalid_none_selected (m : Mode) : f.anyInvalid s m = false := by simp [Form.anyInvalid, h]

theorem Form.anyDenormal_none_selected (m : Mode) : f.anyDenormal s m = false := by simp [Form.anyDenormal, h]

theorem Form.nextState_mxcsr_none_selected (m : Mode) : (f.nextState s m).mxcsr = s.mxcsr := by
  simp [Form.flags, Form.anyInvalid_none_selected h, Form.anyDenormal_none_selected h, setFlags]

theorem Form.element_none_selected (m : Mode) {j : Nat} (hj : j < f.kl) :
    f.element s m j = if f.zeroing then some 0#64 else none := by
  have hmask : ¬ f.mask.getLsbD j = true := fun hsel => by
    simpa [h] using (f.mem_selected j).mpr ⟨hj, hsel⟩
  rw [Form.element, if_neg hmask]

theorem Form.elem64_nextState_dst_none_selected (hvl : 64 * f.kl ≤ s.cfg.maxVl) (hkl : f.kl ≤ 8) (m : Mode)
    {j : Nat} (hj : j < f.kl) :
    elem64 (f.nextState s m).v[f.dst] j = if f.zeroing then 0#64 else elem64 s.v[f.dst] j := by
  rw [Form.elem64_nextState_dst hvl hkl m hj, Form.element_none_selected h m hj]
  split <;> rfl

/-- It completes without asking `Translate`, and no condition can be unmasked. -/
theorem convert_none_selected {m : Mode} (hm : s.opMode = .run m) (hud : f.ud = false) (hts : s.cr0TS = false)
    (hpc : pcWraps m s.pc f.len = false) : convert f s = .next (f.nextState s m) := by
  refine convert_next hm hud hts (Form.accessCheck_none_selected h s m) (.inr ?_) hpc
  simp [unmasked, Form.anyInvalid_none_selected h, Form.anyDenormal_none_selected h]

end NoneSelected

/-! ### EVEX forms that are enabled, and their writemask (42_vcvtps2pd_evex.md R98) -/

theorem evexMask_getLsbD_iff_selected (s : State) (aaa : BitVec 3) {j : Nat} (hj : j < 8) :
    (evexMask s aaa).getLsbD j = true ↔ Selected s aaa j := by
  unfold evexMask Selected
  split
  next h =>
    have hall : ∀ i : Fin 8, (0xFF#8).getLsbD i = true := by decide
    simp [h, hall ⟨j, hj⟩]
  next h => simp [h, hj]

theorem evexForm_selected_eq_nil {kl : Nat} {op : EvexOp} {s : State} (needVL : Bool) (hkl : kl ≤ 8)
    (h : ∀ j, j < kl → ¬ Selected s op.aaa j) : (evexForm kl needVL op s).selected = [] := by
  refine List.eq_nil_iff_forall_not_mem.mpr fun j hj => ?_
  obtain ⟨hlt, hmask⟩ := (Form.mem_selected _ j).mp hj
  exact h j hlt ((evexMask_getLsbD_iff_selected s op.aaa (Nat.lt_of_lt_of_le hlt hkl)).mp hmask)

theorem evexForm_ud_eq_false {kl : Nat} {needVL : Bool} {op : EvexOp} {s : State} (hs : Avx512Enabled s)
    (hop : EvexFieldsOk op) (hvl : needVL = true → s.cfg.hasAVX512VL = true) :
    (evexForm kl needVL op s).ud = false := by
  obtain ⟨hf, hosx, hx, hxhi, -⟩ := hs
  obtain ⟨hlock, hbad, hvvvv, hw, hvbar, hz⟩ := hop
  simpa [evexForm, evexUd, hf, hosx, hx, hxhi, hlock, hbad, hvvvv, hw, hvbar] using And.intro hz hvl

theorem maxVl_of_avx512Enabled {s : State} (h : Avx512Enabled s) : s.cfg.maxVl = 512 := by
  simp [Config.maxVl, h.avx512f]

theorem pcWraps_eq_false_of_pcFits {s : State} {m : Mode} {len : Nat} (h : PcFits s m len) :
    pcWraps m s.pc len = false := by
  cases m with
  | mode64 => exact (pcWraps_mode64_eq_false_iff _ _).mpr (h rfl)
  | mode32 => rfl

/-- Settles O28: an empty selection leaves nothing to check, to convert or to signal, so the three forms complete with
every element kept or zeroed. -/
theorem nothingSelectedAccessesNothing : Obligations.NothingSelectedAccessesNothing := by
  intro op s m kl i hi hm hs hop hpc hsel
  obtain ⟨needVL, hkl, hvl, hdst, hexec⟩ : ∃ needVL, kl ≤ 8 ∧ (needVL = true → s.cfg.hasAVX512VL = true) ∧
      dstOf i = op.dst ∧ exec i s = convert (evexForm kl needVL op s) s := by
    rcases hi with ⟨rfl, rfl, hvl⟩ | ⟨rfl, rfl, hvl⟩ | ⟨rfl, rfl⟩
    · exact ⟨true, by decide, fun _ => hvl, rfl, rfl⟩
    · exact ⟨true, by decide, fun _ => hvl, rfl, rfl⟩
    · exact ⟨false, by decide, nofun, rfl, rfl⟩
  have hnone := evexForm_selected_eq_nil needVL hkl hsel
  have hwide : 64 * kl ≤ s.cfg.maxVl := by rw [maxVl_of_avx512Enabled hs]; omega
  have hnext := hexec.trans <| convert_none_selected hnone hm (evexForm_ud_eq_false hs hop hvl) hs.ts
    (pcWraps_eq_false_of_pcFits hpc)
  exact ⟨_, hnext, Form.nextState_mxcsr_none_selected hnone m,
    fun j hj => Form.elem64_nextState_dst_none_selected hnone hwide hkl m hj,
    Form.nextState_dst_highZero (f := evexForm kl needVL op s) rfl m,
    hdst ▸ completionChangesOnlyItsDestination i s _ hnext⟩

end Sys2Proof.Machine

namespace Sys2Proof.Machine

open Sys2Proof.Safety

/-! ### Cutting to the address size or to the linear-address width (20_memory.md R28, R34, R35) -/

@[simp] theorem low32_toNat (w : Word) : (low32 w).toNat = w.toNat % 2 ^ 32 := by
  simp only [low32, BitVec.toNat_setWidth]
  omega

@[simp] theorem wrapTo_mode64 (w : Word) : wrapTo .mode64 w = w := rfl
@[simp] theorem wrapTo_mode32 (w : Word) : wrapTo .mode32 w = low32 w := rfl

theorem addrSize_eq_ite (m : Mode) (pre : Prefixes) : addrSize m pre = if addr32 m pre then 32 else 64 := by
  cases m <;> rfl

theorem addrSize_le (m : Mode) (pre : Prefixes) : addrSize m pre ≤ 64 := by
  rw [addrSize_eq_ite]
  split <;> decide

theorem cutTo32_toNat (m : Mode) (pre : Prefixes) (w : Word) :
    (cutTo32 (addr32 m pre) w).toNat = w.toNat % 2 ^ addrSize m pre := by
  rw [cutTo32, addrSize_eq_ite]
  split
  · exact low32_toNat w
  · exact (Nat.mod_eq_of_lt w.isLt).symm

/-! ### The parts of an offset as integers modulo 2^64 (20_memory.md R35)

`BitVec.ofInt 64` takes the integer operations to those of words, so each part is the word of its integer. -/

theorem gprValue_eq_ofInt (s : State) (m : Mode) (pre : Prefixes) (n : Fin 16) :
    gprValue s (addr32 m pre) n = BitVec.ofInt 64 (gprInt s (addrSize m pre) n) := by
  rw [gprInt, BitVec.ofInt_natCast, ← cutTo32_toNat, BitVec.ofNat_toNat, BitVec.setWidth_eq, gprValue]

theorem indexTerm_eq_ofInt (s : State) (m : Mode) (pre : Prefixes) (i : Option (Fin 16)) (ss : BitVec 2) :
    indexTerm s (addr32 m pre) i ss = BitVec.ofInt 64 (indexInt s (addrSize m pre) i ss) := by
  cases i with
  | none => rfl
  | some n => rw [indexTerm, indexInt, gprValue_eq_ofInt, BitVec.ofInt_mul, BitVec.ofInt_natCast]

theorem dispValue_eq_ofInt (scale : Nat) (d : Disp) : dispValue scale d = BitVec.ofInt 64 (dispInt scale d) := by
  cases d with
  | none => rfl
  | d8 v => rw [dispValue, dispInt, BitVec.ofInt_mul, BitVec.ofInt_natCast, BitVec.signExtend]
  | d32 v => rfl

/-- The offset is the integer sum as a word, cut to the address size. -/
theorem memOffset_eq_cutTo32_ofInt (s : State) (m : Mode) (pre : Prefixes) (len scale : Nat) (a : Mem) :
    memOffset s m pre len scale a =
      cutTo32 (addr32 m pre) (BitVec.ofInt 64 (offsetSum s (addrSize m pre) len scale a)) := by
  unfold memOffset
  cases a with
  | base b d => simp only [offsetSum, BitVec.ofInt_add, gprValue_eq_ofInt, dispValue_eq_ofInt]
  | ripRel d =>
    simp only [offsetSum, BitVec.ofInt_add, BitVec.ofInt_natCast, BitVec.ofNat_toNat, BitVec.setWidth_eq,
      BitVec.signExtend]
  | absolute d => rfl
  | sib b i ss d =>
    simp only [offsetSum, BitVec.ofInt_add, gprValue_eq_ofInt, indexTerm_eq_ofInt, dispValue_eq_ofInt]
  | sibNoBase i ss d => simp only [offsetSum, BitVec.ofInt_add, indexTerm_eq_ofInt, BitVec.signExtend]

/-- Words are integers modulo 2^64, which every smaller power of two divides. -/
theorem ofInt_toNat_mod_two_pow (z : Int) {k : Nat} (hk : k ≤ 64) :
    (((BitVec.ofInt 64 z).toNat % 2 ^ k : Nat) : Int) = z % (2 ^ k : Nat) := by
  have hdvd : ((2 ^ k : Nat) : Int) ∣ ((2 ^ 64 : Nat) : Int) := Int.natCast_dvd_natCast.mpr (Nat.pow_dvd_pow 2 hk)
  rw [Int.natCast_emod, BitVec.toNat_ofInt, Int.toNat_of_nonneg (Int.emod_nonneg _ (by decide)),
    Int.emod_emod_of_dvd z hdvd]

/-- Settles O48: the words of the parts add up to the word of the sum, and `2^asz` divides 2^64. -/
theorem offsetIsSumModuloAddressSize : Obligations.OffsetIsSumModuloAddressSize := by
  intro s m pre len scale a
  rw [memOffset_eq_cutTo32_ofInt, cutTo32_toNat, ofInt_toNat_mod_two_pow _ (addrSize_le m pre)]

/-! ### The bytes of a memory operand (20_memory.md R30 to R32) -/

theorem byteAddr_mode64_toNat (s : State) (seg : SegReg) (off : Word) (t : Nat) :
    (byteAddr s .mode64 seg off t).toNat = ((linearAddr s .mode64 seg off).toNat + t) % 2 ^ 64 := by
  simp [byteAddr]

theorem byteAddr_mode32_toNat (s : State) (seg : SegReg) (off : Word) (t : Nat) :
    (byteAddr s .mode32 seg off t).toNat = ((linearAddr s .mode32 seg off).toNat + t) % 2 ^ 32 := by
  simp only [byteAddr, wrapTo_mode32, low32_toNat, BitVec.toNat_add, BitVec.toNat_ofNat]
  omega

theorem toNat_append_byte {w : Nat} (hi : BitVec w) (lo : Byte) : (hi ++ lo).toNat = 2 ^ 8 * hi.toNat + lo.toNat := by
  rw [BitVec.toNat_append, ← Nat.shiftLeft_add_eq_or_of_lt lo.isLt, Nat.shiftLeft_eq, Nat.mul_comm]

/-- Settles O51: a byte appended below is the low byte of the sum, and a byte's address is its linear address plus its
distance, wrapped. -/
theorem memoryElementsAreLittleEndian : Obligations.MemoryElementsAreLittleEndian := by
  intro s m seg off j
  constructor
  · rw [memElem, toNat_append_byte, toNat_append_byte, toNat_append_byte]
    ring
  · intro t
    cases m with
    | mode64 => exact congrArg (readCell s.mem) (byteAddr_mode64_toNat s seg off t)
    | mode32 => exact congrArg (readCell s.mem) (byteAddr_mode32_toNat s seg off t)

/-! ### The segment of a memory operand (20_memory.md R36, 30_encoding.md R46) -/

section Segment

variable {pre : Prefixes}

theorem memSeg_of_no_override (h : pre.seg = none) (m : Mode) (a : Mem) : memSeg m pre a = defaultSeg a := by
  simp [memSeg, h]

theorem memSeg_mode32_of_override {sg : SegReg} (h : pre.seg = some sg) (a : Mem) : memSeg .mode32 pre a = sg := by
  simp [memSeg, h]

theorem memSeg_mode64_of_override {sg : SegReg} (h : pre.seg = some sg) (a : Mem) :
    memSeg .mode64 pre a = if sg = .fs ∨ sg = .gs then sg else defaultSeg a := by
  cases sg <;> simp [memSeg, h]

end Segment

theorem defaultSegOfBase_eq (b : Fin 16) : defaultSegOfBase b = if b.val = 4 ∨ b.val = 5 then .ss else .ds := by
  simp only [defaultSegOfBase, Fin.ext_iff]
  rfl

theorem linearAddr_mode64 (s : State) (sg : SegReg) (off : Word) :
    linearAddr s .mode64 sg off = if sg = .fs ∨ sg = .gs then (s.segs.get sg).base + off else off := by
  simp only [linearAddr, wrapTo_mode64, segBase]
  split <;> simp

theorem linearAddr_mode32_toNat (s : State) (sg : SegReg) (off : Word) :
    (linearAddr s .mode32 sg off).toNat = ((s.segs.get sg).base.toNat + off.toNat) % 2 ^ 32 := by
  simp only [linearAddr, wrapTo_mode32, low32_toNat, segBase, BitVec.toNat_add]
  omega

/-- Settles O49: the default by the operand's base, the override by the mode, the base by the mode and the segment. -/
theorem segmentOfMemoryOperand : Obligations.SegmentOfMemoryOperand := by
  refine ⟨fun m pre b d i ss h => ?_, fun m pre d i ss h => ?_, fun pre a sg h => ?_, fun s sg off => ?_⟩
  · simp only [memSeg_of_no_override h, defaultSeg, defaultSegOfBase_eq, and_self]
  · simp only [memSeg_of_no_override h, defaultSeg, and_self]
  · exact ⟨memSeg_mode32_of_override h a, memSeg_mode64_of_override h a⟩
  · exact ⟨linearAddr_mode64 s sg off, linearAddr_mode32_toNat s sg off⟩

end Sys2Proof.Machine

namespace Sys2Proof

/-! ### Register numbers and their bits (30_encoding.md R59 to R62) -/

theorem low3_gprOf (ext : Bool) (lo : BitVec 3) : low3 (gprOf ext lo).val = lo := by revert ext lo; decide

theorem bit3_eq_false {n : Nat} (h : n < 8) : bit3 n = false := by
  simp [bit3, Nat.div_eq_of_lt h]

theorem bit4_eq_false {n : Nat} (h : n < 16) : bit4 n = false := by
  simp [bit4, Nat.div_eq_of_lt h]

/-- A vector register below 16 needs no fifth bit. -/
theorem vecOf_false_bits {n : Fin 32} (h : n.val < 16) : vecOf false (bit3 n.val) (low3 n.val) = n := by
  rw [← bit4_eq_false h, vecOf_bits]

@[simp] theorem gprLimit_no_ext (m : Mode) : gprLimit m false = 8 := by cases m <;> rfl

@[simp] theorem vecLimit_no_ext (m : Mode) : vecLimit m false = 8 := gprLimit_no_ext m

theorem gprLimit_le (m : Mode) (ext : Bool) : gprLimit m ext ≤ 16 := by cases m <;> cases ext <;> decide

/-- A register of the extended half needs the extension bit, which there is only in `Mode64`. -/
theorem gprOf_lt_gprLimit {m : Mode} {ext e : Bool} (h : e = true → m = .mode64 ∧ ext = true) (lo : BitVec 3) :
    (gprOf e lo).val < gprLimit m ext := by
  have hlo := lo.isLt
  cases e with
  | true => obtain ⟨rfl, rfl⟩ := h rfl; exact (gprOf true lo).isLt
  | false =>
    have h8 : 8 ≤ gprLimit m ext := by cases m <;> cases ext <;> decide
    simp only [gprOf, Bool.false_eq_true, if_false, Nat.zero_add]
    omega

/-- `baseOk` in the terms of the bits: `100` means SIB, and `101` with `mod = 00` means no base. -/
theorem baseOk_iff (b : Fin 16) (d : Disp) :
    baseOk b d = true ↔ low3 b.val ≠ 4#3 ∧ ¬ (d = .none ∧ low3 b.val = 5#3) := by
  have hb : (b.val % 8 = 4 ↔ low3 b.val = 4#3) ∧ (b.val % 8 = 5 ↔ low3 b.val = 5#3) := by revert b; decide
  simp [baseOk, hb, imp_iff_not_or]

theorem sibBaseOk_iff (b : Fin 16) (d : Disp) :
    sibBaseOk b d = true ↔ ¬ (d = .none ∧ low3 b.val = 5#3) := by
  have hb : b.val % 8 = 5 ↔ low3 b.val = 5#3 := by revert b; decide
  simp [sibBaseOk, hb, imp_iff_not_or]

theorem indexOf_bits {lim : Nat} {i : Option (Fin 16)} (h : indexOk lim i = true) :
    indexOf (bit3 (indexNum i)) (low3 (indexNum i)) = i := by
  cases i with
  | none => rfl
  | some n =>
    have hn : n ≠ 4 := by rintro rfl; simp [indexOk] at h
    simp [indexOf, indexNum, gprOf_bits, hn]

theorem indexOk_indexOf {lim : Nat} {x : Bool} (hx : ∀ lo, (gprOf x lo).val < lim) (idx : BitVec 3) :
    indexOk lim (indexOf x idx) = true := by
  unfold indexOf
  split
  · rfl
  · rename_i h
    simpa [indexOk, hx idx] using fun h' => h (Fin.ext h')

/-! ### Displacements (30_encoding.md R61 to R63) -/

theorem Disp.mod_eq_zero_iff (d : Disp) : d.mod = 0#2 ↔ d = .none := by cases d <;> simp [Disp.mod]

theorem Disp.mod_ne_three (d : Disp) : d.mod ≠ 3#2 := by cases d <;> simp [Disp.mod]

theorem takeDisp32_encode32 (v : BitVec 32) (rest : List Byte) :
    takeDisp32 (encode32 v ++ rest) = some (v, rest) := by
  simp [encode32, takeDisp32, encode32_join]

theorem takeDisp_encode (d : Disp) (rest : List Byte) : takeDisp d.mod (d.encode ++ rest) = some (d, rest) := by
  cases d with
  | none => rfl
  | d8 v => rfl
  | d32 v => simp [takeDisp, Disp.mod, Disp.encode, encode32, encode32_join]

theorem takeDisp32_length {bytes rest : List Byte} {d : BitVec 32} (h : takeDisp32 bytes = some (d, rest)) :
    bytes.length = 4 + rest.length := by
  unfold takeDisp32 at h
  split at h
  · cases h; simp only [List.length_cons]; omega
  · cases h

/-- How many bytes a displacement takes; it takes none iff `mod = 00`. -/
theorem takeDisp_some {mod : BitVec 2} {bytes rest : List Byte} {d : Disp}
    (h : takeDisp mod bytes = some (d, rest)) :
    bytes.length = d.len + rest.length ∧ (d = .none ↔ mod = 0#2) := by
  unfold takeDisp at h
  split at h
  next h0 => cases h; simp [Disp.len, h0]
  next h0 =>
    split at h
    · split at h <;> cases h
      simp [Disp.len, h0, Nat.add_comm]
    · split at h <;> cases h
      simp [Disp.len, h0]
      omega

/-! ### Memory operands (30_encoding.md R58, R61, R62) -/

/-- What a memory operand can be: a SIB form without or with a base, a displacement alone, or a base. -/
theorem takeMem_cases {m : Mode} {x b : Bool} {mod : BitVec 2} {rm : BitVec 3} {bytes rest : List Byte} {a : Mem}
    (h : takeMem m x b mod rm bytes = some (a, rest)) :
    (∃ sib tail i s d, bytes = sib :: tail ∧ takeDisp32 tail = some (d, rest) ∧ i = indexOf x (sib.extractLsb' 3 3) ∧
      a = .sibNoBase i s d) ∨
    (∃ sib tail i s bs d, bytes = sib :: tail ∧ ¬ (mod = 0#2 ∧ bs = 5#3) ∧ takeDisp mod tail = some (d, rest) ∧
      i = indexOf x (sib.extractLsb' 3 3) ∧ a = .sib (gprOf b bs) i s d) ∨
    (∃ d, takeDisp32 bytes = some (d, rest) ∧ (m = .mode64 ∧ a = .ripRel d ∨ m = .mode32 ∧ a = .absolute d)) ∨
    (∃ d, rm ≠ 4#3 ∧ ¬ (mod = 0#2 ∧ rm = 5#3) ∧ takeDisp mod bytes = some (d, rest) ∧ a = .base (gprOf b rm) d) := by
  unfold takeMem at h
  split at h
  next hrm =>
    cases bytes with
    | nil => cases h
    | cons sib tail =>
      simp only [takeSib] at h
      split at h
      next hbs =>
        split at h <;> cases h
        next hd => exact .inl ⟨sib, tail, _, _, _, rfl, hd, rfl, rfl⟩
      next hbs =>
        split at h <;> cases h
        next hd => exact .inr (.inl ⟨sib, tail, _, _, _, _, rfl, hbs, hd, rfl, rfl⟩)
  next hrm =>
    split at h
    next h5 =>
      split at h
      · cases h
      next hd =>
        refine .inr (.inr (.inl ?_))
        cases m <;> cases h
        · exact ⟨_, hd, .inl ⟨rfl, rfl⟩⟩
        · exact ⟨_, hd, .inr ⟨rfl, rfl⟩⟩
    next h5 =>
      split at h <;> cases h
      next hd => exact .inr (.inr (.inr ⟨_, hrm, h5, hd, rfl⟩))

theorem takeMem_length {m : Mode} {x b : Bool} {mod : BitVec 2} {rm : BitVec 3} {bytes rest : List Byte} {a : Mem}
    (h : takeMem m x b mod rm bytes = some (a, rest)) : bytes.length = a.tailLen + rest.length := by
  rcases takeMem_cases h with ⟨sib, tail, i, s, d, rfl, hd, -, rfl⟩ | ⟨sib, tail, i, s, bs, d, rfl, -, hd, -, rfl⟩ |
    ⟨d, hd, ⟨-, rfl⟩ | ⟨-, rfl⟩⟩ | ⟨d, -, -, hd, rfl⟩
  · have := takeDisp32_length hd
    simp only [Mem.tailLen, List.length_cons]
    omega
  · have := (takeDisp_some hd).1
    simp only [Mem.tailLen, List.length_cons]
    omega
  · exact takeDisp32_length hd
  · exact takeDisp32_length hd
  · exact (takeDisp_some hd).1

/-- The operand is well-formed where the extension bits name no register that the format does not have. -/
theorem takeMem_wf {m : Mode} {x b : Bool} {mod : BitVec 2} {rm : BitVec 3} {bytes rest : List Byte} {a : Mem}
    {lim : Nat} (hx : ∀ lo, (gprOf x lo).val < lim) (hb : ∀ lo, (gprOf b lo).val < lim)
    (h : takeMem m x b mod rm bytes = some (a, rest)) : a.wf m lim = true := by
  rcases takeMem_cases h with ⟨sib, tail, i, s, d, -, -, rfl, rfl⟩ | ⟨sib, tail, i, s, bs, d, -, h5, hd, rfl, rfl⟩ |
    ⟨d, -, ⟨rfl, rfl⟩ | ⟨rfl, rfl⟩⟩ | ⟨d, h4, h5, hd, rfl⟩
  · exact indexOk_indexOf hx _
  · have hbase : sibBaseOk (gprOf b bs) d = true := by
      rwa [sibBaseOk_iff, low3_gprOf, (takeDisp_some hd).2]
    simp [Mem.wf, hb, indexOk_indexOf hx, hbase]
  · rfl
  · rfl
  · have hbase : baseOk (gprOf b rm) d = true := by
      rw [baseOk_iff, low3_gprOf, (takeDisp_some hd).2]
      exact ⟨h4, h5⟩
    simp [Mem.wf, hb, hbase]

/-- A ModRM byte with what follows it: `mod = 11` is a register, any other `mod` memory. -/
theorem takeModrm_cases {m : Mode} {x b : Bool} {bytes rest : List Byte} {reg : BitVec 3} {rm : Rm}
    (h : takeModrm m x b bytes = some (reg, rm, rest)) :
    ∃ modrm tail, bytes = modrm :: tail ∧
      ((modrm.extractLsb' 6 2 = 3#2 ∧ rest = tail ∧ ∃ r, rm = .reg r) ∨
        (modrm.extractLsb' 6 2 ≠ 3#2 ∧ ∃ mod r a, takeMem m x b mod r tail = some (a, rest) ∧ rm = .mem a)) := by
  cases bytes with
  | nil => cases h
  | cons modrm tail =>
    simp only [takeModrm] at h
    split at h
    next h3 => cases h; exact ⟨_, _, rfl, .inl ⟨h3, rfl, _, rfl⟩⟩
    next h3 =>
      split at h <;> cases h
      next hmem => exact ⟨_, _, rfl, .inr ⟨h3, _, _, _, hmem, rfl⟩⟩

theorem takeModrm_register (m : Mode) (x b : Bool) (reg lo : BitVec 3) (rest : List Byte) :
    takeModrm m x b (pack233 3#2 reg lo :: rest) = some (reg, .reg lo, rest) := by
  simp [takeModrm, pack233_mod, pack233_reg, pack233_rm]

/-- The bytes of a memory operand read back, the extension bits being those it needs. -/
theorem takeModrm_encode_mem {m : Mode} {lim : Nat} {a : Mem} (h : a.wf m lim = true) (reg : BitVec 3)
    (rest : List Byte) :
    takeModrm m a.xBit a.bBit (a.encode reg ++ rest) = some (reg, .mem a, rest) := by
  cases a with
  | base b d =>
    have hb := (baseOk_iff b d).mp (Bool.and_eq_true_iff.mp h).2
    simp only [takeModrm, Mem.encode, List.cons_append, pack233_mod, pack233_reg, pack233_rm, if_neg d.mod_ne_three,
      takeMem, if_neg hb.1, d.mod_eq_zero_iff, if_neg hb.2, takeDisp_encode, Mem.bBit, gprOf_bits]
  | ripRel d =>
    obtain rfl : m = .mode64 := by simpa [Mem.wf] using h
    simp [takeModrm, Mem.encode, pack233_mod, pack233_reg, pack233_rm, takeMem, takeDisp32_encode32]
  | absolute d =>
    obtain rfl : m = .mode32 := by simpa [Mem.wf] using h
    simp [takeModrm, Mem.encode, pack233_mod, pack233_reg, pack233_rm, takeMem, takeDisp32_encode32]
  | sib b i s d =>
    obtain ⟨h', hb⟩ := Bool.and_eq_true_iff.mp h
    have hi := (Bool.and_eq_true_iff.mp h').2
    simp only [takeModrm, Mem.encode, List.cons_append, pack233_mod, pack233_reg, pack233_rm, if_neg d.mod_ne_three,
      takeMem, takeSib, if_true, d.mod_eq_zero_iff, if_neg ((sibBaseOk_iff b d).mp hb), takeDisp_encode, Mem.bBit,
      Mem.xBit, gprOf_bits, indexOf_bits hi]
  | sibNoBase i s d =>
    simp [takeModrm, Mem.encode, pack233_mod, pack233_reg, pack233_rm, takeMem, takeSib, takeDisp32_encode32,
      Mem.xBit, indexOf_bits (lim := lim) h]

/-- Below eight registers no extension bit is needed. -/
theorem Mem.bits_eq_false {m : Mode} {a : Mem} (h : a.wf m 8 = true) : a.xBit = false ∧ a.bBit = false := by
  have hidx : ∀ i, indexOk 8 i = true → bit3 (indexNum i) = false := by
    rintro (_ | n) hi
    · rfl
    · exact bit3_eq_false (of_decide_eq_true (Bool.and_eq_true_iff.mp hi).1)
  cases a with
  | base b d => exact ⟨rfl, bit3_eq_false (of_decide_eq_true (Bool.and_eq_true_iff.mp h).1)⟩
  | ripRel d => exact ⟨rfl, rfl⟩
  | absolute d => exact ⟨rfl, rfl⟩
  | sib b i s d =>
    obtain ⟨⟨hb, hi⟩, -⟩ : (b.val < 8 ∧ indexOk 8 i = true) ∧ sibBaseOk b d = true := by simpa [Mem.wf] using h
    exact ⟨hidx i hi, bit3_eq_false hb⟩
  | sibNoBase i s d => exact ⟨hidx i h, rfl⟩

/-! ### Operand 2 (30_encoding.md R58, R60) -/

/-- Operand 2 of a LEGACY or VEX form before the extension bits are added. -/
def Source.rm : Source → Rm
  | .reg n => .reg (low3 n.val)
  | .mem a => .mem a

/-- Operand 2 of an EVEX form before the extension bits are added. -/
def EvexSource.rm : EvexSource → Rm
  | .reg n => .reg (low3 n.val)
  | .mem _ a => .mem a

/-- How many bytes follow ModRM for an operand 2. -/
def Rm.tailLen : Rm → Nat
  | .reg _ => 0
  | .mem a => a.tailLen

theorem takeModrm_length {m : Mode} {x b : Bool} {bytes rest : List Byte} {reg : BitVec 3} {rm : Rm}
    (h : takeModrm m x b bytes = some (reg, rm, rest)) : bytes.length = 1 + rm.tailLen + rest.length := by
  obtain ⟨modrm, tail, rfl, ⟨-, rfl, r, rfl⟩ | ⟨-, mod, r, a, hmem, rfl⟩⟩ := takeModrm_cases h
  · simp only [Rm.tailLen, List.length_cons]
    omega
  · have := takeMem_length hmem
    simp only [Rm.tailLen, List.length_cons]
    omega

@[simp] theorem sourceOf_tailLen (ext : Bool) (rm : Rm) : (sourceOf ext rm).tailLen = rm.tailLen := by
  cases rm <;> rfl

theorem sourceOf_rm {src : Source} {m : Mode} {regLim memLim : Nat} (h : src.wf m regLim memLim = true)
    (hreg : regLim ≤ 16) : sourceOf src.bBit src.rm = src := by
  cases src with
  | reg n =>
    have hn : n.val < regLim := of_decide_eq_true h
    exact congrArg Source.reg (vecOf_false_bits (by omega))
  | mem a => rfl

theorem takeModrm_encode_source {src : Source} {m : Mode} {regLim memLim : Nat}
    (h : src.wf m regLim memLim = true) (reg : BitVec 3) (rest : List Byte) :
    takeModrm m src.xBit src.bBit (src.encode reg ++ rest) = some (reg, src.rm, rest) := by
  cases src with
  | reg n => exact takeModrm_register m _ _ reg (low3 n.val) rest
  | mem a => exact takeModrm_encode_mem h reg rest

theorem Source.bits_eq_false {src : Source} {m : Mode} (h : src.wf m 8 8 = true) :
    src.xBit = false ∧ src.bBit = false := by
  cases src with
  | reg n => exact ⟨rfl, bit3_eq_false (of_decide_eq_true h)⟩
  | mem a => exact Mem.bits_eq_false h

theorem takeModrm_encode_evexSource {src : EvexSource} {m : Mode} (h : src.wf m = true) (reg : BitVec 3)
    (rest : List Byte) :
    takeModrm m src.xBit src.bBit (src.encode reg ++ rest) = some (reg, src.rm, rest) := by
  cases src with
  | reg n => exact takeModrm_register m _ _ reg (low3 n.val) rest
  | mem c a => exact takeModrm_encode_mem h reg rest

theorem EvexSource.bits_eq_false {src : EvexSource} (h : src.wf .mode32 = true) :
    src.xBit = false ∧ src.bBit = false := by
  cases src with
  | reg n =>
    have hn : n.val < 8 := of_decide_eq_true h
    exact ⟨bit4_eq_false (by omega), bit3_eq_false hn⟩
  | mem c a => exact Mem.bits_eq_false h

end Sys2Proof

namespace Sys2Proof

open Sys2Proof.Safety

/-! ### What each format decodes to (30_encoding.md R49 to R57, R71) -/

/-- Nothing before the format makes the decoder refuse the string (30_encoding.md R46, R48, R66). -/
structure PrefixScan.Accepted (m : Mode) (p : PrefixScan) : Prop where
  notSixteenBit : p.sixteenBit m = false
  noStrayRex    : p.strayRex = false
  notRedundant  : p.redundant = false

/-- Bit `n` of the REX byte before the format, 0 without one (30_encoding.md R48). -/
def PrefixScan.rexBit (p : PrefixScan) (n : Nat) : Bool :=
  match p.rex with
  | some r => r.getLsbD n
  | none => false

/-- A byte of 30_encoding.md R53 stands before the format. -/
def PrefixScan.bad (p : PrefixScan) : Bool := p.simd || p.rex.isSome

/-- The instruction of a LEGACY format (30_encoding.md R49). -/
def legacyInstr (p : PrefixScan) (reg : BitVec 3) (rm : Rm) : Instr :=
  .cvtps2pd {
    pre := p.prefixes
    rex := p.rex.map (·.getLsbD 3)
    dst := vecOf false (p.rexBit 2) reg
    src := sourceOf (p.rexBit 0) rm }

/-- The operands of a two-byte VEX format (30_encoding.md R50). -/
def vex2Op (p : PrefixScan) (b1 : Byte) (reg : BitVec 3) (rm : Rm) : VexOp where
  pre := p.prefixes
  badPrefix := p.bad
  w := false
  vvvv := b1.extractLsb' 3 4
  dst := vecOf false (!b1.getLsbD 7) reg
  src := sourceOf false rm

/-- The operands of a three-byte VEX format (30_encoding.md R51). -/
def vex3Op (p : PrefixScan) (b1 b2 : Byte) (reg : BitVec 3) (rm : Rm) : VexOp where
  pre := p.prefixes
  badPrefix := p.bad
  w := b2.getLsbD 7
  vvvv := b2.extractLsb' 3 4
  dst := vecOf false (!b1.getLsbD 7) reg
  src := sourceOf (!b1.getLsbD 5) rm

/-- The instruction of a two-byte VEX format, by `L` (30_encoding.md R50). -/
def vex2Instr (p : PrefixScan) (b1 : Byte) (reg : BitVec 3) (rm : Rm) : Instr :=
  if b1.getLsbD 2 then .vcvtps2pdVex256C5 (vex2Op p b1 reg rm) else .vcvtps2pdVex128C5 (vex2Op p b1 reg rm)

/-- The instruction of a three-byte VEX format, by `L` (30_encoding.md R51). -/
def vex3Instr (p : PrefixScan) (b1 b2 : Byte) (reg : BitVec 3) (rm : Rm) : Instr :=
  if b2.getLsbD 2 then .vcvtps2pdVex256C4 (vex3Op p b1 b2 reg rm) else .vcvtps2pdVex128C4 (vex3Op p b1 b2 reg rm)

/-- The bytes of a format, an instruction, and the bytes after it, that belong together after the prefixes `p`: one case
for each format, with all that R49 to R57 ask of its fields. -/
inductive FormatOf (m : Mode) (p : PrefixScan) (rest : List Byte) : List Byte → Instr → Prop
  | legacy {tail : List Byte} {reg : BitVec 3} {rm : Rm} (simd : p.simd = false)
      (modrm : takeModrm m (p.rexBit 1) (p.rexBit 0) tail = some (reg, rm, rest)) :
      FormatOf m p rest (0x0F#8 :: 0x5A#8 :: tail) (legacyInstr p reg rm)
  | vex2 {b1 : Byte} {tail : List Byte} {reg : BitVec 3} {rm : Rm} (ext : otherInMode32 m b1 = false)
      (pp : b1.extractLsb' 0 2 = 0#2) (modrm : takeModrm m false false tail = some (reg, rm, rest)) :
      FormatOf m p rest (0xC5#8 :: b1 :: 0x5A#8 :: tail) (vex2Instr p b1 reg rm)
  | vex3 {b1 b2 : Byte} {tail : List Byte} {reg : BitVec 3} {rm : Rm} (ext : otherInMode32 m b1 = false)
      (ext' : (m == .mode32 && !b1.getLsbD 5) = false) (map : b1.extractLsb' 0 5 = 1#5) (pp : b2.extractLsb' 0 2 = 0#2)
      (modrm : takeModrm m (!b1.getLsbD 6) (!b1.getLsbD 5) tail = some (reg, rm, rest)) :
      FormatOf m p rest (0xC4#8 :: b1 :: b2 :: 0x5A#8 :: tail) (vex3Instr p b1 b2 reg rm)
  | evex {p0 p1 p2 : Byte} {tail : List Byte} {reg : BitVec 3} {rm : Rm} (ext : otherInMode32 m p0 = false)
      (ext' : (m == .mode32 && !(p0.getLsbD 5 && p0.getLsbD 4 && p2.getLsbD 3)) = false)
      (map : p0.extractLsb' 0 4 = 1#4) (fixed : p1.extractLsb' 0 3 = 4#3)
      (modrm : takeModrm m (!p0.getLsbD 6) (!p0.getLsbD 5) tail = some (reg, rm, rest)) :
      FormatOf m p rest (0x62#8 :: p0 :: p1 :: p2 :: 0x5A#8 :: tail) (evexInstr p p.bad p0 p1 p2 reg rm)

theorem Decoded.accept_eq_instr_iff {p : PrefixScan} {e : Bool} {i j : Instr} {rest r : List Byte} :
    Decoded.accept p e i rest = .instr j r ↔
      p.strayRex = false ∧ p.redundant = false ∧ e = false ∧ j = i ∧ r = rest := by
  refine ⟨Decoded.accept_instr, ?_⟩
  rintro ⟨h1, h2, rfl, rfl, rfl⟩
  simp [Decoded.accept, h1, h2]

/-- What the formats share once their opcode is there gives an instruction iff nothing before the format refuses it, the
operands are complete, and no extension bit is stored as 0 in `Mode32`. -/
theorem operands_eq_instr_iff {m : Mode} {x b : Bool} {p : PrefixScan} {e : Bool} {f : BitVec 3 → Rm → Instr}
    {bytes rest : List Byte} {i : Instr} :
    (if p.sixteenBit m then refuseSixteenBit bytes else match takeModrm m x b bytes with
      | none => Decoded.truncated
      | some (reg, rm, rest') => Decoded.accept p e (f reg rm) rest') = .instr i rest ↔
    p.Accepted m ∧ e = false ∧ ∃ reg rm, takeModrm m x b bytes = some (reg, rm, rest) ∧ i = f reg rm := by
  constructor
  · intro h
    split at h
    · exact absurd h (refuseSixteenBit_ne_instr _ _ _)
    next h16 =>
      split at h
      · cases h
      next hm =>
        obtain ⟨hs, hr, he, hi, rfl⟩ := Decoded.accept_instr h
        exact ⟨⟨by simpa using h16, hs, hr⟩, he, _, _, hm, hi⟩
  · rintro ⟨⟨h16, hs, hr⟩, rfl, reg, rm, hm, rfl⟩
    simp only [h16, hm, Bool.false_eq_true, if_false]
    exact Decoded.accept_eq_instr_iff.mpr ⟨hs, hr, rfl, rfl, rfl⟩

section Formats

variable {m : Mode} {p : PrefixScan} {bytes rest : List Byte} {i : Instr}

theorem decodeVex2_eq_instr_iff {b1 : Byte} :
    decodeVex2 m p p.bad b1 bytes = .instr i rest ↔
      ∃ tail, bytes = 0x5A#8 :: tail ∧ b1.extractLsb' 0 2 = 0#2 ∧ p.Accepted m ∧
        ∃ reg rm, takeModrm m false false tail = some (reg, rm, rest) ∧ i = vex2Instr p b1 reg rm := by
  constructor
  · intro h
    unfold decodeVex2 at h
    split at h
    · split at h
      · cases h
      next hc =>
        obtain ⟨hp, -, hop⟩ := operands_eq_instr_iff.mp h
        simp only [not_or, not_not] at hc
        obtain ⟨hpp, rfl⟩ := hc
        exact ⟨_, rfl, hpp, hp, hop⟩
    · cases h
  · rintro ⟨tail, rfl, hpp, hp, hop⟩
    simp only [decodeVex2, hpp, ne_eq, not_true_eq_false, or_self, if_false]
    exact operands_eq_instr_iff.mpr ⟨hp, rfl, hop⟩

theorem decodeVex3_eq_instr_iff {b1 : Byte} :
    decodeVex3 m p p.bad b1 bytes = .instr i rest ↔
      ∃ b2 tail, bytes = b2 :: 0x5A#8 :: tail ∧ b1.extractLsb' 0 5 = 1#5 ∧ b2.extractLsb' 0 2 = 0#2 ∧
        p.Accepted m ∧ (m == .mode32 && !b1.getLsbD 5) = false ∧
        ∃ reg rm, takeModrm m (!b1.getLsbD 6) (!b1.getLsbD 5) tail = some (reg, rm, rest) ∧
          i = vex3Instr p b1 b2 reg rm := by
  constructor
  · intro h
    unfold decodeVex3 at h
    split at h
    · split at h
      · cases h
      next hc =>
        obtain ⟨hp, he, hop⟩ := operands_eq_instr_iff.mp h
        simp only [not_or, not_not] at hc
        obtain ⟨hmap, hpp, rfl⟩ := hc
        exact ⟨_, _, rfl, hmap, hpp, hp, he, hop⟩
    · cases h
  · rintro ⟨b2, tail, rfl, hmap, hpp, hp, he, hop⟩
    simp only [decodeVex3, hmap, hpp, ne_eq, not_true_eq_false, or_self, if_false]
    exact operands_eq_instr_iff.mpr ⟨hp, he, hop⟩

theorem decodeEvex_eq_instr_iff {p0 : Byte} :
    decodeEvex m p p.bad p0 bytes = .instr i rest ↔
      ∃ p1 p2 tail, bytes = p1 :: p2 :: 0x5A#8 :: tail ∧ p0.extractLsb' 0 4 = 1#4 ∧ p1.extractLsb' 0 3 = 4#3 ∧
        p.Accepted m ∧ (m == .mode32 && !(p0.getLsbD 5 && p0.getLsbD 4 && p2.getLsbD 3)) = false ∧
        ∃ reg rm, takeModrm m (!p0.getLsbD 6) (!p0.getLsbD 5) tail = some (reg, rm, rest) ∧
          i = evexInstr p p.bad p0 p1 p2 reg rm := by
  constructor
  · intro h
    unfold decodeEvex at h
    split at h
    · split at h
      · cases h
      next hc =>
        obtain ⟨hp, he, hop⟩ := operands_eq_instr_iff.mp h
        simp only [not_or, not_not] at hc
        obtain ⟨hmap, hfix, rfl⟩ := hc
        exact ⟨_, _, _, rfl, hmap, hfix, hp, he, hop⟩
    · cases h
  · rintro ⟨p1, p2, tail, rfl, hmap, hfix, hp, he, hop⟩
    simp only [decodeEvex, hmap, hfix, ne_eq, not_true_eq_false, or_self, if_false]
    exact operands_eq_instr_iff.mpr ⟨hp, he, hop⟩

theorem decodeVector_eq_instr_iff {b b1 : Byte} :
    decodeVector m p b b1 bytes = .instr i rest ↔ otherInMode32 m b1 = false ∧
      ((b = 0xC5#8 ∧ decodeVex2 m p p.bad b1 bytes = .instr i rest) ∨
        (b ≠ 0xC5#8 ∧ b = 0xC4#8 ∧ decodeVex3 m p p.bad b1 bytes = .instr i rest) ∨
        (b ≠ 0xC5#8 ∧ b ≠ 0xC4#8 ∧ decodeEvex m p p.bad b1 bytes = .instr i rest)) := by
  simp only [decodeVector]
  split_ifs with ho h5 h4 <;> simp_all [PrefixScan.bad]

/-- Step 2 of R71 gives an instruction iff nothing before the format refuses it and it belongs to the bytes of the
format. -/
theorem decodeFormat_eq_instr_iff :
    decodeFormat m p bytes = .instr i rest ↔ p.Accepted m ∧ FormatOf m p rest bytes i := by
  constructor
  · intro h
    unfold decodeFormat at h
    split at h
    · cases h
    split at h
    next h0F =>
      subst h0F
      split at h
      · cases h
      split at h
      · cases h
      next hc =>
        simp only [not_or, not_not, Bool.not_eq_true] at hc
        obtain ⟨rfl, hsimd⟩ := hc
        obtain ⟨hp, -, reg, rm, hm, rfl⟩ := operands_eq_instr_iff.mp h
        exact ⟨hp, .legacy hsimd hm⟩
    next h0F =>
      split at h
      next hb =>
        split at h
        · cases h
        obtain ⟨ho, ⟨rfl, hv⟩ | ⟨-, rfl, hv⟩ | ⟨h5, h4, hv⟩⟩ := decodeVector_eq_instr_iff.mp h
        · obtain ⟨tail, rfl, hpp, hp, reg, rm, hm, rfl⟩ := decodeVex2_eq_instr_iff.mp hv
          exact ⟨hp, .vex2 ho hpp hm⟩
        · obtain ⟨b2, tail, rfl, hmap, hpp, hp, he, reg, rm, hm, rfl⟩ := decodeVex3_eq_instr_iff.mp hv
          exact ⟨hp, .vex3 ho he hmap hpp hm⟩
        · obtain rfl := (hb.resolve_left h5).resolve_left h4
          obtain ⟨p1, p2, tail, rfl, hmap, hfix, hp, he, reg, rm, hm, rfl⟩ := decodeEvex_eq_instr_iff.mp hv
          exact ⟨hp, .evex ho he hmap hfix hm⟩
      · cases h
  · rintro ⟨hp, hf⟩
    cases hf with
    | legacy hsimd hm =>
      simp only [decodeFormat, if_true, hsimd, ne_eq, not_true_eq_false, Bool.false_eq_true, or_self, if_false]
      exact operands_eq_instr_iff.mpr ⟨hp, rfl, _, _, hm, rfl⟩
    | vex2 ho hpp hm =>
      exact decodeVector_eq_instr_iff.mpr ⟨ho, .inl ⟨rfl, decodeVex2_eq_instr_iff.mpr
        ⟨_, rfl, hpp, hp, _, _, hm, rfl⟩⟩⟩
    | vex3 ho he hmap hpp hm =>
      exact decodeVector_eq_instr_iff.mpr ⟨ho, .inr (.inl ⟨by decide, rfl, decodeVex3_eq_instr_iff.mpr
        ⟨_, _, rfl, hmap, hpp, hp, he, _, _, hm, rfl⟩⟩)⟩
    | evex ho he hmap hfix hm =>
      exact decodeVector_eq_instr_iff.mpr ⟨ho, .inr (.inr ⟨by decide, by decide, decodeEvex_eq_instr_iff.mpr
        ⟨_, _, _, rfl, hmap, hfix, hp, he, _, _, hm, rfl⟩⟩)⟩

end Formats

/-- What decoding to an instruction means: the prefixes are accepted, and the bytes of the format are the
instruction's. -/
theorem decode_eq_instr_iff {m : Mode} {bytes rest : List Byte} {i : Instr} :
    decode m bytes = .instr i rest ↔ (scanPrefixes m .start bytes).1.Accepted m ∧
      FormatOf m (scanPrefixes m .start bytes).1 rest (scanPrefixes m .start bytes).2 i := decodeFormat_eq_instr_iff

/-! ### What an instruction keeps of its prefixes -/

@[simp] theorem prefixesOf_evexRow (ll : BitVec 2) (op : EvexOp) : prefixesOf (evexRow ll op) = op.pre := by
  unfold evexRow; split_ifs <;> rfl

@[simp] theorem badPrefixOf_evexRow (ll : BitVec 2) (op : EvexOp) : badPrefixOf (evexRow ll op) = op.badPrefix := by
  unfold evexRow; split_ifs <;> rfl

@[simp] theorem len_evexRow (ll : BitVec 2) (op : EvexOp) : (evexRow ll op).len = op.len := by
  unfold evexRow; split_ifs <;> rfl

@[simp] theorem wf_evexRow (m : Mode) (ll : BitVec 2) (op : EvexOp) : (evexRow ll op).wf m = op.wf m := by
  unfold evexRow; split_ifs <;> rfl

section EvexInstr

variable (p : PrefixScan) (bad : Bool) (p0 p1 p2 : Byte) (reg : BitVec 3) (rm : Rm)

@[simp] theorem prefixesOf_evexInstr : prefixesOf (evexInstr p bad p0 p1 p2 reg rm) = p.prefixes := by
  cases rm with
  | mem a => exact prefixesOf_evexRow _ _
  | reg r =>
    simp only [evexInstr]
    split
    · rfl
    · exact prefixesOf_evexRow _ _

@[simp] theorem badPrefixOf_evexInstr : badPrefixOf (evexInstr p bad p0 p1 p2 reg rm) = bad := by
  cases rm with
  | mem a => exact badPrefixOf_evexRow _ _
  | reg r =>
    simp only [evexInstr]
    split
    · rfl
    · exact badPrefixOf_evexRow _ _

theorem len_evexInstr :
    (evexInstr p bad p0 p1 p2 reg rm).len = p.prefixes.len + (if bad then 1 else 0) + 4 + 1 + 1 + rm.tailLen := by
  cases rm with
  | mem a => exact len_evexRow _ _
  | reg r =>
    simp only [evexInstr]
    split
    · rfl
    · exact len_evexRow _ _

end EvexInstr

theorem FormatOf.prefixesOf_eq {m : Mode} {p : PrefixScan} {fmt rest : List Byte} {i : Instr}
    (h : FormatOf m p rest fmt i) : prefixesOf i = p.prefixes := by
  cases h with
  | legacy => rfl
  | vex2 => unfold vex2Instr; split <;> rfl
  | vex3 => unfold vex3Instr; split <;> rfl
  | evex => exact prefixesOf_evexInstr _ _ _ _ _ _ _

end Sys2Proof

namespace Sys2Proof

open Sys2Proof.Safety

/-! ### Well-formed instructions, part by part (30_encoding.md R48, R54, R57, R66) -/

theorem LegacyOp.wf_iff (m : Mode) (op : LegacyOp) :
    op.wf m = true ↔ op.pre.wf m = true ∧ (m = .mode64 ∨ op.rex = none) ∧ op.dst.val < vecLimit m op.rex.isSome ∧
      op.src.wf m (vecLimit m op.rex.isSome) (gprLimit m op.rex.isSome) = true := by
  simp [LegacyOp.wf, and_assoc]

theorem VexOp.wfC5_iff (m : Mode) (op : VexOp) :
    op.wfC5 m = true ↔ op.pre.wf m = true ∧ op.w = false ∧ (m = .mode64 ∨ op.vvvv.getLsbD 3 = true) ∧
      op.dst.val < vecLimit m true ∧ op.src.wf m 8 8 = true := by
  simp [VexOp.wfC5, and_assoc]

theorem VexOp.wfC4_iff (m : Mode) (op : VexOp) :
    op.wfC4 m = true ↔ op.pre.wf m = true ∧ op.dst.val < vecLimit m true ∧
      op.src.wf m (vecLimit m true) (gprLimit m true) = true := by
  simp [VexOp.wfC4, and_assoc]

theorem EvexOp.wf_iff (m : Mode) (op : EvexOp) :
    op.wf m = true ↔ op.pre.wf m = true ∧ (m = .mode64 ∨ op.vbar = true) ∧ op.dst.val < evexLimit m ∧
      op.src.wf m = true := by
  simp [EvexOp.wf, and_assoc]

theorem SaeOp.wf_iff (m : Mode) (op : SaeOp) :
    op.wf m = true ↔ op.pre.wf m = true ∧ (m = .mode64 ∨ op.vbar = true) ∧ op.dst.val < evexLimit m ∧
      op.src.val < evexLimit m := by
  simp [SaeOp.wf, and_assoc]

/-! ### Before the format (30_encoding.md R46, R48) -/

/-- What the scan has noted after the bytes of `encodePrefixes`. -/
def Prefixes.scanned (p : Prefixes) (bad : Bool) : PrefixScan := ⟨p.seg, p.addr67, p.lock, bad, false, none, false⟩

@[simp] theorem Prefixes.scanned_bad (p : Prefixes) (bad : Bool) : (p.scanned bad).bad = bad := Bool.or_false bad

theorem Prefixes.scanned_accepted {m : Mode} {p : Prefixes} (h : p.wf m = true) (bad : Bool) :
    (p.scanned bad).Accepted m where
  notSixteenBit := by
    cases m with
    | mode64 => rfl
    | mode32 => simpa [Prefixes.wf, PrefixScan.sixteenBit, Prefixes.scanned] using h
  noStrayRex := rfl
  notRedundant := rfl

/-- No prefix and no REX byte starts a format. -/
theorem take_formatByte (m : Mode) (p : PrefixScan) {b : Byte} (h : b ∈ [0x0F#8, 0xC5#8, 0xC4#8, 0x62#8]) :
    p.take m b = none := by
  simp only [List.mem_cons, List.not_mem_nil, or_false] at h
  rcases h with rfl | rfl | rfl | rfl <;> cases m <;> rfl

/-- The format is reached just after the prefixes the encoder writes. -/
theorem scanPrefixes_encodePrefixes_format (m : Mode) (p : Prefixes) (bad : Bool) {b : Byte}
    (h : b ∈ [0x0F#8, 0xC5#8, 0xC4#8, 0x62#8]) (rest : List Byte) :
    scanPrefixes m .start (encodePrefixes p bad ++ b :: rest) = (p.scanned bad, b :: rest) := by
  rw [scanPrefixes_encodePrefixes]
  exact scanPrefixes_stop (take_formatByte m _ h) rest

theorem decode_of_scan {m : Mode} {p : PrefixScan} {bytes fmt rest : List Byte} {i : Instr}
    (hscan : scanPrefixes m .start bytes = (p, fmt)) (hp : p.Accepted m) (hf : FormatOf m p rest fmt i) :
    decode m bytes = .instr i rest := by
  rw [decode_eq_instr_iff, hscan]
  exact ⟨hp, hf⟩

/-- No byte of the form `0100WRXB` is a legacy prefix. -/
theorem note_rexByte (p : PrefixScan) {b : Byte} (h : b.extractLsb' 4 4 = 4#4) : p.note b = none := by
  have hb : segOfByte b = none ∧ b ≠ 0x67#8 ∧ b ≠ 0xF0#8 ∧ b ≠ 0x66#8 ∧ b ≠ 0xF2#8 ∧ b ≠ 0xF3#8 := by
    revert b; decide
  obtain ⟨hseg, h67, hF0, h66, hF2, hF3⟩ := hb
  simp [PrefixScan.note, hseg, h67, hF0, h66, hF2, hF3]

theorem take_rexByte (p : PrefixScan) {b : Byte} (h : b.extractLsb' 4 4 = 4#4) :
    p.take .mode64 b = some { p with rex := some b, strayRex := p.strayRex || p.rex.isSome } := by
  simp [PrefixScan.take, note_rexByte p h, isRexByte, h]

/-! ### The encoder's bytes decode: LEGACY (30_encoding.md R49) -/

/-- What the scan has noted before the format of a LEGACY instruction. -/
def LegacyOp.scanned (op : LegacyOp) : PrefixScan :=
  { op.pre.scanned false with rex := op.rex.map fun w => rexByte w (bit3 op.dst.val) op.src.xBit op.src.bBit }

theorem LegacyOp.scanPrefixes_encode {m : Mode} {op : LegacyOp} (h : op.wf m = true) (rest : List Byte) :
    scanPrefixes m .start (op.encode ++ rest) =
      (op.scanned, 0x0F#8 :: 0x5A#8 :: (op.src.encode (low3 op.dst.val) ++ rest)) := by
  obtain ⟨-, hm, -, -⟩ := (op.wf_iff m).mp h
  obtain ⟨pre, rex, dst, src⟩ := op
  cases rex with
  | none =>
    have hscan := scanPrefixes_encodePrefixes_format m pre false (b := 0x0F#8) (by decide)
      (0x5A#8 :: (src.encode (low3 dst.val) ++ rest))
    simpa [LegacyOp.encode, LegacyOp.scanned, Prefixes.scanned] using hscan
  | some w =>
    obtain rfl : m = .mode64 := by simpa using hm
    have hscan := scanPrefixes_encodePrefixes .mode64 pre false (rexByte w (bit3 dst.val) src.xBit src.bBit ::
      0x0F#8 :: 0x5A#8 :: (src.encode (low3 dst.val) ++ rest))
    rw [scanPrefixes_cons (take_rexByte _ (rexByte_fields _ _ _ _).1),
      scanPrefixes_stop (take_formatByte _ _ (by decide))] at hscan
    simpa [LegacyOp.encode, LegacyOp.scanned, Prefixes.scanned] using hscan

/-- The REX bits are those the operands need; without REX they need none. -/
theorem LegacyOp.scanned_rexBits {m : Mode} {op : LegacyOp} (h : op.wf m = true) :
    op.scanned.rexBit 2 = bit3 op.dst.val ∧ op.scanned.rexBit 1 = op.src.xBit ∧
      op.scanned.rexBit 0 = op.src.bBit := by
  obtain ⟨-, -, hdst, hsrc⟩ := (op.wf_iff m).mp h
  obtain ⟨pre, rex, dst, src⟩ := op
  cases rex with
  | none =>
    simp only [Option.isSome_none, vecLimit_no_ext, gprLimit_no_ext] at hdst hsrc
    obtain ⟨hx, hb⟩ := Source.bits_eq_false hsrc
    exact ⟨(bit3_eq_false hdst).symm, hx.symm, hb.symm⟩
  | some w =>
    obtain ⟨-, -, hbits⟩ := rexByte_fields w (bit3 dst.val) src.xBit src.bBit
    exact hbits

theorem LegacyOp.legacyInstr_scanned {m : Mode} {op : LegacyOp} (h : op.wf m = true) :
    legacyInstr op.scanned (low3 op.dst.val) op.src.rm = .cvtps2pd op := by
  obtain ⟨hr, -, hb⟩ := op.scanned_rexBits h
  obtain ⟨-, -, hdst, hsrc⟩ := (op.wf_iff m).mp h
  have hlim : vecLimit m op.rex.isSome ≤ 16 := gprLimit_le m _
  have hrex : op.scanned.rex.map (·.getLsbD 3) = op.rex := by
    simp only [LegacyOp.scanned]
    cases op.rex with
    | none => rfl
    | some w => exact congrArg some (rexByte_fields w (bit3 op.dst.val) op.src.xBit op.src.bBit).2.1
  rw [legacyInstr, hr, hb, hrex, vecOf_false_bits (by omega), sourceOf_rm hsrc hlim]
  rfl

theorem decode_encode_legacy {m : Mode} {op : LegacyOp} (h : op.wf m = true) (rest : List Byte) :
    decode m (op.encode ++ rest) = .instr (.cvtps2pd op) rest := by
  obtain ⟨hpre, -, -, hsrc⟩ := (op.wf_iff m).mp h
  obtain ⟨-, hx, hb⟩ := op.scanned_rexBits h
  have hp := Prefixes.scanned_accepted hpre false
  have hmodrm := takeModrm_encode_source hsrc (low3 op.dst.val) rest
  rw [← hx, ← hb] at hmodrm
  refine decode_of_scan (op.scanPrefixes_encode h rest) ⟨hp.1, hp.2, hp.3⟩ ?_
  rw [← op.legacyInstr_scanned h]
  exact .legacy rfl hmodrm

/-! ### The encoder's bytes decode: VEX (30_encoding.md R50, R51, R54) -/

/-- In `Mode32` no register of a LEGACY or VEX form needs an extension bit. -/
theorem bit3_eq_false_of_mode32 {m : Mode} {n : Nat} (h : n < vecLimit m true) (hm : m = .mode32) :
    bit3 n = false := by
  subst hm
  exact bit3_eq_false h

theorem otherInMode32_vex2Byte {m : Mode} {r : Bool} {v : BitVec 4} (hr : m = .mode32 → r = false)
    (hv : m = .mode64 ∨ v.getLsbD 3 = true) (l : Bool) : otherInMode32 m (vex2Byte r v l) = false := by
  cases m with
  | mode64 => rfl
  | mode32 =>
    obtain rfl := hr rfl
    have hv : v.getLsbD 3 = true := by simpa using hv
    revert v l; decide

theorem otherInMode32_vex3Byte1 {m : Mode} {r x : Bool} (h : m = .mode32 → r = false ∧ x = false) (b : Bool) :
    otherInMode32 m (vex3Byte1 r x b) = false := by
  cases m with
  | mode64 => rfl
  | mode32 => obtain ⟨rfl, rfl⟩ := h rfl; cases b <;> rfl

theorem Source.bits_eq_false_of_mode32 {m : Mode} {src : Source} (h : src.wf m (vecLimit m true) (gprLimit m true))
    (hm : m = .mode32) : src.xBit = false ∧ src.bBit = false := by
  subst hm
  exact Source.bits_eq_false h

theorem decode_encodeC5 {m : Mode} {op : VexOp} (h : op.wfC5 m = true) (l : Bool) (rest : List Byte) :
    decode m (op.encodeC5 l ++ rest) =
      .instr (if l then .vcvtps2pdVex256C5 op else .vcvtps2pdVex128C5 op) rest := by
  obtain ⟨hpre, hw, hv, hdst, hsrc⟩ := (op.wfC5_iff m).mp h
  obtain ⟨hR, hvvvv, hL, hpp⟩ := vex2Byte_fields (bit3 op.dst.val) op.vvvv l
  obtain ⟨hx, hb⟩ := Source.bits_eq_false hsrc
  have hlim : vecLimit m true ≤ 16 := gprLimit_le m true
  have hop : vex2Op (op.pre.scanned op.badPrefix) (vex2Byte (bit3 op.dst.val) op.vvvv l) (low3 op.dst.val) op.src.rm =
      op := by
    have hsrcOf := sourceOf_rm hsrc (by decide)
    rw [hb] at hsrcOf
    simp only [vex2Op, hR, hvvvv, Bool.not_not, vecOf_false_bits (show op.dst.val < 16 by omega), hsrcOf,
      Prefixes.scanned_bad]
    exact show { op with w := false } = op by rw [← hw]
  have hmodrm := takeModrm_encode_source hsrc (low3 op.dst.val) rest
  rw [hx, hb] at hmodrm
  have hf := FormatOf.vex2 (p := op.pre.scanned op.badPrefix)
    (otherInMode32_vex2Byte (bit3_eq_false_of_mode32 hdst) hv l) hpp hmodrm
  rw [vex2Instr, hL, hop] at hf
  refine decode_of_scan ?_ (Prefixes.scanned_accepted hpre op.badPrefix) hf
  simpa [VexOp.encodeC5] using scanPrefixes_encodePrefixes_format m op.pre op.badPrefix (b := 0xC5#8) (by decide) _

theorem decode_encodeC4 {m : Mode} {op : VexOp} (h : op.wfC4 m = true) (l : Bool) (rest : List Byte) :
    decode m (op.encodeC4 l ++ rest) =
      .instr (if l then .vcvtps2pdVex256C4 op else .vcvtps2pdVex128C4 op) rest := by
  obtain ⟨hpre, hdst, hsrc⟩ := (op.wfC4_iff m).mp h
  obtain ⟨hR, hX, hB, hmap⟩ := vex3Byte1_fields (bit3 op.dst.val) op.src.xBit op.src.bBit
  obtain ⟨hW, hvvvv, hL, hpp⟩ := vex3Byte2_fields op.w op.vvvv l
  have hlim : vecLimit m true ≤ 16 := gprLimit_le m true
  have hbits := Source.bits_eq_false_of_mode32 hsrc
  have hop : vex3Op (op.pre.scanned op.badPrefix) (vex3Byte1 (bit3 op.dst.val) op.src.xBit op.src.bBit)
      (vex3Byte2 op.w op.vvvv l) (low3 op.dst.val) op.src.rm = op := by
    simp only [vex3Op, hR, hB, hW, hvvvv, Bool.not_not, vecOf_false_bits (show op.dst.val < 16 by omega),
      sourceOf_rm hsrc hlim, Prefixes.scanned_bad]
    rfl
  have hmodrm := takeModrm_encode_source hsrc (low3 op.dst.val) rest
  rw [← Bool.not_not op.src.xBit, ← Bool.not_not op.src.bBit, ← hX, ← hB] at hmodrm
  have hext : (m == .mode32 && !(vex3Byte1 (bit3 op.dst.val) op.src.xBit op.src.bBit).getLsbD 5) = false := by
    cases m with
    | mode64 => rfl
    | mode32 => rw [hB, (hbits rfl).2]; rfl
  have hf := FormatOf.vex3 (p := op.pre.scanned op.badPrefix)
    (otherInMode32_vex3Byte1 (fun hm => ⟨bit3_eq_false_of_mode32 hdst hm, (hbits hm).1⟩) _) hext hmap hpp hmodrm
  rw [vex3Instr, hL, hop] at hf
  refine decode_of_scan ?_ (Prefixes.scanned_accepted hpre op.badPrefix) hf
  simpa [VexOp.encodeC4] using scanPrefixes_encodePrefixes_format m op.pre op.badPrefix (b := 0xC4#8) (by decide) _

/-! ### The encoder's bytes decode: EVEX (30_encoding.md R55 to R57) -/

/-- In `Mode32` no destination of an EVEX form needs an extension bit. -/
theorem bits_eq_false_of_mode32 {m : Mode} {n : Nat} (h : n < evexLimit m) (hm : m = .mode32) :
    bit3 n = false ∧ bit4 n = false := by
  subst hm
  have h8 : n < 8 := h
  exact ⟨bit3_eq_false h8, bit4_eq_false (by omega)⟩

theorem otherInMode32_evexP0 {m : Mode} {r x : Bool} (h : m = .mode32 → r = false ∧ x = false) (b r' : Bool) :
    otherInMode32 m (evexP0 r x b r') = false := by
  cases m with
  | mode64 => rfl
  | mode32 => obtain ⟨rfl, rfl⟩ := h rfl; cases b <;> cases r' <;> rfl

/-- The bytes of an EVEX format, whatever operand 2 is: extension bits that `Mode32` does not need, and the operands'
bytes reading back, are all that R55 to R57 ask. -/
theorem formatOf_evex {m : Mode} {x b r r' w z bc vbar : Bool} {vvvv : BitVec 4} {ll : BitVec 2} {aaa reg : BitVec 3}
    {tail rest : List Byte} {rm : Rm} (p : PrefixScan)
    (h32 : m = .mode32 → (r = false ∧ r' = false) ∧ x = false ∧ b = false) (hvbar : m = .mode64 ∨ vbar = true)
    (hmodrm : takeModrm m x b tail = some (reg, rm, rest)) :
    FormatOf m p rest
      (0x62#8 :: evexP0 r x b r' :: evexP1 w vvvv :: evexP2 z ll bc vbar aaa :: 0x5A#8 :: tail)
      (evexInstr p p.bad (evexP0 r x b r') (evexP1 w vvvv) (evexP2 z ll bc vbar aaa) reg rm) := by
  obtain ⟨-, hX, hB, hR', hmap⟩ := evexP0_fields r x b r'
  obtain ⟨-, -, hfix⟩ := evexP1_fields w vvvv
  obtain ⟨-, -, -, hV, -⟩ := evexP2_fields z ll bc vbar aaa
  have hext : (m == .mode32 && !((evexP0 r x b r').getLsbD 5 && (evexP0 r x b r').getLsbD 4 &&
      (evexP2 z ll bc vbar aaa).getLsbD 3)) = false := by
    cases m with
    | mode64 => rfl
    | mode32 =>
      obtain ⟨⟨-, hr'⟩, -, hb⟩ := h32 rfl
      have hv : vbar = true := by simpa using hvbar
      rw [hB, hR', hV, hr', hb, hv]
      rfl
  refine .evex (otherInMode32_evexP0 (fun hm => ⟨(h32 hm).1.1, (h32 hm).2.1⟩) b r') hext hmap hfix ?_
  rwa [hX, hB, Bool.not_not, Bool.not_not]

theorem EvexSource.bits_eq_false_of_mode32 {m : Mode} {src : EvexSource} (h : src.wf m = true) (hm : m = .mode32) :
    src.xBit = false ∧ src.bBit = false := by
  subst hm
  exact EvexSource.bits_eq_false h

/-- The fields that `EvexOp.encode` writes are those `evexInstr` reads. -/
theorem evexInstr_encode (ll : BitVec 2) (op : EvexOp) :
    evexInstr (op.pre.scanned op.badPrefix) op.badPrefix
      (evexP0 (bit3 op.dst.val) op.src.xBit op.src.bBit (bit4 op.dst.val)) (evexP1 op.w op.vvvv)
      (evexP2 op.z ll op.src.bcst op.vbar op.aaa) (low3 op.dst.val) op.src.rm = evexRow ll op := by
  obtain ⟨hR, hX, hB, hR', -⟩ := evexP0_fields (bit3 op.dst.val) op.src.xBit op.src.bBit (bit4 op.dst.val)
  obtain ⟨hW, hvvvv, -⟩ := evexP1_fields op.w op.vvvv
  obtain ⟨hz, hll, hbc, hvbar, haaa⟩ := evexP2_fields op.z ll op.src.bcst op.vbar op.aaa
  simp only [evexInstr, hR, hX, hB, hR', hW, hvvvv, hz, hll, hbc, hvbar, haaa, Bool.not_not, vecOf_bits]
  obtain ⟨pre, bad, w, vvvv, vbar, z, aaa, dst, src⟩ := op
  cases src with
  | reg n =>
    simp only [EvexSource.rm, EvexSource.bcst, EvexSource.xBit, EvexSource.bBit, vecOf_bits]
    rfl
  | mem c a => rfl

/-- The same of `SaeOp.encode`. -/
theorem evexInstr_encode_sae (op : SaeOp) :
    evexInstr (op.pre.scanned op.badPrefix) op.badPrefix
      (evexP0 (bit3 op.dst.val) (bit4 op.src.val) (bit3 op.src.val) (bit4 op.dst.val)) (evexP1 op.w op.vvvv)
      (evexP2 op.z op.ll true op.vbar op.aaa) (low3 op.dst.val) (.reg (low3 op.src.val)) =
        .vcvtps2pdEvex512Sae op := by
  obtain ⟨hR, hX, hB, hR', -⟩ :=
    evexP0_fields (bit3 op.dst.val) (bit4 op.src.val) (bit3 op.src.val) (bit4 op.dst.val)
  obtain ⟨hW, hvvvv, -⟩ := evexP1_fields op.w op.vvvv
  obtain ⟨hz, hll, hbc, hvbar, haaa⟩ := evexP2_fields op.z op.ll true op.vbar op.aaa
  simp only [evexInstr, hR, hX, hB, hR', hW, hvvvv, hz, hll, hbc, hvbar, haaa, Bool.not_not, vecOf_bits]
  rfl

theorem decode_encode_evex {m : Mode} {op : EvexOp} (h : op.wf m = true) (ll : BitVec 2) (rest : List Byte) :
    decode m (op.encode ll ++ rest) = .instr (evexRow ll op) rest := by
  obtain ⟨hpre, hvbar, hdst, hsrc⟩ := (op.wf_iff m).mp h
  have hf := formatOf_evex (r := bit3 op.dst.val) (r' := bit4 op.dst.val) (w := op.w) (z := op.z) (bc := op.src.bcst)
    (vvvv := op.vvvv) (ll := ll) (aaa := op.aaa) (op.pre.scanned op.badPrefix)
    (fun hm => ⟨bits_eq_false_of_mode32 hdst hm, EvexSource.bits_eq_false_of_mode32 hsrc hm⟩) hvbar
    (takeModrm_encode_evexSource hsrc (low3 op.dst.val) rest)
  rw [Prefixes.scanned_bad, evexInstr_encode] at hf
  refine decode_of_scan ?_ (Prefixes.scanned_accepted hpre op.badPrefix) hf
  simpa [EvexOp.encode] using scanPrefixes_encodePrefixes_format m op.pre op.badPrefix (b := 0x62#8) (by decide) _

theorem decode_encode_sae {m : Mode} {op : SaeOp} (h : op.wf m = true) (rest : List Byte) :
    decode m (op.encode ++ rest) = .instr (.vcvtps2pdEvex512Sae op) rest := by
  obtain ⟨hpre, hvbar, hdst, hsrc⟩ := (op.wf_iff m).mp h
  have hf := formatOf_evex (r := bit3 op.dst.val) (r' := bit4 op.dst.val) (w := op.w) (z := op.z) (bc := true)
    (vvvv := op.vvvv) (ll := op.ll) (aaa := op.aaa) (op.pre.scanned op.badPrefix)
    (fun hm => ⟨bits_eq_false_of_mode32 hdst hm, (bits_eq_false_of_mode32 hsrc hm).symm⟩) hvbar
    (takeModrm_register m _ _ (low3 op.dst.val) (low3 op.src.val) rest)
  rw [Prefixes.scanned_bad, evexInstr_encode_sae] at hf
  refine decode_of_scan ?_ (Prefixes.scanned_accepted hpre op.badPrefix) hf
  simpa [SaeOp.encode] using scanPrefixes_encodePrefixes_format m op.pre op.badPrefix (b := 0x62#8) (by decide) _

/-- Settles O9: format by format, the prefixes, the packed fields and the operands read back. -/
theorem decodeOfEncodeIsInstruction : Obligations.DecodeOfEncodeIsInstruction := by
  intro m i rest h
  cases i with
  | cvtps2pd op => exact decode_encode_legacy h rest
  | vcvtps2pdVex128C5 op => exact decode_encodeC5 h false rest
  | vcvtps2pdVex128C4 op => exact decode_encodeC4 h false rest
  | vcvtps2pdVex256C5 op => exact decode_encodeC5 h true rest
  | vcvtps2pdVex256C4 op => exact decode_encodeC4 h true rest
  | vcvtps2pdEvex512Sae op => exact decode_encode_sae h rest
  | vcvtps2pdEvex128 op => exact decode_encode_evex h 0#2 rest
  | vcvtps2pdEvex256 op => exact decode_encode_evex h 1#2 rest
  | vcvtps2pdEvex512 op => exact decode_encode_evex h 2#2 rest
  | vcvtps2pdEvexReservedLL11 op => exact decode_encode_evex h 3#2 rest

end Sys2Proof

namespace Sys2Proof

open Sys2Proof.Safety

/-! ### Decoded instructions are well-formed (30_encoding.md R48, R54, R57, R59 to R62, R66) -/

/-- A set extension bit, in a mode and a format that have extension bits. -/
def ExtAllowed (m : Mode) (ext e : Bool) : Prop := e = true → m = .mode64 ∧ ext = true

theorem ExtAllowed.of_mode32 {m : Mode} {e : Bool} (h : m = .mode32 → e = false) : ExtAllowed m true e := by
  rintro rfl
  cases m with
  | mode64 => exact ⟨rfl, rfl⟩
  | mode32 => cases h rfl

theorem ExtAllowed.vecOf_lt {m : Mode} {ext e : Bool} (h : ExtAllowed m ext e) (lo : BitVec 3) :
    (vecOf false e lo).val < vecLimit m ext := by
  have hval : (vecOf false e lo).val = (gprOf e lo).val := by simp [vecOf, gprOf]
  rw [hval]
  exact gprOf_lt_gprLimit h lo

theorem takeModrm_mem_wf {m : Mode} {ext x b : Bool} {bytes rest : List Byte} {reg : BitVec 3} {a : Mem}
    (hx : ExtAllowed m ext x) (hb : ExtAllowed m ext b) (h : takeModrm m x b bytes = some (reg, .mem a, rest)) :
    a.wf m (gprLimit m ext) = true := by
  obtain ⟨modrm, tail, rfl, ⟨-, -, r, hr⟩ | ⟨-, mod, r, a', hmem, ha⟩⟩ := takeModrm_cases h
  · cases hr
  · cases ha
    exact takeMem_wf (gprOf_lt_gprLimit hx) (gprOf_lt_gprLimit hb) hmem

theorem takeModrm_sourceOf_wf {m : Mode} {ext x b : Bool} {bytes rest : List Byte} {reg : BitVec 3} {rm : Rm}
    (hx : ExtAllowed m ext x) (hb : ExtAllowed m ext b) (h : takeModrm m x b bytes = some (reg, rm, rest)) :
    (sourceOf b rm).wf m (vecLimit m ext) (gprLimit m ext) = true := by
  cases rm with
  | reg r => exact decide_eq_true (hb.vecOf_lt r)
  | mem a => exact takeModrm_mem_wf hx hb h

theorem PrefixScan.Accepted.prefixes_wf {m : Mode} {p : PrefixScan} (h : p.Accepted m) : p.prefixes.wf m = true := by
  have h16 := h.notSixteenBit
  cases m with
  | mode64 => rfl
  | mode32 => simpa [PrefixScan.sixteenBit, Prefixes.wf, PrefixScan.prefixes] using h16

/-- Without a REX byte its bits are 0; in `Mode32` there is none. -/
theorem PrefixScan.rexBit_extAllowed {m : Mode} {p : PrefixScan} (hrex : m = .mode32 → p.rex = none) (n : Nat) :
    ExtAllowed m p.rex.isSome (p.rexBit n) := by
  intro h
  unfold PrefixScan.rexBit at h
  cases hp : p.rex with
  | none => simp [hp] at h
  | some r =>
    cases m with
    | mode64 => exact ⟨rfl, rfl⟩
    | mode32 => simp [hrex rfl] at hp

theorem legacyInstr_wf {m : Mode} {p : PrefixScan} {tail rest : List Byte} {reg : BitVec 3} {rm : Rm}
    (hp : p.Accepted m) (hrex : m = .mode32 → p.rex = none)
    (hm : takeModrm m (p.rexBit 1) (p.rexBit 0) tail = some (reg, rm, rest)) : (legacyInstr p reg rm).wf m = true := by
  have hbit := PrefixScan.rexBit_extAllowed hrex
  have hm64 : m = .mode64 ∨ p.rex = none := by cases m <;> simp_all
  refine (LegacyOp.wf_iff m _).mpr ⟨hp.prefixes_wf, by simpa using hm64, ?_, ?_⟩
  · simpa using (hbit 2).vecOf_lt reg
  · simpa using takeModrm_sourceOf_wf (hbit 1) (hbit 0) hm

theorem otherInMode32_bits {m : Mode} {b : Byte} (h : otherInMode32 m b = false) (hm : m = .mode32) :
    (!b.getLsbD 7) = false ∧ (!b.getLsbD 6) = false := by
  subst hm
  simpa using otherInMode32_eq_false h

/-- Bit 6 of byte 1 is also bit 3 of the stored `vvvv` (30_encoding.md R50, R54). -/
theorem vex2Instr_wf {m : Mode} {p : PrefixScan} {b1 : Byte} {tail rest : List Byte} {reg : BitVec 3} {rm : Rm}
    (hp : p.Accepted m) (ho : otherInMode32 m b1 = false)
    (hm : takeModrm m false false tail = some (reg, rm, rest)) : (vex2Instr p b1 reg rm).wf m = true := by
  have hdst := (ExtAllowed.of_mode32 fun h => (otherInMode32_bits ho h).1).vecOf_lt reg
  have hsrc : (sourceOf false rm).wf m 8 8 = true := by
    simpa using takeModrm_sourceOf_wf (ext := false) (x := false) (b := false) nofun nofun hm
  have hv : m = .mode64 ∨ (b1.extractLsb' 3 4).getLsbD 3 = true := by
    cases m with
    | mode64 => exact .inl rfl
    | mode32 => exact .inr (by simpa using (otherInMode32_bits ho rfl).2)
  have hop : (vex2Op p b1 reg rm).wfC5 m = true :=
    (VexOp.wfC5_iff m _).mpr ⟨hp.prefixes_wf, rfl, hv, hdst, hsrc⟩
  unfold vex2Instr
  split <;> exact hop

theorem vex3Instr_wf {m : Mode} {p : PrefixScan} {b1 b2 : Byte} {tail rest : List Byte} {reg : BitVec 3} {rm : Rm}
    (hp : p.Accepted m) (ho : otherInMode32 m b1 = false) (he : (m == .mode32 && !b1.getLsbD 5) = false)
    (hm : takeModrm m (!b1.getLsbD 6) (!b1.getLsbD 5) tail = some (reg, rm, rest)) :
    (vex3Instr p b1 b2 reg rm).wf m = true := by
  have hdst := (ExtAllowed.of_mode32 fun h => (otherInMode32_bits ho h).1).vecOf_lt reg
  have hx : ExtAllowed m true (!b1.getLsbD 6) := .of_mode32 fun h => (otherInMode32_bits ho h).2
  have hb : ExtAllowed m true (!b1.getLsbD 5) := .of_mode32 fun h => by subst h; exact he
  have hop : (vex3Op p b1 b2 reg rm).wfC4 m = true :=
    (VexOp.wfC4_iff m _).mpr ⟨hp.prefixes_wf, hdst, takeModrm_sourceOf_wf hx hb hm⟩
  unfold vex3Instr
  split <;> exact hop

theorem evexInstr_wf {m : Mode} {p : PrefixScan} {p0 p1 p2 : Byte} {tail rest : List Byte} {reg : BitVec 3} {rm : Rm}
    (hp : p.Accepted m) (ho : otherInMode32 m p0 = false)
    (he : (m == .mode32 && !(p0.getLsbD 5 && p0.getLsbD 4 && p2.getLsbD 3)) = false)
    (hm : takeModrm m (!p0.getLsbD 6) (!p0.getLsbD 5) tail = some (reg, rm, rest)) :
    (evexInstr p p.bad p0 p1 p2 reg rm).wf m = true := by
  have hbits : m = .mode32 → (p0.getLsbD 5 = true ∧ p0.getLsbD 4 = true) ∧ p2.getLsbD 3 = true := by
    rintro rfl
    simpa using he
  have hx : m = .mode32 → (!p0.getLsbD 6) = false := fun h => (otherInMode32_bits ho h).2
  have hb : m = .mode32 → (!p0.getLsbD 5) = false := fun h => by rw [(hbits h).1.1]; rfl
  have hR' : m = .mode32 → (!p0.getLsbD 4) = false := fun h => by rw [(hbits h).1.2]; rfl
  have hdst := vecOf_lt_evexLimit (fun h => ⟨hR' h, (otherInMode32_bits ho h).1⟩) reg
  have hvbar : m = .mode64 ∨ p2.getLsbD 3 = true := by
    cases m with
    | mode64 => exact .inl rfl
    | mode32 => exact .inr (hbits rfl).2
  cases rm with
  | mem a =>
    rw [evexInstr, wf_evexRow]
    exact (EvexOp.wf_iff m _).mpr ⟨hp.prefixes_wf, hvbar, hdst, takeModrm_mem_wf (.of_mode32 hx) (.of_mode32 hb) hm⟩
  | reg r =>
    have hsrc := vecOf_lt_evexLimit (fun h => ⟨hx h, hb h⟩) r
    simp only [evexInstr]
    split
    · exact (SaeOp.wf_iff m _).mpr ⟨hp.prefixes_wf, hvbar, hdst, hsrc⟩
    · rw [wf_evexRow]
      exact (EvexOp.wf_iff m _).mpr ⟨hp.prefixes_wf, hvbar, hdst, decide_eq_true hsrc⟩

theorem FormatOf.wf {m : Mode} {p : PrefixScan} {fmt rest : List Byte} {i : Instr} (hp : p.Accepted m)
    (hrex : m = .mode32 → p.rex = none) (h : FormatOf m p rest fmt i) : i.wf m = true := by
  cases h with
  | legacy _ hm => exact legacyInstr_wf hp hrex hm
  | vex2 ho _ hm => exact vex2Instr_wf hp ho hm
  | vex3 ho he _ _ hm => exact vex3Instr_wf hp ho he hm
  | evex ho he _ _ hm => exact evexInstr_wf hp ho he hm

/-- Settles O10: format by format, the extension bits stay inside the mode's registers. -/
theorem decodedInstructionsAreWellFormed : Obligations.DecodedInstructionsAreWellFormed := by
  intro m bytes rest i h
  obtain ⟨hp, hf⟩ := decode_eq_instr_iff.mp h
  refine hf.wf hp ?_
  rintro rfl
  exact scanPrefixes_mode32_rex rfl bytes

/-! ### The first row of the opcode table (30_encoding.md R71, R139) -/

section Masks

variable (b : Byte)

theorem and_vexPpL (h : b.extractLsb' 0 2 = 0#2) : b &&& 0x07#8 = if b.getLsbD 2 then 4#8 else 0#8 := by
  revert b; decide

theorem and_vexMap (h : b.extractLsb' 0 5 = 1#5) : b &&& 0x1F#8 = 1#8 := by revert b; decide

theorem and_evexMap (h : b.extractLsb' 0 4 = 1#4) : b &&& 0x0F#8 = 1#8 := by revert b; decide

theorem and_evexFixed (h : b.extractLsb' 0 3 = 4#3) : b &&& 0x07#8 = 4#8 := by revert b; decide

theorem and_evexB : (b &&& 0x10#8 == 0x10#8) = b.getLsbD 4 := by revert b; decide

theorem and_modrmMod : (b &&& 0xC0#8 == 0xC0#8) = (b.extractLsb' 6 2 == 3#2) := by revert b; decide

theorem and_evexLL :
    (b &&& 0x60#8 == 0x00#8) = (b.extractLsb' 5 2 == 0#2) ∧ (b &&& 0x60#8 == 0x20#8) = (b.extractLsb' 5 2 == 1#2) ∧
      (b &&& 0x60#8 == 0x40#8) = (b.extractLsb' 5 2 == 2#2) ∧
      (b &&& 0x60#8 == 0x60#8) = (b.extractLsb' 5 2 == 3#2) := by
  revert b; decide

end Masks

theorem firstRow_legacy (modrm : Byte) (tail : List Byte) : firstRow (0x0F#8 :: 0x5A#8 :: modrm :: tail) = some 0 := by
  simp [firstRow, opcodeTable, maskMatch, List.findIdx?_cons]

theorem firstRow_vex2 {b1 : Byte} (hpp : b1.extractLsb' 0 2 = 0#2) (modrm : Byte) (tail : List Byte) :
    firstRow (0xC5#8 :: b1 :: 0x5A#8 :: modrm :: tail) = some (if b1.getLsbD 2 then 3 else 1) := by
  cases hL : b1.getLsbD 2 <;> simp [firstRow, opcodeTable, maskMatch, List.findIdx?_cons, and_vexPpL b1 hpp, hL,
    -BitVec.getLsbD_eq_getElem]

theorem firstRow_vex3 {b1 b2 : Byte} (hmap : b1.extractLsb' 0 5 = 1#5) (hpp : b2.extractLsb' 0 2 = 0#2)
    (modrm : Byte) (tail : List Byte) :
    firstRow (0xC4#8 :: b1 :: b2 :: 0x5A#8 :: modrm :: tail) = some (if b2.getLsbD 2 then 4 else 2) := by
  cases hL : b2.getLsbD 2 <;>
    simp [firstRow, opcodeTable, maskMatch, List.findIdx?_cons, and_vexMap b1 hmap, and_vexPpL b2 hpp, hL,
      -BitVec.getLsbD_eq_getElem]

theorem vectorLength_cases (ll : BitVec 2) : ll = 0#2 ∨ ll = 1#2 ∨ ll = 2#2 ∨ ll = 3#2 := by revert ll; decide

/-- The row of `{sae}` stands before those of `L'L`. -/
theorem firstRow_evex {p0 p1 : Byte} (hmap : p0.extractLsb' 0 4 = 1#4) (hfix : p1.extractLsb' 0 3 = 4#3)
    (p2 modrm : Byte) (tail : List Byte) :
    firstRow (0x62#8 :: p0 :: p1 :: p2 :: 0x5A#8 :: modrm :: tail) =
      some (if p2.getLsbD 4 ∧ modrm.extractLsb' 6 2 = 3#2 then 5 else 6 + (p2.extractLsb' 5 2).toNat) := by
  obtain ⟨h0, h1, h2, h3⟩ := and_evexLL p2
  by_cases hsae : p2.getLsbD 4 = true ∧ modrm.extractLsb' 6 2 = 3#2
  · simp [firstRow, opcodeTable, maskMatch, List.findIdx?_cons, and_evexMap p0 hmap, and_evexFixed p1 hfix, and_evexB,
      and_modrmMod, hsae]
  · rcases vectorLength_cases (p2.extractLsb' 5 2) with hl | hl | hl | hl <;>
      simp [firstRow, opcodeTable, maskMatch, List.findIdx?_cons, and_evexMap p0 hmap, and_evexFixed p1 hfix, and_evexB,
        and_modrmMod, h0, h1, h2, h3, hsae, hl, -BitVec.getLsbD_eq_getElem]

theorem row_evexRow (ll : BitVec 2) (op : EvexOp) : (evexRow ll op).row = 6 + ll.toNat := by
  rcases vectorLength_cases ll with rfl | rfl | rfl | rfl <;> rfl

theorem FormatOf.firstRow_eq {m : Mode} {p : PrefixScan} {fmt rest : List Byte} {i : Instr}
    (h : FormatOf m p rest fmt i) : firstRow fmt = some i.row := by
  cases h with
  | legacy _ hm =>
    obtain ⟨modrm, tail, rfl, -⟩ := takeModrm_cases hm
    exact firstRow_legacy modrm tail
  | vex2 _ hpp hm =>
    obtain ⟨modrm, tail, rfl, -⟩ := takeModrm_cases hm
    rw [firstRow_vex2 hpp, vex2Instr]
    split <;> rfl
  | vex3 _ _ hmap hpp hm =>
    obtain ⟨modrm, tail, rfl, -⟩ := takeModrm_cases hm
    rw [firstRow_vex3 hmap hpp, vex3Instr]
    split <;> rfl
  | evex _ _ hmap hfix hm =>
    obtain ⟨modrm, tail, rfl, ⟨hmod, -, r, rfl⟩ | ⟨hmod, -, -, a, -, rfl⟩⟩ := takeModrm_cases hm
    · rw [firstRow_evex hmap hfix]
      simp only [evexInstr, hmod, and_true]
      split
      · rfl
      · rw [row_evexRow]
    · rw [firstRow_evex hmap hfix, if_neg (fun h => hmod h.2), evexInstr, row_evexRow]

/-- Settles O11: the row is that of the bytes of the format, which the scan leaves. -/
theorem decoderTakesFirstMatchingRow : Obligations.DecoderTakesFirstMatchingRow := by
  intro m bytes rest i h
  exact (decode_eq_instr_iff.mp h).2.firstRow_eq

end Sys2Proof

namespace Sys2Proof

open Sys2Proof.Safety

/-! ### One byte before the format (30_encoding.md R46, R48, R69) -/

theorem segOfByte_isSome (b : Byte) : (segOfByte b).isSome = isSegByte b := by revert b; decide

/-- What a legacy prefix byte is, and what is noted of it. -/
theorem note_cases {p q : PrefixScan} {b : Byte} (h : p.note b = some q) :
    (isSegByte b = true ∧ ∃ sg, q = { p with seg := some sg, redundant := p.redundant || p.seg.isSome }) ∨
    (b = 0x67#8 ∧ q = { p with addr67 := true, redundant := p.redundant || p.addr67 }) ∨
    (b = 0xF0#8 ∧ q = { p with lock := true }) ∨
    ((b = 0x66#8 ∨ b = 0xF2#8 ∨ b = 0xF3#8) ∧ q = { p with simd := true }) := by
  unfold PrefixScan.note at h
  split at h
  next sg hs =>
    cases h
    exact .inl ⟨by rw [← segOfByte_isSome, hs]; rfl, sg, rfl⟩
  next =>
    split_ifs at h with h67 hF0 hsimd <;> cases h
    · exact .inr (.inl ⟨h67, rfl⟩)
    · exact .inr (.inr (.inl ⟨hF0, rfl⟩))
    · exact .inr (.inr (.inr ⟨by simpa [or_assoc] using hsimd, rfl⟩))

/-- What a byte before the format is, and what is noted of it. -/
theorem take_cases {m : Mode} {p q : PrefixScan} {b : Byte} (h : p.take m b = some q) :
    (isSegByte b = true ∧ ∃ sg, q = { p with
      seg := some sg, redundant := p.redundant || p.seg.isSome, rex := none, strayRex := p.strayRex || p.rex.isSome }) ∨
    (b = 0x67#8 ∧ q = { p with
      addr67 := true, redundant := p.redundant || p.addr67, rex := none, strayRex := p.strayRex || p.rex.isSome }) ∨
    (b = 0xF0#8 ∧ q = { p with lock := true, rex := none, strayRex := p.strayRex || p.rex.isSome }) ∨
    ((b = 0x66#8 ∨ b = 0xF2#8 ∨ b = 0xF3#8) ∧
      q = { p with simd := true, rex := none, strayRex := p.strayRex || p.rex.isSome }) ∨
    (b.extractLsb' 4 4 = 4#4 ∧ q = { p with rex := some b, strayRex := p.strayRex || p.rex.isSome }) := by
  unfold PrefixScan.take at h
  split at h
  next r hn =>
    cases h
    rcases note_cases hn with ⟨hb, sg, rfl⟩ | ⟨hb, rfl⟩ | ⟨hb, rfl⟩ | ⟨hb, rfl⟩
    · exact .inl ⟨hb, sg, rfl⟩
    · exact .inr (.inl ⟨hb, rfl⟩)
    · exact .inr (.inr (.inl ⟨hb, rfl⟩))
    · exact .inr (.inr (.inr (.inl ⟨hb, rfl⟩)))
  next =>
    split at h <;> cases h
    next hrex => exact .inr (.inr (.inr (.inr ⟨by simpa using (Bool.and_eq_true_iff.mp hrex).2, rfl⟩)))

/-- Every legacy prefix byte is noted. -/
theorem note_isSome_of_isPrefixByte (p : PrefixScan) {b : Byte} (h : isPrefixByte b = true) :
    (p.note b).isSome = true := by
  have hb : (segOfByte b).isSome = true ∨
      b = 0x67#8 ∨ b = 0xF0#8 ∨ b = 0x66#8 ∨ b = 0xF2#8 ∨ b = 0xF3#8 := by revert b; decide
  rcases hb with hs | rfl | rfl | rfl | rfl | rfl
  · obtain ⟨sg, hs⟩ := Option.isSome_iff_exists.mp hs
    simp [PrefixScan.note, hs]
  all_goals rfl

theorem take_isSome {m : Mode} (p : PrefixScan) {b : Byte} (h : isPrefixByte b = true ∨ isRexByte m b = true) :
    ∃ q, p.take m b = some q := by
  unfold PrefixScan.take
  cases hn : p.note b with
  | some q => exact ⟨_, rfl⟩
  | none =>
    have hrex : isRexByte m b = true := h.resolve_left fun hb => by
      simpa [hn] using note_isSome_of_isPrefixByte p hb
    exact ⟨_, if_pos hrex⟩

/-! ### Bytes that are all before the format -/

section Scan

variable {m : Mode} {p : PrefixScan} {pre : List Byte}

theorem scanPrefixes_eq_nil (h : ∀ b ∈ pre, isPrefixByte b = true ∨ isRexByte m b = true) :
    (scanPrefixes m p pre).2 = [] := by
  induction pre generalizing p with
  | nil => rfl
  | cons b rest ih =>
    obtain ⟨q, hq⟩ := take_isSome p (h b List.mem_cons_self)
    rw [scanPrefixes_cons hq]
    exact ih fun c hc => h c (List.mem_cons_of_mem b hc)

/-- The scan goes on after bytes that it has all taken. -/
theorem scanPrefixes_append_of_eq_nil (h : (scanPrefixes m p pre).2 = []) (tail : List Byte) :
    scanPrefixes m p (pre ++ tail) = scanPrefixes m (scanPrefixes m p pre).1 tail := by
  induction pre generalizing p with
  | nil => rfl
  | cons b rest ih =>
    cases hq : p.take m b with
    | some q =>
      rw [scanPrefixes_cons hq] at h ⊢
      rw [List.cons_append, scanPrefixes_cons hq]
      exact ih h
    | none =>
      rw [scanPrefixes_stop hq] at h
      cases h

/-- What every byte keeps, the scan keeps. -/
theorem scanPrefixes_keeps {P : PrefixScan → Prop}
    (hstep : ∀ (p q : PrefixScan) (b : Byte), p.take m b = some q → P p → P q) (hp : P p) (bytes : List Byte) :
    P (scanPrefixes m p bytes).1 := by
  induction bytes generalizing p with
  | nil => exact hp
  | cons b rest ih =>
    cases hq : p.take m b with
    | some q =>
      rw [scanPrefixes_cons hq]
      exact ih (hstep p q b hq hp)
    | none =>
      rw [scanPrefixes_stop hq]
      exact hp

/-- What a byte notes whatever stands before it, and every byte keeps, is noted at the end. -/
theorem scanPrefixes_notes_of_mem {P : PrefixScan → Prop}
    (hstep : ∀ (p q : PrefixScan) (b : Byte), p.take m b = some q → P p → P q) {b : Byte}
    (hset : ∀ p q : PrefixScan, p.take m b = some q → P q) (hb : b ∈ pre) (h : (scanPrefixes m p pre).2 = []) :
    P (scanPrefixes m p pre).1 := by
  induction pre generalizing p with
  | nil => cases hb
  | cons c rest ih =>
    cases hq : p.take m c with
    | some q =>
      rw [scanPrefixes_cons hq] at h ⊢
      rcases List.mem_cons.mp hb with rfl | hb
      · exact scanPrefixes_keeps hstep (hset p q hq) rest
      · exact ih hb h
    | none =>
      rw [scanPrefixes_stop hq] at h
      cases h

end Scan

/-- `LOCK`, a byte `66`, `F2` or `F3`, and a redundant prefix stay noted. -/
theorem take_keeps {m : Mode} {p q : PrefixScan} {b : Byte} (h : p.take m b = some q) :
    (p.lock = true → q.lock = true) ∧ (p.simd = true → q.simd = true) ∧
      (p.redundant = true → q.redundant = true) := by
  rcases take_cases h with ⟨-, sg, rfl⟩ | ⟨-, rfl⟩ | ⟨-, rfl⟩ | ⟨-, rfl⟩ | ⟨-, rfl⟩
  · exact ⟨id, id, fun hr => Bool.or_eq_true_iff.mpr (.inl hr)⟩
  · exact ⟨id, id, fun hr => Bool.or_eq_true_iff.mpr (.inl hr)⟩
  · exact ⟨fun _ => rfl, id, id⟩
  · exact ⟨id, fun _ => rfl, id⟩
  · exact ⟨id, id, id⟩

/-- Once redundant, the scan stays so. -/
theorem scanPrefixes_redundant {m : Mode} {p : PrefixScan} (h : p.redundant = true) (bytes : List Byte) :
    (scanPrefixes m p bytes).1.redundant = true :=
  scanPrefixes_keeps (P := fun p => p.redundant = true) (fun _ _ _ ht => (take_keeps ht).2.2) h bytes

/-! ### How many bytes an instruction takes (30_encoding.md R65) -/

/-- Nothing is noted that the instruction does not keep as one byte: nothing refused, no `LOCK`, no `66`, `F2`, `F3`. -/
structure PrefixScan.Plain (p : PrefixScan) : Prop where
  notRedundant : p.redundant = false
  notStrayRex  : p.strayRex = false
  notLock      : p.lock = false
  notSimd      : p.simd = false

/-- How many bytes have been noted, where the scan is plain. -/
def PrefixScan.count (p : PrefixScan) : Nat :=
  p.seg.isSome.toNat + p.addr67.toNat + p.lock.toNat + p.rex.isSome.toNat

theorem PrefixScan.count_eq (p : PrefixScan) : p.count = p.prefixes.len + if p.rex.isSome then 1 else 0 := by
  have htoNat : ∀ b : Bool, b.toNat = if b then 1 else 0 := by decide
  simp only [PrefixScan.count, htoNat]
  rfl

theorem take_count {m : Mode} {p q : PrefixScan} {b : Byte} (h : p.take m b = some q) (hq : q.Plain) :
    p.Plain ∧ q.count = p.count + 1 := by
  obtain ⟨hr, hx, hl, hs⟩ := hq
  rcases take_cases h with ⟨-, sg, rfl⟩ | ⟨-, rfl⟩ | ⟨-, rfl⟩ | ⟨-, rfl⟩ | ⟨-, rfl⟩
  · obtain ⟨hr, hseg⟩ := Bool.or_eq_false_iff.mp hr
    obtain ⟨hx, hrex⟩ := Bool.or_eq_false_iff.mp hx
    refine ⟨⟨hr, hx, hl, hs⟩, ?_⟩
    simp only [PrefixScan.count, hseg, hrex, Option.isSome_some, Option.isSome_none, Bool.toNat_true, Bool.toNat_false]
    omega
  · obtain ⟨hr, h67⟩ := Bool.or_eq_false_iff.mp hr
    obtain ⟨hx, hrex⟩ := Bool.or_eq_false_iff.mp hx
    refine ⟨⟨hr, hx, hl, hs⟩, ?_⟩
    simp only [PrefixScan.count, h67, hrex, Option.isSome_none, Bool.toNat_true, Bool.toNat_false]
    omega
  · cases hl
  · cases hs
  · obtain ⟨hx, hrex⟩ := Bool.or_eq_false_iff.mp hx
    refine ⟨⟨hr, hx, hl, hs⟩, ?_⟩
    simp only [PrefixScan.count, hrex, Option.isSome_some, Bool.toNat_true, Bool.toNat_false]

/-- Every byte before the format is counted once. -/
theorem scanPrefixes_count {m : Mode} {p : PrefixScan} {bytes : List Byte} (h : (scanPrefixes m p bytes).1.Plain) :
    p.Plain ∧ p.count + bytes.length = (scanPrefixes m p bytes).1.count + (scanPrefixes m p bytes).2.length := by
  induction bytes generalizing p with
  | nil => exact ⟨h, rfl⟩
  | cons b rest ih =>
    cases hq : p.take m b with
    | some q =>
      rw [scanPrefixes_cons hq] at h ⊢
      obtain ⟨hplain, hlen⟩ := ih h
      obtain ⟨hp, hcount⟩ := take_count hq hplain
      refine ⟨hp, ?_⟩
      rw [List.length_cons]
      omega
    | none =>
      rw [scanPrefixes_stop hq] at h ⊢
      exact ⟨h, rfl⟩

theorem badPrefixOf_vex2Instr (p : PrefixScan) (b1 : Byte) (reg : BitVec 3) (rm : Rm) :
    badPrefixOf (vex2Instr p b1 reg rm) = p.bad := by unfold vex2Instr; split <;> rfl

theorem badPrefixOf_vex3Instr (p : PrefixScan) (b1 b2 : Byte) (reg : BitVec 3) (rm : Rm) :
    badPrefixOf (vex3Instr p b1 b2 reg rm) = p.bad := by unfold vex3Instr; split <;> rfl

theorem len_vex2Instr (p : PrefixScan) (b1 : Byte) (reg : BitVec 3) (rm : Rm) :
    (vex2Instr p b1 reg rm).len =
      p.prefixes.len + (if p.bad then 1 else 0) + 2 + 1 + 1 + (sourceOf false rm).tailLen := by
  unfold vex2Instr; split <;> rfl

theorem len_vex3Instr (p : PrefixScan) (b1 b2 : Byte) (reg : BitVec 3) (rm : Rm) :
    (vex3Instr p b1 b2 reg rm).len =
      p.prefixes.len + (if p.bad then 1 else 0) + 3 + 1 + 1 + (sourceOf (!b1.getLsbD 5) rm).tailLen := by
  unfold vex3Instr; split <;> rfl

theorem len_legacyInstr (p : PrefixScan) (reg : BitVec 3) (rm : Rm) :
    (legacyInstr p reg rm).len = p.count + 2 + 1 + rm.tailLen := by
  simp [legacyInstr, Instr.len, LegacyOp.len, PrefixScan.count_eq]

/-- Without a byte of R53 there is no `66`, `F2` or `F3`, and a REX byte only before the LEGACY format. -/
theorem PrefixScan.bad_eq_false {p : PrefixScan} (h : p.bad = false) :
    p.simd = false ∧ p.count = p.prefixes.len := by
  obtain ⟨hs, hr⟩ := Bool.or_eq_false_iff.mp h
  simp [hs, PrefixScan.count_eq, hr]

/-- Without a byte of R53, the prefixes and the bytes of the format are those of the instruction's length. -/
theorem FormatOf.length_eq {m : Mode} {p : PrefixScan} {fmt rest : List Byte} {i : Instr}
    (h : FormatOf m p rest fmt i) (hbad : badPrefixOf i = false) :
    p.simd = false ∧ p.count + fmt.length = i.len + rest.length := by
  cases h with
  | legacy hsimd hm =>
    refine ⟨hsimd, ?_⟩
    rw [len_legacyInstr, List.length_cons, List.length_cons, takeModrm_length hm]
    omega
  | vex2 _ _ hm =>
    rw [badPrefixOf_vex2Instr] at hbad
    obtain ⟨hsimd, hcount⟩ := PrefixScan.bad_eq_false hbad
    refine ⟨hsimd, ?_⟩
    simp only [len_vex2Instr, hbad, hcount, sourceOf_tailLen, List.length_cons, takeModrm_length hm, Bool.false_eq_true,
      if_false]
    omega
  | vex3 _ _ _ _ hm =>
    rw [badPrefixOf_vex3Instr] at hbad
    obtain ⟨hsimd, hcount⟩ := PrefixScan.bad_eq_false hbad
    refine ⟨hsimd, ?_⟩
    simp only [len_vex3Instr, hbad, hcount, sourceOf_tailLen, List.length_cons, takeModrm_length hm, Bool.false_eq_true,
      if_false]
    omega
  | evex _ _ _ _ hm =>
    rw [badPrefixOf_evexInstr] at hbad
    obtain ⟨hsimd, hcount⟩ := PrefixScan.bad_eq_false hbad
    refine ⟨hsimd, ?_⟩
    simp only [len_evexInstr, hbad, hcount, List.length_cons, takeModrm_length hm, Bool.false_eq_true, if_false]
    omega

/-- The lengths of R65, for every constructor. -/
theorem encodedLength (i : Instr) : Laws.EncodedLength.Statement i := by
  cases i with
  | cvtps2pd op => exact Laws.EncodedLength.cvtps2pd op
  | vcvtps2pdVex128C5 op => exact Laws.EncodedLength.vcvtps2pdVex128C5 op
  | vcvtps2pdVex128C4 op => exact Laws.EncodedLength.vcvtps2pdVex128C4 op
  | vcvtps2pdVex256C5 op => exact Laws.EncodedLength.vcvtps2pdVex256C5 op
  | vcvtps2pdVex256C4 op => exact Laws.EncodedLength.vcvtps2pdVex256C4 op
  | vcvtps2pdEvex512Sae op => exact Laws.EncodedLength.vcvtps2pdEvex512Sae op
  | vcvtps2pdEvex128 op => exact Laws.EncodedLength.vcvtps2pdEvex128 op
  | vcvtps2pdEvex256 op => exact Laws.EncodedLength.vcvtps2pdEvex256 op
  | vcvtps2pdEvex512 op => exact Laws.EncodedLength.vcvtps2pdEvex512 op
  | vcvtps2pdEvexReservedLL11 op => exact Laws.EncodedLength.vcvtps2pdEvexReservedLL11 op

/-- Settles O12: without `LOCK` and without a byte of R53 the scan is plain, so each of its bytes counts once. -/
theorem decodedLengthIsConsumed : Obligations.DecodedLengthIsConsumed := by
  intro m bytes rest i h hlock hbad
  obtain ⟨hp, hf⟩ := decode_eq_instr_iff.mp h
  obtain ⟨hsimd, hlen⟩ := hf.length_eq hbad
  rw [hf.prefixesOf_eq] at hlock
  obtain ⟨-, hcount⟩ := scanPrefixes_count ⟨hp.notRedundant, hp.noStrayRex, hlock, hsimd⟩
  have hstart : PrefixScan.start.count = 0 := rfl
  refine ⟨by omega, (encodedLength i).2 ?_ hbad⟩
  rw [hf.prefixesOf_eq]
  exact hlock

/-! ### Prefixes that stand twice (30_encoding.md R46) -/

/-- No byte of the form `0100WRXB` is a segment override or `67`. -/
theorem rexByte_not_counted {b : Byte} (h : b.extractLsb' 4 4 = 4#4) : isSegByte b = false ∧ b ≠ 0x67#8 := by
  revert b; decide

/-- What a byte adds to the one override and the one `67` that are kept, where neither is redundant. -/
theorem take_kept {m : Mode} {p q : PrefixScan} {b : Byte} (h : p.take m b = some q) (hq : q.redundant = false) :
    q.seg.isSome.toNat = p.seg.isSome.toNat + (if isSegByte b then 1 else 0) ∧
      q.addr67.toNat = p.addr67.toNat + (if b == 0x67#8 then 1 else 0) := by
  rcases take_cases h with ⟨hb, sg, rfl⟩ | ⟨rfl, rfl⟩ | ⟨rfl, rfl⟩ | ⟨hb, rfl⟩ | ⟨hb, rfl⟩
  · have hseg := (Bool.or_eq_false_iff.mp hq).2
    have h67 : b ≠ 0x67#8 := by rintro rfl; cases hb
    simp [hseg, hb, h67]
  · have h67 := (Bool.or_eq_false_iff.mp hq).2
    simp [h67, isSegByte]
  · exact ⟨rfl, rfl⟩
  · rcases hb with rfl | rfl | rfl <;> exact ⟨rfl, rfl⟩
  · obtain ⟨hseg, h67⟩ := rexByte_not_counted hb
    simp [hseg, h67]

/-- Without a redundant prefix, each override and each `67` among bytes that are all taken is kept. -/
theorem scanPrefixes_kept {m : Mode} {p : PrefixScan} {pre : List Byte} (h : (scanPrefixes m p pre).2 = [])
    (hr : (scanPrefixes m p pre).1.redundant = false) :
    (scanPrefixes m p pre).1.seg.isSome.toNat = p.seg.isSome.toNat + pre.countP isSegByte ∧
      (scanPrefixes m p pre).1.addr67.toNat = p.addr67.toNat + pre.count 0x67#8 := by
  induction pre generalizing p with
  | nil => exact ⟨rfl, rfl⟩
  | cons b rest ih =>
    cases hq : p.take m b with
    | some q =>
      rw [scanPrefixes_cons hq] at h hr ⊢
      obtain ⟨hseg, h67⟩ := ih h hr
      have hqr : q.redundant = false := by
        by_contra hqr
        rw [scanPrefixes_redundant (Bool.eq_true_of_not_eq_false hqr)] at hr
        cases hr
      obtain ⟨hseg', h67'⟩ := take_kept hq hqr
      rw [List.countP_cons, List.count_cons]
      exact ⟨by omega, by omega⟩
    | none =>
      rw [scanPrefixes_stop hq] at h
      cases h

/-- Settles O13: a prefix that stands twice is noted as redundant, stays so, and is refused. -/
theorem repeatedPrefixesRefused : Obligations.RepeatedPrefixesRefused := by
  intro m pre tail rest i hpre htwice h
  have hall : (scanPrefixes m .start pre).2 = [] := scanPrefixes_eq_nil fun b hb => .inl (hpre b hb)
  have hred : (scanPrefixes m .start pre).1.redundant = true := by
    by_contra hr
    obtain ⟨hseg, h67⟩ := scanPrefixes_kept hall (Bool.eq_false_iff.mpr hr)
    have hseg1 := Bool.toNat_le (scanPrefixes m .start pre).1.seg.isSome
    have h671 := Bool.toNat_le (scanPrefixes m .start pre).1.addr67
    omega
  have hp := (decode_eq_instr_iff.mp h).1.notRedundant
  rw [scanPrefixes_append_of_eq_nil hall, scanPrefixes_redundant hred tail] at hp
  cases hp

/-! ### `66`, `F3`, `F2` before `0F 5A` (30_encoding.md R47) -/

theorem take_simd_of_mandatory {m : Mode} {b : Byte} (hb : b = 0x66#8 ∨ b = 0xF3#8 ∨ b = 0xF2#8) (p q : PrefixScan)
    (h : p.take m b = some q) : q.simd = true := by
  rcases hb with rfl | rfl | rfl <;> (cases h; rfl)

theorem decodeFormat_legacy_simd {m : Mode} {p : PrefixScan} (h : p.simd = true) (tail : List Byte) :
    decodeFormat m p (0x0F#8 :: 0x5A#8 :: tail) = .refused .notThisInstruction := by
  simp [decodeFormat, h]

/-- Settles O14: the byte is noted, stays so, and the LEGACY format asks for none. -/
theorem mandatoryPrefixIsAnotherInstruction : Obligations.MandatoryPrefixIsAnotherInstruction := by
  intro m pre rex tail hpre hmem hrex
  have hall : (scanPrefixes m .start (pre ++ rex)).2 = [] := by
    refine scanPrefixes_eq_nil fun b hb => (List.mem_append.mp hb).imp (hpre b) fun hb => ?_
    rcases hrex with rfl | ⟨rfl, c, hc, rfl⟩
    · cases hb
    · obtain rfl := List.mem_singleton.mp hb
      simp [isRexByte, hc]
  obtain ⟨b, hb, hbpre⟩ : ∃ b, (b = 0x66#8 ∨ b = 0xF3#8 ∨ b = 0xF2#8) ∧ b ∈ pre := by
    rcases hmem with h | h | h
    · exact ⟨_, .inl rfl, h⟩
    · exact ⟨_, .inr (.inl rfl), h⟩
    · exact ⟨_, .inr (.inr rfl), h⟩
  have hsimd := scanPrefixes_notes_of_mem (P := fun p => p.simd = true) (fun _ _ _ ht => (take_keeps ht).2.1)
    (take_simd_of_mandatory hb) (List.mem_append_left rex hbpre) hall
  rw [decode, scanPrefixes_append_of_eq_nil hall, scanPrefixes_stop (take_formatByte m _ (by decide))]
  exact decodeFormat_legacy_simd hsimd tail

/-! ### The stored `vvvv` (30_encoding.md R50, R51, R55, R67) -/

/-- `vvvv` as stored; 1111b for the LEGACY format, which has none. -/
def vvvvOf : Instr → BitVec 4
  | .cvtps2pd _ => 15#4
  | .vcvtps2pdVex128C5 op => op.vvvv
  | .vcvtps2pdVex128C4 op => op.vvvv
  | .vcvtps2pdVex256C5 op => op.vvvv
  | .vcvtps2pdVex256C4 op => op.vvvv
  | .vcvtps2pdEvex512Sae op => op.vvvv
  | .vcvtps2pdEvex128 op => op.vvvv
  | .vcvtps2pdEvex256 op => op.vvvv
  | .vcvtps2pdEvex512 op => op.vvvv
  | .vcvtps2pdEvexReservedLL11 op => op.vvvv

/-- Bits 6:3 of byte 1 of a two-byte VEX, of byte 2 of a three-byte VEX or an EVEX format; 1111b for LEGACY. -/
def storedVvvv (fmt : List Byte) : BitVec 4 :=
  if fmt.head? = some 0x0F#8 then 15#4
  else (fmt.getD (if fmt.head? = some 0xC5#8 then 1 else 2) 0#8).extractLsb' 3 4

@[simp] theorem vvvvOf_evexRow (ll : BitVec 2) (op : EvexOp) : vvvvOf (evexRow ll op) = op.vvvv := by
  unfold evexRow; split_ifs <;> rfl

theorem vvvvOf_evexInstr (p : PrefixScan) (bad : Bool) (p0 p1 p2 : Byte) (reg : BitVec 3) (rm : Rm) :
    vvvvOf (evexInstr p bad p0 p1 p2 reg rm) = p1.extractLsb' 3 4 := by
  cases rm with
  | mem a => exact vvvvOf_evexRow _ _
  | reg r =>
    simp only [evexInstr]
    split
    · rfl
    · exact vvvvOf_evexRow _ _

theorem FormatOf.vvvvOf_eq {m : Mode} {p : PrefixScan} {fmt rest : List Byte} {i : Instr}
    (h : FormatOf m p rest fmt i) : vvvvOf i = storedVvvv fmt := by
  cases h with
  | legacy => rfl
  | vex2 => unfold vex2Instr; split <;> rfl
  | vex3 => unfold vex3Instr; split <;> rfl
  | evex => exact vvvvOf_evexInstr _ _ _ _ _ _ _

/-- The `vvvv` of what decodes is that of the bytes after the prefixes. -/
theorem vvvvOf_of_decode {m : Mode} {pre fmt rest : List Byte} {b : Byte} {i : Instr}
    (hpre : ∀ c ∈ pre, isPrefixByte c = true) (hb : b ∈ [0x0F#8, 0xC5#8, 0xC4#8, 0x62#8])
    (h : decode m (pre ++ b :: fmt) = .instr i rest) : vvvvOf i = storedVvvv (b :: fmt) := by
  have hf := (decode_eq_instr_iff.mp h).2.vvvvOf_eq
  rwa [scanPrefixes_append_of_eq_nil (scanPrefixes_eq_nil fun c hc => .inl (hpre c hc)),
    scanPrefixes_stop (take_formatByte m _ hb)] at hf

/-- `F0` among the prefixes of what decodes is its `LOCK`. -/
theorem prefixesOf_lock_of_decode {m : Mode} {bytes rest : List Byte} {i : Instr}
    (h : decode m bytes = .instr i rest) (hmem : 0xF0#8 ∈ bytes.takeWhile isPrefixByte) :
    (prefixesOf i).lock = true := by
  have hall : (scanPrefixes m .start (bytes.takeWhile isPrefixByte)).2 = [] :=
    scanPrefixes_eq_nil fun b hb => .inl (List.mem_takeWhile_imp hb)
  have hlock := scanPrefixes_notes_of_mem (P := fun p => p.lock = true) (fun _ _ _ ht => (take_keeps ht).1)
    (fun p q hq => by cases hq; rfl) hmem hall
  rw [(decode_eq_instr_iff.mp h).2.prefixesOf_eq, ← List.takeWhile_append_dropWhile (p := isPrefixByte) (l := bytes),
    scanPrefixes_append_of_eq_nil hall]
  exact scanPrefixes_keeps (P := fun p => p.lock = true) (fun _ _ _ ht => (take_keeps ht).1) hlock _

end Sys2Proof

namespace Sys2Proof.Machine

open Sys2Proof.Safety

/-! ### #UD by a field of the encoding (30_encoding.md R67 to R69) -/

theorem convert_ud {f : Form} {s : State} {m : Mode} (hm : s.opMode = .run m) (hud : f.ud = true) :
    convert f s = .fault (.invalidOpcode s) := by
  simp [convert, hm, hud, takeException]

/-- Every instruction is `convert` of its form, the `{sae}` form where it is not refused (30_encoding.md R56). -/
theorem exec_eq_convert {i : Instr} {s : State} (h : SaeAccepted s i) : exec i s = convert (formOf i s) s := by
  cases i with
  | vcvtps2pdEvex512Sae op =>
    have hc : (!s.cfg.saeIgnoresLL && op.ll != 2#2) = false := by
      rcases h with h | h <;> simp [h]
    simp only [exec, execVcvtps2pdEvex512Sae, hc, Bool.false_eq_true, if_false, formOf]
  | _ => rfl

theorem exec_ud {i : Instr} {s : State} {m : Mode} (hm : s.opMode = .run m) (h : SaeAccepted s i)
    (hud : (formOf i s).ud = true) : exec i s = .fault (.invalidOpcode s) :=
  (exec_eq_convert h).trans (convert_ud hm hud)

theorem formOf_ud_of_vvvv {i : Instr} (h : vvvvOf i ≠ 15#4) (s : State) : (formOf i s).ud = true := by
  cases i with
  | cvtps2pd op => exact absurd rfl h
  | vcvtps2pdEvexReservedLL11 op => rfl
  | _ => simp_all [vvvvOf, formOf, vexForm, vexUd, evexForm, saeForm, evexUd]

theorem formOf_ud_of_lock {i : Instr} (h : (prefixesOf i).lock = true) (s : State) : (formOf i s).ud = true := by
  cases i with
  | vcvtps2pdEvexReservedLL11 op => rfl
  | _ => simp_all [prefixesOf, formOf, legacyForm, legacyUd, vexForm, vexUd, evexForm, saeForm, evexUd]

/-- Settles O37: each format's bytes carry the `vvvv` that the form checks first. -/
theorem vvvvMustBeOnes : Obligations.VvvvMustBeOnes := by
  intro s m pre tail rest b0 b1 b2 i hm hsae hpre h
  refine exec_ud hm hsae (formOf_ud_of_vvvv ?_ s)
  rcases h with ⟨hd, hv⟩ | ⟨hd, hv⟩ | ⟨hd, hv⟩
  · rwa [vvvvOf_of_decode hpre (by decide) hd]
  · rwa [vvvvOf_of_decode hpre (by decide) hd]
  · rwa [vvvvOf_of_decode hpre (by decide) hd]

/-- Settles O38: the scan keeps `LOCK`, and every form checks it. -/
theorem lockIsUd : Obligations.LockIsUd := by
  intro s m bytes rest i hm hsae hd hmem
  exact exec_ud hm hsae (formOf_ud_of_lock (prefixesOf_lock_of_decode hd hmem) s)

/-- Settles O27: the reserved row's form asks for its #UD. -/
theorem reservedEncodingIsUd : Obligations.ReservedEncodingIsUd :=
  fun op _ _ hm => exec_ud (i := .vcvtps2pdEvexReservedLL11 op) hm trivial rfl

/-- Settles O26: the check stands before `convert`. -/
theorem saeVectorLengthParameter : Obligations.SaeVectorLengthParameter := by
  intro op s hparam hll
  simp [exec, execVcvtps2pdEvex512Sae, hparam, hll]

/-! ### The step on bytes that are no instruction (60_exceptions.md R118 step 1) -/

/-- Settles O6: the step hands the decoder's refusal on. -/
theorem stepRefusesUndecoded : Obligations.StepRefusesUndecoded := by
  intro s m r hm hp hd
  rw [step_run hm hp, hd]
  rfl

/-- A fetch that nothing stops gives all the bytes asked for. -/
theorem fetchFrom_length_of_none {s : State} {m : Mode} {t n : Nat} (h : (fetchFrom s m t n).2 = none) :
    (fetchFrom s m t n).1.length = n := by
  induction n generalizing t with
  | zero => rfl
  | succ n ih =>
    simp only [fetchFrom] at h ⊢
    split at h
    · cases h
    · simp [ih h]

/-- Prefix and REX bytes alone never reach a format. -/
theorem decode_truncated {m : Mode} {bytes : List Byte}
    (h : ∀ b ∈ bytes, isPrefixByte b = true ∨ isRexByte m b = true) : decode m bytes = .truncated := by
  rw [decode, scanPrefixes_eq_nil h]
  rfl

/-- Settles O5: the decoder asks for more bytes, so the step ends as the fetch did, or in #GP(0). -/
theorem endlessPrefixesFault : Obligations.EndlessPrefixesFault := by
  intro s m hm hp hbytes
  have hstep : step s = truncatedOutcome s maxInstrLen (fetchBytes s m).2 := by
    rw [step_run hm hp, decode_truncated hbytes]
    rfl
  refine ⟨fun f hf => ?_, fun hnone => ⟨fetchFrom_length_of_none hnone, ?_⟩⟩
  · rw [hstep, hf]
    rfl
  · rw [hstep, hnone]
    rfl

/-! ### Compressed displacements (30_encoding.md R63, R64) -/

/-- Settles O50: the factor is the bytes the form reads, and a displacement is the word of its integer. -/
theorem compressedDisplacement : Obligations.CompressedDisplacement := by
  refine ⟨fun s m e bcst a => ?_, fun s m l v n kl a => ⟨rfl, rfl⟩, fun n d w => ?_⟩
  · cases bcst <;> exact ⟨rfl, rfl, rfl⟩
  · exact ⟨dispValue_eq_ofInt n (.d8 d), dispValue_eq_ofInt n (.d32 w)⟩

end Sys2Proof.Machine

namespace Sys2Proof.Machine

open Sys2Proof.Safety

/-! ### The classes by their fields (40_conversion_numerics.md R74, R75) -/

section SingleClass

variable {x : Single}

theorem singleClass_eq_zero_iff : singleClass x = .zero ↔ singleExp x = 0#8 ∧ singleFrac x = 0#23 := by
  unfold singleClass
  split_ifs <;> simp_all

theorem singleClass_eq_denormal_iff : singleClass x = .denormal ↔ singleExp x = 0#8 ∧ singleFrac x ≠ 0#23 := by
  unfold singleClass
  split_ifs <;> simp_all

theorem singleClass_eq_normal_iff : singleClass x = .normal ↔ singleExp x ≠ 0#8 ∧ singleExp x ≠ 255#8 := by
  unfold singleClass
  split_ifs <;> simp_all

theorem singleClass_finite (h : FiniteSingle x) :
    singleClass x = .zero ∨ singleClass x = .denormal ∨ singleClass x = .normal := by
  have h255 : singleExp x ≠ 255#8 := h
  unfold singleClass
  split_ifs <;> simp_all

theorem singleFrac_quiet_of_qnan (h : singleClass x = .qnan) : (singleFrac x).getLsbD 22 = true := by
  unfold singleClass at h
  split_ifs at h
  simp_all

end SingleClass

section DoubleClass

variable (s : BitVec 1)

@[simp] theorem doubleClass_packDouble_zero : doubleClass (packDouble s 0#11 0#52) = .zero := by simp [doubleClass]

@[simp] theorem doubleClass_packDouble_infinity : doubleClass (packDouble s 2047#11 0#52) = .infinity := by
  simp [doubleClass]

theorem doubleClass_packDouble_normal {e : BitVec 11} (f : BitVec 52) (h0 : e ≠ 0#11) (h2047 : e ≠ 2047#11) :
    doubleClass (packDouble s e f) = .normal := by
  simp [doubleClass, h0, h2047]

theorem doubleClass_packDouble_qnan {f : BitVec 52} (h : f.getLsbD 51 = true) :
    doubleClass (packDouble s 2047#11 f) = .qnan := by
  have hf : f ≠ 0#52 := by rintro rfl; simp at h
  simp [doubleClass, h, hf]

end DoubleClass

/-! ### The fields that `Cvt` builds (40_conversion_numerics.md R77) -/

theorem widenFrac_toNat (f : BitVec 23) : (widenFrac f).toNat = f.toNat * 2 ^ 29 := by
  have := f.isLt
  simp only [widenFrac, BitVec.toNat_shiftLeft, BitVec.toNat_setWidth, Nat.shiftLeft_eq]
  omega

theorem getLsbD_widenFrac_low (f : BitVec 23) {b : Nat} (h : b < 29) : (widenFrac f).getLsbD b = false := by
  simp [widenFrac, h]

theorem getLsbD_widenFrac_high (f : BitVec 23) {b : Nat} (h : b < 23) :
    (widenFrac f).getLsbD (29 + b) = f.getLsbD b := by
  have h52 : 29 + b < 52 := by omega
  simp [widenFrac, h52]

/-- The exponent of a normal single moves by the difference of the biases, and reaches neither end. -/
theorem widenExp_toNat (e : BitVec 8) : (e.setWidth 11 + 896#11).toNat = e.toNat + 896 := by
  have := e.isLt
  simp only [BitVec.toNat_add, BitVec.toNat_setWidth, BitVec.toNat_ofNat]
  omega

theorem normalExp_ne {e : BitVec 11} (h0 : 0 < e.toNat) (h2047 : e.toNat < 2047) : e ≠ 0#11 ∧ e ≠ 2047#11 := by
  constructor <;> rintro rfl <;> simp at h0 h2047

theorem log2_lt_23 (f : BitVec 23) : Nat.log2 f.toNat < 23 := by
  rcases Nat.eq_zero_or_pos f.toNat with h | h
  · simp [h]
  · exact (Nat.log2_lt h.ne').mpr f.isLt

theorem denormalExp_toNat (f : BitVec 23) :
    (BitVec.ofNat 11 (Nat.log2 f.toNat + 874)).toNat = Nat.log2 f.toNat + 874 := by
  have := log2_lt_23 f
  rw [BitVec.toNat_ofNat]
  omega

/-- With its leading 1 put back, the normalised fraction is the denormal's, shifted. -/
theorem denormalFrac_toNat {f : BitVec 23} (h : f ≠ 0#23) :
    2 ^ 52 + (f.setWidth 52 <<< (52 - Nat.log2 f.toNat)).toNat = f.toNat * 2 ^ (52 - Nat.log2 f.toNat) := by
  have hpos : f.toNat ≠ 0 := fun h0 => h (BitVec.eq_of_toNat_eq h0)
  have hp := log2_lt_23 f
  have hlt : f.toNat < 2 ^ 52 := by have := f.isLt; omega
  have hlow : 2 ^ 52 ≤ f.toNat * 2 ^ (52 - Nat.log2 f.toNat) := by
    calc 2 ^ 52 = 2 ^ Nat.log2 f.toNat * 2 ^ (52 - Nat.log2 f.toNat) := by rw [← pow_add]; congr 1; omega
      _ ≤ _ := Nat.mul_le_mul_right _ (Nat.log2_self_le hpos)
  have hhigh : f.toNat * 2 ^ (52 - Nat.log2 f.toNat) < 2 ^ 53 := by
    calc f.toNat * 2 ^ (52 - Nat.log2 f.toNat)
        < 2 ^ (Nat.log2 f.toNat + 1) * 2 ^ (52 - Nat.log2 f.toNat) :=
          Nat.mul_lt_mul_of_pos_right Nat.lt_log2_self (by positivity)
      _ = 2 ^ 53 := by rw [← pow_add]; congr 1; omega
  rw [BitVec.toNat_shiftLeft, BitVec.toNat_setWidth, Nat.mod_eq_of_lt hlt, Nat.shiftLeft_eq]
  omega

/-! ### Exactness (40_conversion_numerics.md R78) -/

theorem doubleMag_packDouble (s : BitVec 1) {e : BitVec 11} (f : BitVec 52) (h : e ≠ 0#11) :
    doubleMag (packDouble s e f) = (2 ^ 52 + f.toNat) * 2 ^ (e.toNat - 1) := by
  simp [doubleMag, h]

section Exact

variable {x : Single}

theorem cvt_zero_exact (daz : Bool) (h : singleClass x = .zero) :
    SameReal x (cvt x daz).d ∧ doubleClass (cvt x daz).d = .zero := by
  obtain ⟨he, hf⟩ := singleClass_eq_zero_iff.mp h
  have hmag : singleMag x = 0 := by simp [singleMag, he, hf]
  rw [cvt_zero daz h]
  refine ⟨⟨doubleSign_packDouble _ _ _, ?_⟩, doubleClass_packDouble_zero _⟩
  rw [hmag, Nat.zero_mul]
  simp [doubleMag]

theorem cvt_denormal_exact (h : singleClass x = .denormal) :
    SameReal x (cvt x false).d ∧ doubleClass (cvt x false).d = .normal := by
  obtain ⟨he, hf⟩ := singleClass_eq_denormal_iff.mp h
  have hp := log2_lt_23 (singleFrac x)
  have hexp := denormalExp_toNat (singleFrac x)
  obtain ⟨h0, h2047⟩ := normalExp_ne (e := BitVec.ofNat 11 (Nat.log2 (singleFrac x).toNat + 874))
    (by omega) (by omega)
  have hsum : 52 - Nat.log2 (singleFrac x).toNat + (Nat.log2 (singleFrac x).toNat + 874 - 1) = 925 := by omega
  rw [cvt_denormal h]
  refine ⟨⟨doubleSign_packDouble _ _ _, ?_⟩, doubleClass_packDouble_normal _ _ h0 h2047⟩
  simp only [normaliseDenormal]
  rw [doubleMag_packDouble _ _ h0, denormalFrac_toNat hf, hexp, singleMag, if_pos he, mul_assoc, ← pow_add,
    hsum]

theorem cvt_normal_exact (daz : Bool) (h : singleClass x = .normal) :
    SameReal x (cvt x daz).d ∧ doubleClass (cvt x daz).d = .normal := by
  obtain ⟨he0, he255⟩ := singleClass_eq_normal_iff.mp h
  have hpos : (singleExp x).toNat ≠ 0 := fun h0 => he0 (BitVec.eq_of_toNat_eq h0)
  have hexp := widenExp_toNat (singleExp x)
  have hlt := (singleExp x).isLt
  obtain ⟨h0, h2047⟩ := normalExp_ne (e := (singleExp x).setWidth 11 + 896#11) (by omega) (by omega)
  have hsum : 29 + ((singleExp x).toNat + 896 - 1) = (singleExp x).toNat - 1 + 925 := by omega
  rw [cvt_normal daz h]
  refine ⟨⟨doubleSign_packDouble _ _ _, ?_⟩, doubleClass_packDouble_normal _ _ h0 h2047⟩
  rw [doubleMag_packDouble _ _ h0, widenFrac_toNat, hexp, singleMag, if_neg he0]
  calc (2 ^ 52 + (singleFrac x).toNat * 2 ^ 29) * 2 ^ ((singleExp x).toNat + 896 - 1)
      = (2 ^ 23 + (singleFrac x).toNat) * 2 ^ (29 + ((singleExp x).toNat + 896 - 1)) := by ring
    _ = (2 ^ 23 + (singleFrac x).toNat) * 2 ^ ((singleExp x).toNat - 1 + 925) := by rw [hsum]
    _ = (2 ^ 23 + (singleFrac x).toNat) * 2 ^ ((singleExp x).toNat - 1) * 2 ^ 925 := by rw [pow_add, mul_assoc]

theorem cvt_infinity_class (daz : Bool) (h : singleClass x = .infinity) :
    doubleClass (cvt x daz).d = .infinity ∧ doubleSign (cvt x daz).d = singleSign x := by
  simp [cvt_infinity daz h]

end Exact

/-! ### What `Cvt` signals (40_conversion_numerics.md R76, R78) -/

/-- `ie` of each class: an SNaN alone. -/
theorem cvt_ie_iff (x : Single) (daz : Bool) : (cvt x daz).ie = true ↔ singleClass x = .snan := by
  unfold cvt
  cases singleClass x <;> cases daz <;> simp

/-- `de` of each class: a denormal alone, and not with DAZ. -/
theorem cvt_de_iff (x : Single) (daz : Bool) : (cvt x daz).de = true ↔ singleClass x = .denormal ∧ daz = false := by
  unfold cvt
  cases singleClass x <;> cases daz <;> simp

theorem cvt_ie_eq_false {x : Single} (daz : Bool) (h : singleClass x ≠ .snan) : (cvt x daz).ie = false := by
  simpa [h] using cvt_ie_iff x daz

theorem cvt_de_eq_false {x : Single} (daz : Bool) (h : singleClass x ≠ .denormal) : (cvt x daz).de = false := by
  simpa [h] using cvt_de_iff x daz

/-- Settles O16: exactness class by class, and the two conditions by their classes. -/
theorem cvtIsExactAndSignalsOnlySnanAndDenormal : Obligations.CvtIsExactAndSignalsOnlySnanAndDenormal := by
  intro x daz
  refine ⟨fun hfin => ?_, fun h => ?_, fun h => ?_, cvt_ie_iff x daz, cvt_de_iff x daz, ?_⟩
  · rcases singleClass_finite hfin with h | h | h
    · exact (cvt_zero_exact false h).imp_right .inl
    · exact (cvt_denormal_exact h).imp_right .inr
    · exact (cvt_normal_exact false h).imp_right .inr
  · have hexact : SameReal x (cvt x daz).d :=
      h.elim (fun h => (cvt_zero_exact daz h).1) (fun h => (cvt_normal_exact daz h).1)
    exact ⟨hexact, cvt_ie_eq_false daz (by rcases h with h | h <;> simp [h]),
      cvt_de_eq_false daz (by rcases h with h | h <;> simp [h])⟩
  · obtain ⟨hclass, hsign⟩ := cvt_infinity_class daz h
    exact ⟨hclass, hsign, cvt_ie_eq_false daz (by simp [h]), cvt_de_eq_false daz (by simp [h])⟩
  · rw [cvt_ie_iff, cvt_de_iff]
    rintro ⟨hsnan, hden, -⟩
    simp [hsnan] at hden

/-! ### NaNs (40_conversion_numerics.md R80) -/

/-- The fraction of a NaN with its quiet bit set: `OR`-ing `0x400000` in leaves a quiet NaN's fraction as it is. -/
def quietFrac (f : BitVec 23) : BitVec 23 := f ||| 0x400000#23

@[simp] theorem getLsbD_quietFrac_quiet (f : BitVec 23) : (quietFrac f).getLsbD 22 = true := by simp [quietFrac]

theorem getLsbD_quietFrac_payload (f : BitVec 23) {b : Nat} (h : b < 22) :
    (quietFrac f).getLsbD b = f.getLsbD b := by
  have hb : (0x400000#23).getLsbD b = false := (by decide : ∀ b < 22, (0x400000#23).getLsbD b = false) b h
  simp [quietFrac, hb]

theorem quietFrac_eq_self {f : BitVec 23} (h : f.getLsbD 22 = true) : quietFrac f = f := by
  apply BitVec.eq_of_getLsbD_eq
  intro b hb
  rcases Nat.lt_or_eq_of_le (Nat.le_of_lt_succ hb) with hlt | rfl
  · exact getLsbD_quietFrac_payload f hlt
  · rw [getLsbD_quietFrac_quiet, h]

/-- The result of either kind of NaN. -/
theorem cvt_nan {x : Single} (daz : Bool) (h : singleClass x = .qnan ∨ singleClass x = .snan) :
    (cvt x daz).d = packDouble (singleSign x) 2047#11 (widenFrac (quietFrac (singleFrac x))) := by
  rcases h with h | h
  · rw [cvt_qnan daz h, quietFrac_eq_self (singleFrac_quiet_of_qnan h)]
  · rw [cvt_snan daz h, quietFrac]

theorem getLsbD_widenFrac_quietFrac (f : BitVec 23) : (widenFrac (quietFrac f)).getLsbD 51 = true :=
  (getLsbD_widenFrac_high (quietFrac f) (b := 22) (by decide)).trans (getLsbD_quietFrac_quiet f)

theorem cvt_nan_class {x : Single} (daz : Bool) (h : singleClass x = .qnan ∨ singleClass x = .snan) :
    doubleClass (cvt x daz).d = .qnan := by
  rw [cvt_nan daz h]
  exact doubleClass_packDouble_qnan _ (getLsbD_widenFrac_quietFrac _)

/-- Settles O18: a NaN's result is its quieted fraction, widened. -/
theorem cvtNans : Obligations.CvtNans := by
  intro x daz h
  refine ⟨cvt_nan_class daz h, ?_, fun b hb => ?_, fun b hb => ?_, ?_, cvt_ie_iff x daz,
    cvt_de_eq_false daz (by rcases h with h | h <;> simp [h])⟩
  all_goals rw [cvt_nan daz h]
  · exact doubleSign_packDouble _ _ _
  · rw [doubleFrac_packDouble, getLsbD_widenFrac_high _ (by omega), getLsbD_quietFrac_payload _ hb]
  · rw [doubleFrac_packDouble, getLsbD_widenFrac_low _ hb]
  · rw [doubleFrac_packDouble, getLsbD_widenFrac_quietFrac]

/-! ### Denormals (40_conversion_numerics.md R79) -/

theorem cvt_denormal_daz_class {x : Single} (h : singleClass x = .denormal) :
    doubleClass (cvt x true).d = .zero ∧ doubleSign (cvt x true).d = singleSign x := by
  simp [cvt_denormal_daz h]

/-- The class of the result, class by class: never a denormal double. -/
theorem cvt_class_ne_denormal (x : Single) (daz : Bool) : doubleClass (cvt x daz).d ≠ .denormal := by
  cases h : singleClass x with
  | zero => simp [(cvt_zero_exact daz h).2]
  | denormal =>
    cases daz with
    | false => simp [(cvt_denormal_exact h).2]
    | true => simp [(cvt_denormal_daz_class h).1]
  | normal => simp [(cvt_normal_exact daz h).2]
  | infinity => simp [(cvt_infinity_class daz h).1]
  | qnan => simp [cvt_nan_class daz (.inl h)]
  | snan => simp [cvt_nan_class daz (.inr h)]

/-- Settles O17: a denormal is normalised, or with DAZ replaced by a zero. -/
theorem cvtDenormals : Obligations.CvtDenormals := by
  refine ⟨fun x h => ?_, cvt_class_ne_denormal⟩
  have hie : ∀ daz, (cvt x daz).ie = false := fun daz => cvt_ie_eq_false daz (by simp [h])
  obtain ⟨hexact, hnormal⟩ := cvt_denormal_exact h
  obtain ⟨hzero, hsign⟩ := cvt_denormal_daz_class h
  exact ⟨⟨hexact, hnormal, (cvt_de_iff x false).mpr ⟨h, rfl⟩, hie false⟩,
    ⟨hzero, hsign, by rw [cvt_denormal_daz h], hie true⟩⟩

end Sys2Proof.Machine

namespace Sys2Proof.Machine

open Sys2Proof.Safety

/-! ### The floating-point response (40_conversion_numerics.md R82 to R84; 60_exceptions.md R115, R116) -/

/-- The `{sae}` row is the only one that can be refused by its vector length. -/
theorem saeAccepted_of_sae_eq_false {i : Instr} {s : State} (h : (formOf i s).sae = false) : SaeAccepted s i := by
  cases i with
  | vcvtps2pdEvex512Sae op => cases h
  | _ => trivial

/-- An unmasked condition is reported when everything before the conversion passes. -/
theorem convert_unmasked {f : Form} {s : State} {m : Mode} (hm : s.opMode = .run m) (hud : f.ud = false)
    (hts : s.cr0TS = false) (hacc : f.accessCheck s m = none) (hsae : f.sae = false)
    (hun : unmasked s.mxcsr (f.anyInvalid s m) (f.anyDenormal s m) = true) :
    convert f s = .fault (takeException (simdException s) (s.setMxcsr (f.flags s m))) := by
  simp [convert, hm, hud, hts, hacc, hsae, hun]

theorem takeException_simdException (s t : State) :
    takeException (simdException s) t =
      if s.cr4.getLsbD 10 then .simdFloatingPoint t else .invalidOpcode t := by
  unfold simdException State.osxmmexcpt
  split <;> rfl

theorem unmasked_eq_true_iff (x : BitVec 32) (i d : Bool) :
    unmasked x i d = true ↔ (i = true ∧ mxcsrIM x = false) ∨ (d = true ∧ mxcsrDM x = false) := by simp [unmasked]

section Conditions

variable (f : Form) (s : State) (m : Mode)

/-- Condition `I` is that a selected element is an SNaN. -/
theorem Form.anyInvalid_iff_snan :
    f.anyInvalid s m = true ↔ ∃ j ∈ f.selected, singleClass (f.sourceElem s m j) = .snan := by
  simp only [Form.anyInvalid, List.any_eq_true, Form.result, cvt_ie_iff]

/-- Condition `D` is that a selected element is a denormal, DAZ being off. -/
theorem Form.anyDenormal_iff_denormal :
    f.anyDenormal s m = true ↔
      ∃ j ∈ f.selected, singleClass (f.sourceElem s m j) = .denormal ∧ mxcsrDAZ s.mxcsr = false := by
  simp only [Form.anyDenormal, List.any_eq_true, Form.result, cvt_de_iff]

/-- `Form.flags` ORs in every detected condition of the selected elements. -/
theorem Form.flagsOred_flags :
    FlagsOred s (s.setMxcsr (f.flags s m)) f.kl (· ∈ f.selected) (f.sourceElem s m) where
  ie := by
    rw [State.setMxcsr_mxcsr, Form.flags, getLsbD_setFlags_ie, Bool.or_eq_true, Form.anyInvalid_iff]
    simp only [Form.mem_selected, Form.result, and_assoc, and_self_left]
  de := by
    rw [State.setMxcsr_mxcsr, Form.flags, getLsbD_setFlags_de, Bool.or_eq_true, Form.anyDenormal_iff]
    simp only [Form.mem_selected, Form.result, and_assoc, and_self_left]
  others := fun _ hb => getLsbD_setFlags_other _ _ _ hb

end Conditions

/-- Settles O46: an unmasked SNaN or denormal makes `unmasked` true, and the state left holds `Form.flags`. -/
theorem unmaskedConditionFaults : Obligations.UnmaskedConditionFaults := by
  intro i s m hm hud hts hacc hsae hcond
  have hun : unmasked s.mxcsr ((formOf i s).anyInvalid s m) ((formOf i s).anyDenormal s m) = true := by
    rw [unmasked_eq_true_iff, Form.anyInvalid_iff_snan, Form.anyDenormal_iff_denormal]
    rcases hcond with ⟨j, hj, hsnan, him⟩ | ⟨j, hj, hden, hdaz, hdm⟩
    · exact .inl ⟨⟨j, hj, hsnan⟩, him⟩
    · exact .inr ⟨⟨j, hj, hden, hdaz⟩, hdm⟩
  refine ⟨(formOf i s).flags s m, ?_, Form.flagsOred_flags _ s m⟩
  rw [exec_eq_convert (saeAccepted_of_sae_eq_false hsae), convert_unmasked hm hud hts hacc hsae hun,
    takeException_simdException]
  split <;> rfl

/-! ### Executions that differ in `MXCSR` alone (40_conversion_numerics.md R76, R78; 10_state.md R14) -/

theorem saeAccepted_of_exec_next {i : Instr} {s t : State} (h : exec i s = .next t) : SaeAccepted s i := by
  cases i with
  | vcvtps2pdEvex512Sae op =>
    by_contra hne
    simp only [SaeAccepted, not_or, Bool.not_eq_true] at hne
    rw [saeVectorLengthParameter op s hne.1 hne.2] at h
    cases h
  | _ => trivial

theorem saeAccepted_setMxcsr {i : Instr} {s : State} (h : SaeAccepted s i) (x : BitVec 32) :
    SaeAccepted (s.setMxcsr x) i := by cases i <;> exact h

theorem formOf_setMxcsr (i : Instr) (s : State) (x : BitVec 32) : formOf i (s.setMxcsr x) = formOf i s := by
  cases i <;> rfl

theorem checkBytes_setMxcsr_none {s : State} {m : Mode} {seg : SegReg} {k : AccessKind} {off : Word} {l : List Nat}
    (h : checkBytes s m seg k off l = none) (x : BitVec 32) : checkBytes (s.setMxcsr x) m seg k off l = none := by
  simp only [checkBytes, Option.or_eq_none_iff, List.findSome?_eq_none_iff, segmentFault_none_iff,
    pageFault_none_iff] at h ⊢
  exact h

theorem Form.alignmentStop_none_iff (f : Form) (s : State) (m : Mode) (bcst : Bool) (a : Mem) :
    f.alignmentStop s m bcst a = none ↔ (!s.alignmentChecking || (f.accessed bcst).isEmpty) = true := by
  unfold Form.alignmentStop
  split_ifs <;> simp_all

/-- A fault of the access holds the state, so only a check that passes is the same. -/
theorem Form.accessCheck_setMxcsr_none {f : Form} {s : State} {m : Mode} (h : f.accessCheck s m = none)
    (x : BitVec 32) : f.accessCheck (s.setMxcsr x) m = none := by
  cases hsrc : f.src with
  | reg n => exact Form.accessCheck_reg hsrc _ m
  | mem bcst a =>
    simp only [Form.accessCheck, hsrc, Option.or_eq_none_iff, Form.alignmentStop_none_iff] at h ⊢
    obtain ⟨hbytes, halign⟩ := h
    exact ⟨checkBytes_setMxcsr_none hbytes x, halign⟩

section OtherMxcsr

variable (f : Form) (s : State) (m : Mode) (x : BitVec 32)

theorem Form.sourceElem_setMxcsr (j : Nat) : f.sourceElem (s.setMxcsr x) m j = f.sourceElem s m j := rfl

variable {x} (hdaz : mxcsrDAZ x = mxcsrDAZ s.mxcsr)
include hdaz

/-- Of `MXCSR`, the conversion reads DAZ alone. -/
theorem Form.result_setMxcsr : f.result (s.setMxcsr x) m = f.result s m := by
  funext j
  simp only [Form.result, Form.sourceElem_setMxcsr, State.setMxcsr_mxcsr, hdaz]

theorem Form.anyInvalid_setMxcsr : f.anyInvalid (s.setMxcsr x) m = f.anyInvalid s m := by
  simp only [Form.anyInvalid, Form.result_setMxcsr f s m hdaz]

theorem Form.anyDenormal_setMxcsr : f.anyDenormal (s.setMxcsr x) m = f.anyDenormal s m := by
  simp only [Form.anyDenormal, Form.result_setMxcsr f s m hdaz]

theorem Form.destValue_setMxcsr : f.destValue (s.setMxcsr x) m = f.destValue s m := by
  have helem : f.element (s.setMxcsr x) m = f.element s m := by
    funext j
    simp only [Form.element, Form.result_setMxcsr f s m hdaz]
  simp only [Form.destValue, helem, State.setMxcsr_v]

theorem Form.nextState_setMxcsr_v : (f.nextState (s.setMxcsr x) m).v = (f.nextState s m).v := by
  simp only [Form.nextState, Form.destValue_setMxcsr f s m hdaz, State.setPc_v, State.setMxcsr_v, State.setVec_v,
    State.setMxcsr_cfg]

theorem Form.unmasked_setMxcsr (him : mxcsrIM x = mxcsrIM s.mxcsr) (hdm : mxcsrDM x = mxcsrDM s.mxcsr) :
    unmasked x (f.anyInvalid (s.setMxcsr x) m) (f.anyDenormal (s.setMxcsr x) m) =
      unmasked s.mxcsr (f.anyInvalid s m) (f.anyDenormal s m) := by
  simp only [unmasked, Form.anyInvalid_setMxcsr f s m hdaz, Form.anyDenormal_setMxcsr f s m hdaz, him, hdm]

end OtherMxcsr

/-- Settles O35: DAZ decides the results, IM and DM whether they are committed; every other check reads no `MXCSR`. -/
theorem roundingAndFlushIrrelevant : Obligations.RoundingAndFlushIrrelevant := by
  intro i s t x h hbits
  have hdaz : mxcsrDAZ x = mxcsrDAZ s.mxcsr := hbits 6 (.inl rfl)
  have him : mxcsrIM x = mxcsrIM s.mxcsr := hbits 7 (.inr (.inl rfl))
  have hdm : mxcsrDM x = mxcsrDM s.mxcsr := hbits 8 (.inr (.inr rfl))
  obtain ⟨m, hm, hud, hts, hacc, hun, hpc, rfl⟩ := convert_next_inv (convert_formOf_of_exec_next h)
  have hnext : exec i (s.setMxcsr x) = .next ((formOf i s).nextState (s.setMxcsr x) m) := by
    rw [exec_eq_convert (saeAccepted_setMxcsr (saeAccepted_of_exec_next h) x), formOf_setMxcsr]
    exact convert_next hm hud hts (Form.accessCheck_setMxcsr_none hacc x)
      (hun.imp_right (Form.unmasked_setMxcsr _ s m hdaz him hdm).trans) hpc
  exact ⟨_, hnext, Form.nextState_setMxcsr_v _ s m hdaz, rfl, fun b hb => Form.nextState_mxcsr_bit _ _ m hb⟩

end Sys2Proof.Machine

namespace Sys2Proof.Machine

open Sys2Proof.Safety

/-! ### The vector length against `MAX_VL` (00_scope.md R7) -/

theorem maxVl_ge_128 (c : Config) : 128 ≤ c.maxVl := by unfold Config.maxVl; split_ifs <;> omega

theorem maxVl_le_512 (c : Config) : c.maxVl ≤ 512 := by unfold Config.maxVl; split_ifs <;> omega

theorem maxVl_ge_256_of_hasAVX {c : Config} (h : c.hasAVX = true) : 256 ≤ c.maxVl := by
  unfold Config.maxVl
  rw [if_pos h]
  split_ifs <;> omega

theorem maxVl_of_hasAVX512F {c : Config} (h : c.hasAVX512F = true) : c.maxVl = 512 := if_pos h

theorem vexUd_eq_false_iff (op : VexOp) (s : State) :
    vexUd op s = false ↔ op.vvvv = 15#4 ∧ op.pre.lock = false ∧ op.badPrefix = false ∧ s.cfg.hasAVX = true ∧
      s.osxsave = true ∧ s.avxEnabled = true := by
  simp [vexUd, and_assoc]

theorem vexUd_eq_false_hasAVX {op : VexOp} {s : State} (h : vexUd op s = false) : s.cfg.hasAVX = true := by
  obtain ⟨-, -, -, havx, -, -⟩ := (vexUd_eq_false_iff op s).mp h
  exact havx

/-- Where a form is not #UD, the processor has the feature that makes its registers wide enough. -/
theorem formOf_width_le_maxVl {i : Instr} {s : State} (h : (formOf i s).ud = false) :
    64 * (formOf i s).kl ≤ s.cfg.maxVl := by
  have hvex (havx : s.cfg.hasAVX = true) {w : Nat} (hw : w ≤ 256) : w ≤ s.cfg.maxVl :=
    Nat.le_trans hw (maxVl_ge_256_of_hasAVX havx)
  have hevex (havx : s.cfg.hasAVX512F = true) {w : Nat} (hw : w ≤ 512) : w ≤ s.cfg.maxVl :=
    Nat.le_trans hw (maxVl_of_hasAVX512F havx).ge
  cases i with
  | cvtps2pd op => exact maxVl_ge_128 _
  | vcvtps2pdVex128C5 op => exact hvex (vexUd_eq_false_hasAVX h) (by decide : 64 * 2 ≤ 256)
  | vcvtps2pdVex128C4 op => exact hvex (vexUd_eq_false_hasAVX h) (by decide : 64 * 2 ≤ 256)
  | vcvtps2pdVex256C5 op => exact hvex (vexUd_eq_false_hasAVX h) (Nat.le_refl 256)
  | vcvtps2pdVex256C4 op => exact hvex (vexUd_eq_false_hasAVX h) (Nat.le_refl 256)
  | vcvtps2pdEvex512Sae op => exact hevex (evexUd_eq_false_hasAVX512F h) (Nat.le_refl 512)
  | vcvtps2pdEvex128 op =>
    exact hevex (evexUd_eq_false_hasAVX512F (Bool.or_eq_false_iff.mp h).1) (by decide : 64 * 2 ≤ 512)
  | vcvtps2pdEvex256 op =>
    exact hevex (evexUd_eq_false_hasAVX512F (Bool.or_eq_false_iff.mp h).1) (by decide : 64 * 4 ≤ 512)
  | vcvtps2pdEvex512 op =>
    exact hevex (evexUd_eq_false_hasAVX512F (Bool.or_eq_false_iff.mp h).1) (Nat.le_refl 512)
  | vcvtps2pdEvexReservedLL11 op => cases h

/-! ### What a completed form leaves in its destination and in `MXCSR` (40_conversion_numerics.md R81, R82) -/

section Completed

variable {f : Form} {s : State}

theorem Form.elem64_nextState_selected (hvl : 64 * f.kl ≤ s.cfg.maxVl) (m : Mode) {j : Nat} (hj : j ∈ f.selected) :
    elem64 (f.nextState s m).v[f.dst] j = (cvt (f.sourceElem s m j) (mxcsrDAZ s.mxcsr)).d := by
  obtain ⟨hlt, hmask⟩ := (f.mem_selected j).mp hj
  have hkl : f.kl ≤ 8 := by
    have hmax := maxVl_le_512 s.cfg
    omega
  rw [Form.elem64_nextState_dst hvl hkl m hlt, Form.element, if_pos hmask]
  rfl

theorem Form.nextState_dst_upperKept (h : f.keepUpper = true) (m : Mode) :
    UpperKept s (64 * f.kl) s.v[f.dst] (f.nextState s m).v[f.dst] := by
  intro b hlo hvl
  have hb : b < 512 := Nat.lt_of_lt_of_le hvl (maxVl_le_512 s.cfg)
  rw [Form.nextState_vec_dst, getLsbD_and_lowMask, Form.getLsbD_destValue_above f s m hb hlo]
  simp [h, hvl]

theorem Form.nextState_flagsOred (h : f.sae = false) (m : Mode) :
    FlagsOred s (f.nextState s m) f.kl (· ∈ f.selected) (f.sourceElem s m) := by
  have hmxcsr : (f.nextState s m).mxcsr = (s.setMxcsr (f.flags s m)).mxcsr := by simp [h]
  obtain ⟨hie, hde, hother⟩ := Form.flagsOred_flags f s m
  rw [← hmxcsr] at hie hde hother
  exact ⟨hie, hde, hother⟩

theorem Form.unmasked_eq_false_of_noUnmasked {m : Mode}
    (h : NoUnmasked s f.kl (· ∈ f.selected) (f.sourceElem s m)) :
    unmasked s.mxcsr (f.anyInvalid s m) (f.anyDenormal s m) = false := by
  rw [Bool.eq_false_iff, Ne, unmasked_eq_true_iff, Form.anyInvalid_iff, Form.anyDenormal_iff]
  rintro (⟨⟨j, hj, hmask, hie⟩, him⟩ | ⟨⟨j, hj, hmask, hde⟩, hdm⟩)
  · have hset := (h j hj ((f.mem_selected j).mpr ⟨hj, hmask⟩)).1 hie
    simp [him] at hset
  · have hset := (h j hj ((f.mem_selected j).mpr ⟨hj, hmask⟩)).2 hde
    simp [hdm] at hset

end Completed

/-- Settles O33: the elements come from the state before the destination is written. -/
theorem aliasedSourceIsReadFirst : Obligations.AliasedSourceIsReadFirst := by
  intro i s t hsrc h j hj
  obtain ⟨m, -, hud, -, rfl⟩ := exec_next_inv h
  have helem : (formOf i s).sourceElem s m j = elem32 s.v[dstOf i] j := by
    simp only [Form.sourceElem, formOf_src, hsrc]
  have hconv := Form.elem64_nextState_selected (formOf_width_le_maxVl hud) m hj
  rw [helem] at hconv
  simpa only [formOf_dst] using hconv

/-! ### The LEGACY and VEX forms: every element of `src` (41_cvtps2pd_sse_vex.md R86 to R88) -/

/-- Only bytes of the operand are accessed (20_memory.md R29, R40). -/
theorem Form.lt_operandBytes_of_mem_accessed {f : Form} {bcst : Bool} {t : Nat} (h : t ∈ f.accessed bcst) :
    t < operandBytes f.kl bcst := by
  cases bcst with
  | true =>
    simp only [Form.accessed, if_true] at h
    split at h
    · cases h
    · simp only [List.mem_cons, List.not_mem_nil, or_false] at h
      simp only [operandBytes, if_true]
      omega
  | false =>
    simp only [Form.accessed, Bool.false_eq_true, if_false, List.mem_flatMap, Form.mem_selected] at h
    obtain ⟨j, ⟨hj, -⟩, ht⟩ := h
    simp only [List.mem_cons, List.not_mem_nil, or_false] at ht
    simp only [operandBytes, Bool.false_eq_true, if_false]
    omega

/-- What the LEGACY and VEX forms of `src` have in common: no writemask, `disp8` as it is (30_encoding.md R63), and
conditions that are reported. -/
structure Form.ConvertsAll (f : Form) (src : Source) : Prop where
  src  : f.src = operandOfSource src
  mask : f.mask = 0xFF#8
  kl   : f.kl ≤ 8
  evex : f.evex = false
  sae  : f.sae = false

theorem legacyForm_convertsAll (op : LegacyOp) (s : State) : (legacyForm op s).ConvertsAll op.src :=
  ⟨rfl, rfl, (by decide : 2 ≤ 8), rfl, rfl⟩

theorem vexForm_convertsAll {kl : Nat} (hkl : kl ≤ 8) (n : Nat) (op : VexOp) (s : State) :
    (vexForm n kl op s).ConvertsAll op.src := ⟨rfl, rfl, hkl, rfl, rfl⟩

namespace Form.ConvertsAll

variable {f : Form} {src : Source} (hf : f.ConvertsAll src)
include hf

theorem mem_selected_iff {j : Nat} : j ∈ f.selected ↔ j < f.kl := by
  rw [Form.mem_selected, and_iff_left_iff_imp]
  intro hj
  have hall : ∀ i : Fin 8, (0xFF#8).getLsbD i = true := by decide
  rw [hf.mask]
  exact hall ⟨j, Nat.lt_of_lt_of_le hj hf.kl⟩

variable (s : State) (m : Mode)

theorem offset_eq (a : Mem) : f.offset s m false a = memOffset s m f.pre f.len 1 a := by
  simp [Form.offset, Form.dispScale, hf.evex]

theorem sourceElem_eq : f.sourceElem s m = fun j => sourceBits s m f.pre f.len j src := by
  funext j
  cases src with
  | reg n => simp [Form.sourceElem, hf.src, operandOfSource, sourceBits]
  | mem a => simp [Form.sourceElem, hf.src, operandOfSource, sourceBits, hf.offset_eq s m a]

variable {s m}

theorem accessCheck_eq_none (h : SourceReadable s m f.pre f.len (4 * f.kl) src) : f.accessCheck s m = none := by
  cases src with
  | reg n => exact Form.accessCheck_reg hf.src s m
  | mem a =>
    obtain ⟨hbytes, hac⟩ := h
    rw [Form.accessCheck_mem hf.src hac, hf.offset_eq s m a, checkBytes_none_iff]
    intro t ht
    exact (checkBytes_none_iff s m _ _ _ _).mp hbytes t
      (List.mem_range.mpr (Form.lt_operandBytes_of_mem_accessed ht))

theorem convert_eq_next (hm : s.opMode = .run m) (hud : f.ud = false) (hts : s.cr0TS = false)
    (hread : SourceReadable s m f.pre f.len (4 * f.kl) src)
    (hno : NoUnmasked s f.kl (fun _ => True) (fun j => sourceBits s m f.pre f.len j src))
    (hpc : PcFits s m f.len) : convert f s = .next (f.nextState s m) := by
  have hsel : NoUnmasked s f.kl (· ∈ f.selected) (f.sourceElem s m) := by
    rw [hf.sourceElem_eq s m]
    exact fun j hj _ => hno j hj trivial
  exact convert_next hm hud hts (hf.accessCheck_eq_none hread)
    (.inr (Form.unmasked_eq_false_of_noUnmasked hsel)) (pcWraps_eq_false_of_pcFits hpc)

theorem converted (hvl : 64 * f.kl ≤ s.cfg.maxVl) (m : Mode) :
    Converted s f.kl (fun j => sourceBits s m f.pre f.len j src) (f.nextState s m).v[f.dst] := by
  intro j hj
  rw [Form.elem64_nextState_selected hvl m (hf.mem_selected_iff.mpr hj), hf.sourceElem_eq s m]

theorem flagsOred (s : State) (m : Mode) :
    FlagsOred s (f.nextState s m) f.kl (fun _ => True) (fun j => sourceBits s m f.pre f.len j src) := by
  obtain ⟨hie, hde, hother⟩ := Form.nextState_flagsOred (s := s) hf.sae m
  rw [hf.sourceElem_eq s m] at hie hde
  simp only [hf.mem_selected_iff, and_self_left] at hie hde
  exact ⟨by simpa using hie, by simpa using hde, hother⟩

end Form.ConvertsAll

theorem legacyForm_ud_eq_false {op : LegacyOp} {s : State} (h : LegacyEnabled op s) :
    (legacyForm op s).ud = false := by
  simp [legacyForm, legacyUd, h.lock, h.sse2, h.em, h.osfxsr]

theorem vexForm_ud_eq_false {op : VexOp} {s : State} (h : VexEnabled op s) (n kl : Nat) :
    (vexForm n kl op s).ud = false :=
  (vexUd_eq_false_iff op s).mpr ⟨h.vvvv, h.lock, h.prefixes, h.avx, h.osxsave, h.xcr0⟩

/-- Settles O19: the form converts all of its two elements and keeps the bits above them. -/
theorem legacyConvertsTwo : Obligations.LegacyConvertsTwo := by
  intro op s m hm hs hread hno hpc
  have hf := legacyForm_convertsAll op s
  have hnext : exec (.cvtps2pd op) s = .next ((legacyForm op s).nextState s m) :=
    hf.convert_eq_next hm (legacyForm_ud_eq_false hs) hs.ts hread hno hpc
  exact ⟨_, hnext, hf.converted (maxVl_ge_128 s.cfg) m,
    Form.nextState_dst_upperKept (f := legacyForm op s) rfl m, hf.flagsOred s m, rfl,
    completionChangesOnlyItsDestination _ s _ hnext⟩

/-- A VEX row of `kl` elements completes with all of them converted and every bit above them zero (R90, R91). -/
theorem exec_vex {i : Instr} {op : VexOp} {s : State} {m : Mode} {n kl : Nat} (hi : formOf i s = vexForm n kl op s)
    (hkl : kl ≤ 4) (hm : s.opMode = .run m) (hs : VexEnabled op s)
    (hread : SourceReadable s m op.pre (op.len n) (4 * kl) op.src)
    (hno : NoUnmasked s kl (fun _ => True) (fun j => sourceBits s m op.pre (op.len n) j op.src))
    (hpc : PcFits s m (op.len n)) :
    ∃ t, exec i s = .next t ∧
      Converted s kl (fun j => sourceBits s m op.pre (op.len n) j op.src) t.v[op.dst] ∧
      HighZero (64 * kl) t.v[op.dst] ∧
      FlagsOred s t kl (fun _ => True) (fun j => sourceBits s m op.pre (op.len n) j op.src) ∧
      t.pc = nextPc m s.pc (op.len n) ∧ Frame op.dst s t := by
  have hf : (vexForm n kl op s).ConvertsAll op.src := vexForm_convertsAll (by omega) n op s
  have hvl : 64 * kl ≤ s.cfg.maxVl := Nat.le_trans (by omega) (maxVl_ge_256_of_hasAVX hs.avx)
  have hsae : (formOf i s).sae = false := by rw [hi]; rfl
  have hdst : dstOf i = op.dst := by rw [← formOf_dst i s, hi]; rfl
  have hnext : exec i s = .next ((vexForm n kl op s).nextState s m) := by
    rw [exec_eq_convert (saeAccepted_of_sae_eq_false hsae), hi]
    exact hf.convert_eq_next hm (vexForm_ud_eq_false hs n kl) hs.ts hread hno hpc
  exact ⟨_, hnext, hf.converted hvl m, Form.nextState_dst_highZero (f := vexForm n kl op s) rfl m,
    hf.flagsOred s m, rfl, hdst ▸ completionChangesOnlyItsDestination i s _ hnext⟩

/-- Settles O20: both rows are the VEX form of two elements. -/
theorem vex128ConvertsTwo : Obligations.Vex128ConvertsTwo := by
  rintro op s m n i (⟨rfl, rfl⟩ | ⟨rfl, rfl⟩) hm hs hread hno hpc
  · exact exec_vex rfl (by decide) hm hs hread hno hpc
  · exact exec_vex rfl (by decide) hm hs hread hno hpc

/-- Settles O21: both rows are the VEX form of four elements. -/
theorem vex256ConvertsFour : Obligations.Vex256ConvertsFour := by
  rintro op s m n i (⟨rfl, rfl⟩ | ⟨rfl, rfl⟩) hm hs hread hno hpc
  · exact exec_vex rfl (by decide) hm hs hread hno hpc
  · exact exec_vex rfl (by decide) hm hs hread hno hpc

end Sys2Proof.Machine

namespace Sys2Proof.Machine

open Sys2Proof.Safety

/-! ### The EVEX forms: the elements that the writemask selects (42_vcvtps2pd_evex.md R97 to R99) -/

section Masked

variable {f : Form} {s : State} {aaa : BitVec 3} (hmask : f.mask = evexMask s aaa)
include hmask

theorem Form.mem_selected_iff_of_evexMask (hkl : f.kl ≤ 8) {j : Nat} :
    j ∈ f.selected ↔ j < f.kl ∧ Selected s aaa j := by
  rw [Form.mem_selected, hmask]
  exact and_congr_right fun hj => evexMask_getLsbD_iff_selected s aaa (Nat.lt_of_lt_of_le hj hkl)

theorem Form.element_of_not_selected (hkl : f.kl ≤ 8) (m : Mode) {j : Nat} (hj : j < f.kl)
    (hsel : ¬ Selected s aaa j) : f.element s m j = if f.zeroing then some 0#64 else none := by
  have hbit : ¬ f.mask.getLsbD j = true := by
    rwa [hmask, evexMask_getLsbD_iff_selected s aaa (Nat.lt_of_lt_of_le hj hkl)]
  rw [Form.element, if_neg hbit]

/-- A completed form under a writemask leaves each element converted, kept or zero (42_vcvtps2pd_evex.md R99). -/
theorem Form.maskConverted_nextState (hvl : 64 * f.kl ≤ s.cfg.maxVl) (m : Mode) :
    MaskConverted s f.kl aaa f.zeroing (f.sourceElem s m) s.v[f.dst] (f.nextState s m).v[f.dst] := by
  have hkl : f.kl ≤ 8 := by
    have hmax := maxVl_le_512 s.cfg
    omega
  constructor
  case selected =>
    intro j hj hsel
    exact Form.elem64_nextState_selected hvl m ((Form.mem_selected_iff_of_evexMask hmask hkl).mpr ⟨hj, hsel⟩)
  case merged =>
    intro j hj hsel hz
    rw [Form.elem64_nextState_dst hvl hkl m hj, Form.element_of_not_selected hmask hkl m hj hsel, hz]
    rfl
  case zeroed =>
    intro j hj hsel hz
    rw [Form.elem64_nextState_dst hvl hkl m hj, Form.element_of_not_selected hmask hkl m hj hsel, hz]
    rfl

end Masked

/-! ### The EVEX forms that report conditions (42_vcvtps2pd_evex.md R100 to R102) -/

/-- An accessed byte is one that some selected element needs (20_memory.md R40). -/
theorem Form.exists_selected_of_mem_accessed {f : Form} {bcst : Bool} {t : Nat} (h : t ∈ f.accessed bcst) :
    ∃ j ∈ f.selected, t ∈ if bcst then [0, 1, 2, 3] else [4 * j, 4 * j + 1, 4 * j + 2, 4 * j + 3] := by
  cases bcst with
  | true =>
    simp only [Form.accessed, if_true] at h ⊢
    split at h
    · cases h
    next hne =>
      obtain ⟨j, hj⟩ := List.exists_mem_of_ne_nil _ (mt List.isEmpty_iff.mpr hne)
      exact ⟨j, hj, h⟩
  | false => exact List.mem_flatMap.mp h

section EvexForm

variable {kl : Nat} (needVL : Bool) {op : EvexOp} {s : State} {m : Mode}

theorem evexForm_mem_selected_iff (hkl : kl ≤ 8) {j : Nat} :
    j ∈ (evexForm kl needVL op s).selected ↔ j < kl ∧ Selected s op.aaa j :=
  Form.mem_selected_iff_of_evexMask (f := evexForm kl needVL op s) rfl hkl

theorem evexForm_kl : (evexForm kl needVL op s).kl = kl := rfl

theorem evexForm_pre : (evexForm kl needVL op s).pre = op.pre := rfl

/-- A `disp8` is scaled by the size of the operand (30_encoding.md R64). -/
theorem evexForm_offset (bcst : Bool) (a : Mem) :
    (evexForm kl needVL op s).offset s m bcst a = memOffset s m op.pre op.len (evexScale kl bcst) a := rfl

theorem evexForm_sourceElem (kl : Nat) (op : EvexOp) (s : State) (m : Mode) :
    (evexForm kl needVL op s).sourceElem s m = fun j => evexBits s m op.pre op.len kl j op.src := by
  have hf : (evexForm kl needVL op s).src = operandOfEvex op.src := rfl
  funext j
  cases hsrc : op.src with
  | reg n => simp [Form.sourceElem, hf, hsrc, operandOfEvex, evexBits]
  | mem bcst a => simp [Form.sourceElem, hf, hsrc, operandOfEvex, evexBits, evexForm_offset, evexForm_pre]

theorem evexForm_accessCheck_eq_none (hkl : kl ≤ 8) (h : EvexReadable s m op.pre op.len kl op.aaa op.src) :
    (evexForm kl needVL op s).accessCheck s m = none := by
  cases hsrc : op.src with
  | reg n => exact Form.accessCheck_reg (congrArg operandOfEvex hsrc) s m
  | mem bcst a =>
    rw [hsrc] at h
    obtain ⟨hac, hbytes⟩ := h
    rw [Form.accessCheck_mem (congrArg operandOfEvex hsrc) hac, checkBytes_none_iff]
    intro t ht
    obtain ⟨j, hj, htj⟩ := Form.exists_selected_of_mem_accessed ht
    obtain ⟨hlt, hsel⟩ := (evexForm_mem_selected_iff needVL hkl).mp hj
    exact (checkBytes_none_iff s m _ _ _ _).mp (hbytes j hlt hsel) t htj

theorem evexForm_unmasked_eq_false (hkl : kl ≤ 8)
    (h : NoUnmasked s kl (Selected s op.aaa) (fun j => evexBits s m op.pre op.len kl j op.src)) :
    unmasked s.mxcsr ((evexForm kl needVL op s).anyInvalid s m) ((evexForm kl needVL op s).anyDenormal s m) =
      false := by
  refine Form.unmasked_eq_false_of_noUnmasked ?_
  rw [evexForm_sourceElem]
  exact fun j hj hsel => h j hj ((evexForm_mem_selected_iff needVL hkl).mp hsel).2

theorem evexForm_flagsOred (hkl : kl ≤ 8) (op : EvexOp) (s : State) (m : Mode) :
    FlagsOred s ((evexForm kl needVL op s).nextState s m) kl (Selected s op.aaa)
      (fun j => evexBits s m op.pre op.len kl j op.src) := by
  obtain ⟨hie, hde, hother⟩ := Form.nextState_flagsOred (f := evexForm kl needVL op s) (s := s) rfl m
  simp only [evexForm_mem_selected_iff needVL hkl, evexForm_sourceElem, evexForm_kl, and_assoc, and_self_left]
    at hie hde
  exact ⟨hie, hde, hother⟩

end EvexForm

/-- An EVEX row of `kl` elements completes under its writemask, with every bit above the elements zero. -/
theorem exec_evex {i : Instr} {op : EvexOp} {s : State} {m : Mode} {kl : Nat} {needVL : Bool}
    (hi : formOf i s = evexForm kl needVL op s) (hkl : kl ≤ 8) (hm : s.opMode = .run m) (hs : Avx512Enabled s)
    (hvl : needVL = true → s.cfg.hasAVX512VL = true) (hop : EvexFieldsOk op)
    (hread : EvexReadable s m op.pre op.len kl op.aaa op.src)
    (hno : NoUnmasked s kl (Selected s op.aaa) (fun j => evexBits s m op.pre op.len kl j op.src))
    (hpc : PcFits s m op.len) :
    ∃ t, exec i s = .next t ∧
      MaskConverted s kl op.aaa op.z (fun j => evexBits s m op.pre op.len kl j op.src) s.v[op.dst] t.v[op.dst] ∧
      HighZero (64 * kl) t.v[op.dst] ∧
      FlagsOred s t kl (Selected s op.aaa) (fun j => evexBits s m op.pre op.len kl j op.src) ∧
      t.pc = nextPc m s.pc op.len ∧ Frame op.dst s t := by
  have hsae : (formOf i s).sae = false := by rw [hi]; rfl
  have hdst : dstOf i = op.dst := by rw [← formOf_dst i s, hi]; rfl
  have hwide : 64 * kl ≤ s.cfg.maxVl := by rw [maxVl_of_avx512Enabled hs]; omega
  have hnext : exec i s = .next ((evexForm kl needVL op s).nextState s m) := by
    rw [exec_eq_convert (saeAccepted_of_sae_eq_false hsae), hi]
    exact convert_next hm (evexForm_ud_eq_false hs hop hvl) hs.ts (evexForm_accessCheck_eq_none needVL hkl hread)
      (.inr (evexForm_unmasked_eq_false needVL hkl hno)) (pcWraps_eq_false_of_pcFits hpc)
  have hconv := Form.maskConverted_nextState (f := evexForm kl needVL op s) (aaa := op.aaa) rfl hwide m
  rw [evexForm_sourceElem] at hconv
  exact ⟨_, hnext, hconv, Form.nextState_dst_highZero (f := evexForm kl needVL op s) rfl m,
    evexForm_flagsOred needVL hkl op s m, rfl, hdst ▸ completionChangesOnlyItsDestination i s _ hnext⟩

/-- Settles O22: the EVEX row of two elements. -/
theorem evex128ConvertsUnderMask : Obligations.Evex128ConvertsUnderMask := by
  intro op s m hm hs hvl hop hread hno hpc
  exact exec_evex rfl (by decide) hm hs (fun _ => hvl) hop hread hno hpc

/-- Settles O23: the EVEX row of four elements. -/
theorem evex256ConvertsUnderMask : Obligations.Evex256ConvertsUnderMask := by
  intro op s m hm hs hvl hop hread hno hpc
  exact exec_evex rfl (by decide) hm hs (fun _ => hvl) hop hread hno hpc

/-- Settles O24: the EVEX row of eight elements, which leaves no bit above them. -/
theorem evex512ConvertsUnderMask : Obligations.Evex512ConvertsUnderMask := by
  intro op s m hm hs hop hread hno hpc
  obtain ⟨t, hnext, hconv, -, hflags, hpc', hframe⟩ :=
    exec_evex (i := .vcvtps2pdEvex512 op) rfl (by decide) hm hs nofun hop hread hno hpc
  exact ⟨t, hnext, hconv, hflags, hpc', hframe⟩

/-! ### The `{sae}` form (42_vcvtps2pd_evex.md R103) -/

theorem saeForm_ud_eq_false {op : SaeOp} {s : State} (hs : Avx512Enabled s) (hop : SaeFieldsOk op) :
    (saeForm op s).ud = false := by
  obtain ⟨hf, hosx, hx, hxhi, -⟩ := hs
  obtain ⟨hlock, hbad, hvvvv, hw, hvbar, hz⟩ := hop
  simpa [saeForm, evexUd, hf, hosx, hx, hxhi, hlock, hbad, hvvvv, hw, hvbar] using hz

/-- Settles O25: a register source needs no check, and `{sae}` commits without asking for the conditions. -/
theorem saeConvertsWithoutFlags : Obligations.SaeConvertsWithoutFlags := by
  intro op s m hm hs hop hll hpc
  have hnext : exec (.vcvtps2pdEvex512Sae op) s = .next ((saeForm op s).nextState s m) := by
    rw [exec_eq_convert (i := .vcvtps2pdEvex512Sae op) hll]
    exact convert_next hm (saeForm_ud_eq_false hs hop) hs.ts (Form.accessCheck_reg rfl s m) (.inl rfl)
      (pcWraps_eq_false_of_pcFits hpc)
  exact ⟨_, hnext,
    Form.maskConverted_nextState (f := saeForm op s) rfl (maxVl_of_avx512Enabled hs).ge m,
    rfl, rfl, completionChangesOnlyItsDestination _ s _ hnext⟩

/-! ### Mask bits that select no element (42_vcvtps2pd_evex.md R98) -/

section OtherMask

variable {f : Form} {mask : BitVec 8} (h : ∀ j, j < f.kl → mask.getLsbD j = f.mask.getLsbD j)
include h

theorem Form.selected_withMask : Form.selected { f with mask := mask } = f.selected :=
  List.filter_congr fun j hj => h j (List.mem_range.mp hj)

theorem Form.accessCheck_withMask : Form.accessCheck { f with mask := mask } = f.accessCheck := by
  have hacc : Form.accessed { f with mask := mask } = f.accessed := by
    funext bcst
    simp only [Form.accessed, Form.selected_withMask h]
  funext s m
  simp only [Form.accessCheck, Form.alignmentStop, hacc]
  rfl

theorem Form.anyInvalid_withMask : Form.anyInvalid { f with mask := mask } = f.anyInvalid := by
  funext s m
  simp only [Form.anyInvalid, Form.selected_withMask h]
  rfl

theorem Form.anyDenormal_withMask : Form.anyDenormal { f with mask := mask } = f.anyDenormal := by
  funext s m
  simp only [Form.anyDenormal, Form.selected_withMask h]
  rfl

theorem Form.destValue_withMask : Form.destValue { f with mask := mask } = f.destValue := by
  funext s m
  have hmap : (List.range f.kl).map (Form.element { f with mask := mask } s m) =
      (List.range f.kl).map (f.element s m) := by
    refine List.map_congr_left fun j hj => ?_
    simp only [Form.element, h j (List.mem_range.mp hj)]
    rfl
  simp only [Form.destValue, hmap]

/-- Mask bits at or above the number of elements decide nothing. -/
theorem convert_withMask : convert { f with mask := mask } = convert f := by
  funext s
  simp only [convert, Form.flags, Form.accessCheck_withMask h, Form.anyInvalid_withMask h,
    Form.anyDenormal_withMask h, Form.destValue_withMask h]

end OtherMask

/-! ### Executions that differ in opmask registers alone (42_vcvtps2pd_evex.md R98) -/

theorem checkBytes_withOpmasks_none {s : State} {m : Mode} {seg : SegReg} {a : AccessKind} {off : Word}
    {l : List Nat} (h : checkBytes s m seg a off l = none) (k : Vector Word 8) :
    checkBytes { s with k := k } m seg a off l = none := by
  simp only [checkBytes, Option.or_eq_none_iff, List.findSome?_eq_none_iff, segmentFault_none_iff,
    pageFault_none_iff] at h ⊢
  exact h

theorem Form.accessCheck_withOpmasks_none {f : Form} {s : State} {m : Mode} (h : f.accessCheck s m = none)
    (k : Vector Word 8) : f.accessCheck { s with k := k } m = none := by
  cases hsrc : f.src with
  | reg n => exact Form.accessCheck_reg hsrc _ m
  | mem bcst a =>
    simp only [Form.accessCheck, hsrc, Option.or_eq_none_iff, Form.alignmentStop_none_iff] at h ⊢
    obtain ⟨hbytes, halign⟩ := h
    exact ⟨checkBytes_withOpmasks_none hbytes k, halign⟩

/-- Once its mask is taken, a form reads no opmask register. -/
theorem convert_withOpmasks {f : Form} {s t : State} (h : convert f s = .next t) (k : Vector Word 8) :
    convert f { s with k := k } = .next { t with k := k } := by
  obtain ⟨m, hm, hud, hts, hacc, hun, hpc, rfl⟩ := convert_next_inv h
  exact convert_next (s := { s with k := k }) hm hud hts (Form.accessCheck_withOpmasks_none hacc k) hun hpc

/-- Bits `kl-1:0` of `K[aaa]`, or none where `aaa = 000`, decide which of `kl` elements are selected. -/
theorem evexMask_withOpmasks_getLsbD {s : State} {aaa : BitVec 3} {k : Vector Word 8} {kl : Nat} (hkl : kl ≤ 8)
    (hbits : aaa ≠ 0#3 → ∀ j, j < kl →
      (k[aaa.toNat]'aaa.isLt).getLsbD j = (s.k[aaa.toNat]'aaa.isLt).getLsbD j) {j : Nat} (hj : j < kl) :
    (evexMask { s with k := k } aaa).getLsbD j = (evexMask s aaa).getLsbD j := by
  have hj8 : j < 8 := Nat.lt_of_lt_of_le hj hkl
  rw [Bool.eq_iff_iff, evexMask_getLsbD_iff_selected _ _ hj8, evexMask_getLsbD_iff_selected _ _ hj8]
  by_cases haaa : aaa = 0#3
  · simp [Selected, haaa]
  · simp [Selected, haaa, hbits haaa j hj]

theorem convert_evexForm_withOpmasks {kl : Nat} {needVL : Bool} {op : EvexOp} {s t : State} {k : Vector Word 8}
    (hkl : kl ≤ 8)
    (hbits : op.aaa ≠ 0#3 → ∀ j, j < kl →
      (k[op.aaa.toNat]'op.aaa.isLt).getLsbD j = (s.k[op.aaa.toNat]'op.aaa.isLt).getLsbD j)
    (h : convert (evexForm kl needVL op s) s = .next t) :
    convert (evexForm kl needVL op { s with k := k }) { s with k := k } = .next { t with k := k } := by
  have hform : evexForm kl needVL op { s with k := k } =
      { evexForm kl needVL op s with mask := evexMask { s with k := k } op.aaa } := rfl
  rw [hform, convert_withMask fun j hj => evexMask_withOpmasks_getLsbD hkl hbits hj]
  exact convert_withOpmasks h k

/-- Settles O36: the other contents change neither the selected elements nor anything else the form reads. -/
theorem onlyWritemaskBitsMatter : Obligations.OnlyWritemaskBitsMatter := by
  rintro op s t kl i k (⟨rfl, rfl⟩ | ⟨rfl, rfl⟩ | ⟨rfl, rfl⟩) hbits h
  · exact convert_evexForm_withOpmasks (by decide) hbits h
  · exact convert_evexForm_withOpmasks (by decide) hbits h
  · exact convert_evexForm_withOpmasks (by decide) hbits h

end Sys2Proof.Machine

namespace Sys2Proof.Machine

open Sys2Proof.Safety

/-! ### Every outcome of an instruction is its form's (60_exceptions.md R118) -/

@[simp] theorem formOf_pre (i : Instr) (s : State) : (formOf i s).pre = prefixesOf i := by cases i <;> rfl

/-- An instruction does what its form does, or is the `{sae}` row refused by its vector length (30_encoding.md R56). -/
theorem exec_eq_convert_or_refused (i : Instr) (s : State) :
    exec i s = convert (formOf i s) s ∨ exec i s = .refused .saeVectorLength := by
  by_cases h : SaeAccepted s i
  · exact .inl (exec_eq_convert h)
  · cases i with
    | vcvtps2pdEvex512Sae op =>
      simp only [SaeAccepted, not_or, Bool.not_eq_true] at h
      exact .inr (saeVectorLengthParameter op s h.1 h.2)
    | _ => exact absurd trivial h

/-- Only the `{sae}` row can be refused by its vector length, and its source is a register. -/
theorem saeAccepted_of_mem {i : Instr} {bcst : Bool} {a : Mem} (h : operandOf i = .mem bcst a) (s : State) :
    SaeAccepted s i := by
  cases i with
  | vcvtps2pdEvex512Sae op => cases h
  | _ => trivial

/-! ### Modes without a meaning (60_exceptions.md R126) -/

theorem convert_of_not_run {s : State} (h : ∀ m, s.opMode ≠ .run m) (f : Form) :
    convert f s = .refused .unsupportedMode := by
  cases hm : s.opMode with
  | run m => exact absurd hm (h m)
  | _ => simp [convert, hm]

theorem step_of_not_run {s : State} (h : ∀ m, s.opMode ≠ .run m) : step s = .refused .unsupportedMode := by
  cases hm : s.opMode with
  | run m => exact absurd hm (h m)
  | _ => simp [step, stepWithin, hm]

/-- Settles O7: the step and `convert` ask for the mode first; the `{sae}` row may be refused before that. -/
theorem otherModesRefused : Obligations.OtherModesRefused := by
  intro s hs
  refine ⟨step_of_not_run hs, fun i => ?_⟩
  rcases exec_eq_convert_or_refused i s with h | h
  · exact ⟨_, h.trans (convert_of_not_run hs _)⟩
  · exact ⟨_, h⟩

/-! ### The launch premises (70_reset_and_hazards.md R131) -/

theorem alignmentChecking_eq_true_iff (s : State) :
    s.alignmentChecking = true ↔ s.cr0.getLsbD 18 = true ∧ s.rflags.getLsbD 18 = true ∧ s.cpl = 3#2 := by
  simp [State.alignmentChecking, State.cr0AM, State.flagAC, and_assoc]

theorem premiseRefusal_eq_none_iff (s : State) :
    premiseRefusal s = none ↔ s.flagTF = false ∧ s.breakpointArmed = false ∧ s.perfCounting = false ∧
      s.alignmentChecking = false ∧ mxcsrReservedBits s.mxcsr = 0#16 ∧
      (mxcsrDAZ s.mxcsr = true → s.cfg.supportsDAZ = true) := by
  unfold premiseRefusal
  split_ifs <;> simp_all

theorem step_of_premiseRefusal {s : State} {r : Refusal} (hp : premiseRefusal s = some r) :
    ∃ r', step s = .refused r' := by
  cases hm : s.opMode with
  | run m => exact ⟨r, by simp [step, stepWithin, hm, hp]⟩
  | _ => exact ⟨.unsupportedMode, by simp [step, stepWithin, hm]⟩

/-- Settles O8: each of the conditions contradicts a premise, so there is a refusal. -/
theorem launchPremisesRequired : Obligations.LaunchPremisesRequired := by
  intro s hs
  cases hp : premiseRefusal s with
  | some r => exact step_of_premiseRefusal hp
  | none =>
    obtain ⟨htf, hbp, hperf, hac, hres, hdaz⟩ := (premiseRefusal_eq_none_iff s).mp hp
    exfalso
    rcases hs with h | h | h | h | h | ⟨h, hno⟩
    · exact Bool.false_ne_true (htf.symm.trans h)
    · exact h (by simpa [State.breakpointArmed] using hbp)
    · exact Bool.false_ne_true (hperf.symm.trans h)
    · exact Bool.false_ne_true (hac.symm.trans ((alignmentChecking_eq_true_iff s).mpr h))
    · exact h hres
    · exact Bool.false_ne_true (hno.symm.trans (hdaz h))

/-! ### #UD by the state of the processor (60_exceptions.md R109 items 2 and 4 to 6) -/

theorem getLsbD_of_extractLsb'_eq_allOnes {w n start b : Nat} {x : BitVec w}
    (h : x.extractLsb' start n = BitVec.allOnes n) (hlo : start ≤ b) (hhi : b < start + n) : x.getLsbD b = true := by
  have hbit := congrArg (·.getLsbD (b - start)) h
  simpa [show b - start < n by omega, show start + (b - start) = b by omega] using hbit

theorem getLsbD_xcr0_of_avxEnabled {s : State} (h : s.avxEnabled = true) {b : Nat} (hb : b = 1 ∨ b = 2) :
    s.xcr0.getLsbD b = true :=
  getLsbD_of_extractLsb'_eq_allOnes (start := 1) (n := 2) (eq_of_beq h) (by omega) (by omega)

theorem getLsbD_xcr0_of_avx512Enabled {s : State} (h : s.avx512Enabled = true) {b : Nat}
    (hb : b = 5 ∨ b = 6 ∨ b = 7) : s.xcr0.getLsbD b = true :=
  getLsbD_of_extractLsb'_eq_allOnes (start := 5) (n := 3) (eq_of_beq h) (by omega) (by omega)

theorem legacyUd_eq_false_iff (pre : Prefixes) (s : State) :
    legacyUd pre s = false ↔
      pre.lock = false ∧ s.cfg.hasSSE2 = true ∧ s.cr0EM = false ∧ s.osfxsr = true := by
  simp [legacyUd, and_assoc]

theorem evexUd_eq_false_iff (pre : Prefixes) (bad w : Bool) (vvvv : BitVec 4) (vbar z : Bool) (aaa : BitVec 3)
    (s : State) :
    evexUd pre bad w vvvv vbar z aaa s = false ↔ vvvv = 15#4 ∧ w = false ∧ vbar = true ∧ (z = true → aaa ≠ 0#3) ∧
      pre.lock = false ∧ bad = false ∧ s.cfg.hasAVX512F = true ∧ s.osxsave = true ∧ s.avxEnabled = true ∧
      s.avx512Enabled = true := by
  simp [evexUd, and_assoc]

/-- Settles O39: each condition contradicts one of those under which the form is not #UD. -/
theorem legacyUdConditions : Obligations.LegacyUdConditions := by
  intro op s m hm hs
  refine exec_ud (i := .cvtps2pd op) hm trivial (Bool.eq_true_of_not_eq_false fun hud => ?_)
  obtain ⟨-, hsse2, hem, hosfxsr⟩ := (legacyUd_eq_false_iff op.pre s).mp hud
  rcases hs with h | h | h
  · exact Bool.false_ne_true (h.symm.trans hsse2)
  · exact Bool.false_ne_true (hem.symm.trans h)
  · exact Bool.false_ne_true (h.symm.trans hosfxsr)

/-- R109 items 2 and 5, in raw bits. -/
theorem vexUd_of_condition {op : VexOp} {s : State}
    (hs : s.cfg.hasAVX = false ∨ s.cr4.getLsbD 18 = false ∨ s.xcr0.getLsbD 1 = false ∨ s.xcr0.getLsbD 2 = false ∨
      op.badPrefix = true) : vexUd op s = true := by
  refine Bool.eq_true_of_not_eq_false fun hud => ?_
  obtain ⟨-, -, hbad, havx, hosx, hx⟩ := (vexUd_eq_false_iff op s).mp hud
  rcases hs with h | h | h | h | h
  · exact Bool.false_ne_true (h.symm.trans havx)
  · exact Bool.false_ne_true (h.symm.trans hosx)
  · exact Bool.false_ne_true (h.symm.trans (getLsbD_xcr0_of_avxEnabled hx (.inl rfl)))
  · exact Bool.false_ne_true (h.symm.trans (getLsbD_xcr0_of_avxEnabled hx (.inr rfl)))
  · exact Bool.false_ne_true (hbad.symm.trans h)

/-- Settles O40: the four rows share the #UD conditions of the VEX formats. -/
theorem vexUdConditions : Obligations.VexUdConditions := by
  intro op s m hm hs
  have hud : vexUd op s = true := vexUd_of_condition hs
  exact ⟨exec_ud (i := .vcvtps2pdVex128C5 op) hm trivial hud, exec_ud (i := .vcvtps2pdVex128C4 op) hm trivial hud,
    exec_ud (i := .vcvtps2pdVex256C5 op) hm trivial hud, exec_ud (i := .vcvtps2pdVex256C4 op) hm trivial hud⟩

/-- R109 items 2 and 6 and R68, in raw bits, for every EVEX form. -/
theorem evexUd_of_condition {bad w vbar z : Bool} {aaa : BitVec 3} {s : State}
    (hs : s.cfg.hasAVX512F = false ∨ s.cr4.getLsbD 18 = false ∨ (∃ b, b ∈ [1, 2, 5, 6, 7] ∧ s.xcr0.getLsbD b = false) ∨
      bad = true ∨ w = true ∨ vbar = false ∨ (z = true ∧ aaa = 0#3)) (pre : Prefixes) (vvvv : BitVec 4) :
    evexUd pre bad w vvvv vbar z aaa s = true := by
  refine Bool.eq_true_of_not_eq_false fun hud => ?_
  obtain ⟨-, hw, hvbar, hz, -, hbad, hf, hosx, hx, hxhi⟩ := (evexUd_eq_false_iff _ _ _ _ _ _ _ s).mp hud
  rcases hs with h | h | ⟨b, hb, h⟩ | h | h | h | ⟨hz1, haaa⟩
  · exact Bool.false_ne_true (h.symm.trans hf)
  · exact Bool.false_ne_true (h.symm.trans hosx)
  · have hset : s.xcr0.getLsbD b = true := by
      have hcases : (b = 1 ∨ b = 2) ∨ (b = 5 ∨ b = 6 ∨ b = 7) := by simpa [or_assoc] using hb
      exact hcases.elim (getLsbD_xcr0_of_avxEnabled hx) (getLsbD_xcr0_of_avx512Enabled hxhi)
    exact Bool.false_ne_true (h.symm.trans hset)
  · exact Bool.false_ne_true (hbad.symm.trans h)
  · exact Bool.false_ne_true (hw.symm.trans h)
  · exact Bool.false_ne_true (h.symm.trans hvbar)
  · exact hz hz1 haaa

/-- Settles O41: the three rows share the #UD conditions of the EVEX format, and two of them need AVX512VL. -/
theorem evexUdConditions : Obligations.EvexUdConditions := by
  intro op s m hm
  refine ⟨fun hs => ?_, fun hvl => ?_⟩
  · have hud (kl : Nat) (needVL : Bool) : (evexForm kl needVL op s).ud = true :=
      Bool.or_eq_true_iff.mpr (.inl (evexUd_of_condition hs op.pre op.vvvv))
    exact ⟨exec_ud (i := .vcvtps2pdEvex128 op) hm trivial (hud 2 true),
      exec_ud (i := .vcvtps2pdEvex256 op) hm trivial (hud 4 true),
      exec_ud (i := .vcvtps2pdEvex512 op) hm trivial (hud 8 false)⟩
  · have hud (kl : Nat) : (evexForm kl true op s).ud = true := by simp [evexForm, hvl]
    exact ⟨exec_ud (i := .vcvtps2pdEvex128 op) hm trivial (hud 2),
      exec_ud (i := .vcvtps2pdEvex256 op) hm trivial (hud 4)⟩

/-- Settles O42: the `{sae}` form checks the conditions of every EVEX form. -/
theorem saeUdConditions : Obligations.SaeUdConditions :=
  fun op _ _ hm hsae hs =>
    exec_ud (i := .vcvtps2pdEvex512Sae op) hm hsae (evexUd_of_condition hs op.pre op.vvvv)

/-! ### #NM (60_exceptions.md R110) -/

theorem convert_nm {f : Form} {s : State} {m : Mode} (hm : s.opMode = .run m) (hud : f.ud = false)
    (hts : s.cr0TS = true) : convert f s = .fault (.deviceNotAvailable s) := by
  simp [convert, hm, hud, hts, takeException]

/-- Settles O43: `convert` asks for #UD, then for `CR0.TS`, and then for the operand. -/
theorem taskSwitchedIsNmAfterUd : Obligations.TaskSwitchedIsNmAfterUd := by
  intro i s m hm hsae hts
  refine ⟨?_, rfl, rfl⟩
  cases hud : (formOf i s).ud with
  | true => exact exec_ud hm hsae hud
  | false => exact (exec_eq_convert hsae).trans (convert_nm hm hud hts)

end Sys2Proof.Machine

namespace Sys2Proof.Machine

open Sys2Proof.Safety

/-! ### The first byte that stops an access (60_exceptions.md R118 step 4) -/

section FirstByte

variable {s : State} {m : Mode} {seg : SegReg} {k : AccessKind} {off : Word} {before after : List Nat} {t : Nat}
  {stop : Stop}

/-- The first byte that gives #SS or #GP decides, whatever page faults the bytes give (92_eei_decisions.md D22). -/
theorem checkBytes_of_segmentFault
    (hbefore : ∀ u ∈ before, segmentFault s m seg k (byteOffset m off u) (byteAddr s m seg off u) = none)
    (ht : segmentFault s m seg k (byteOffset m off t) (byteAddr s m seg off t) = some stop) :
    checkBytes s m seg k off (before ++ t :: after) = some stop := by
  have hfirst := List.findSome?_eq_some_iff.mpr ⟨before, t, after, rfl, ht, hbefore⟩
  rw [checkBytes, hfirst]
  rfl

/-- Where no byte gives #SS or #GP, the first byte that gives a page fault decides. -/
theorem checkBytes_of_pageFault
    (hseg : ∀ u ∈ before ++ t :: after, segmentFault s m seg k (byteOffset m off u) (byteAddr s m seg off u) = none)
    (hbefore : ∀ u ∈ before, pageFault s seg k (byteAddr s m seg off u) = none)
    (ht : pageFault s seg k (byteAddr s m seg off t) = some stop) :
    checkBytes s m seg k off (before ++ t :: after) = some stop := by
  have hfirst := List.findSome?_eq_some_iff.mpr ⟨before, t, after, rfl, ht, hbefore⟩
  rw [checkBytes, List.findSome?_eq_none_iff.mpr hseg, hfirst]
  rfl

end FirstByte

theorem convert_of_accessCheck {f : Form} {s : State} {m : Mode} {stop : Stop} (hm : s.opMode = .run m)
    (hud : f.ud = false) (hts : s.cr0TS = false) (hacc : f.accessCheck s m = some stop) :
    convert f s = stop.outcome := by
  simp [convert, hm, hud, hts, hacc]

/-- What stops the bytes of a memory operand ends the instruction, where neither #UD nor #NM stands before it. -/
theorem exec_of_checkBytes {i : Instr} {s : State} {m : Mode} {bcst : Bool} {a : Mem} {stop : Stop}
    (hm : s.opMode = .run m) (hud : (formOf i s).ud = false) (hts : s.cr0TS = false)
    (hmem : operandOf i = .mem bcst a)
    (hstop : checkBytes s m (memSeg m (prefixesOf i) a) .dataRead ((formOf i s).offset s m bcst a)
      ((formOf i s).accessed bcst) = some stop) :
    exec i s = stop.outcome := by
  refine (exec_eq_convert (saeAccepted_of_mem hmem s)).trans (convert_of_accessCheck hm hud hts ?_)
  simp only [Form.accessCheck, formOf_src, hmem, formOf_pre, hstop, Option.some_or]

theorem segmentFault_of_segmentPasses {s : State} {m : Mode} {seg : SegReg} {off : Word} {t : Nat}
    (h : SegmentPasses s m seg off t) :
    segmentFault s m seg .dataRead (byteOffset m off t) (byteAddr s m seg off t) = none :=
  (segmentFault_none_iff ..).mpr ⟨h.allows, h.notSs, h.notGp⟩

theorem pageFault_of_pf {s : State} {seg : SegReg} {k : AccessKind} {la : Word} {p r d : Bool}
    (h : translateAnswer s.cfg.translate la seg s.cpl k = .pf p r d) :
    pageFault s seg k la = some (.fault (.pageFault (pfCode p r d s.cpl k) la s)) := by
  simp [pageFault, h, takeException]

/-- Settles O44: the byte decides the check of the operand, and its code is `pfCode`, whose bit 4 is only a fetch's. -/
theorem pageFaultReportsLowestByte : Obligations.PageFaultReportsLowestByte := by
  rintro i s m bcst a before after t _ _ p r d hm hud hts hmem rfl rfl hacc hseg hbefore ht
  obtain ⟨hp, hwr, hus, hrsvd, hid⟩ := pfCode_bits p r d s.cpl .dataRead
  refine ⟨pfCode p r d s.cpl .dataRead, ?_, hp, hwr, hus, hrsvd, fun b hb => ?_⟩
  · refine exec_of_checkBytes (stop := .fault _) hm hud hts hmem ?_
    rw [hacc]
    exact checkBytes_of_pageFault (fun u hu => segmentFault_of_segmentPasses (hseg u hu))
      (fun u hu => (pageFault_none_iff ..).mpr (hbefore u hu)) (pageFault_of_pf ht)
  · rcases Nat.eq_or_lt_of_le hb with rfl | hb
    · exact hid.trans (Bool.and_false d)
    · exact pfCode_above _ _ _ _ _ hb

/-! ### #SS and #GP of one byte (20_memory.md R37; 60_exceptions.md R111, R112) -/

theorem segmentAllows_mode32_dataRead_iff (s : State) (seg : SegReg) (off la : Word) :
    segmentAllows s .mode32 seg .dataRead off la = true ↔
      off.toNat ≤ (s.segs.get seg).limit.toNat ∧ (s.segs.get seg).isNull = false ∧
        (s.segs.get seg).readable = true := by
  simp [segmentAllows]

/-- The violations of R37: by the address in `Mode64`, by the segment in `Mode32`. -/
theorem segmentAllows_eq_false_of_violation {s : State} {m : Mode} {seg : SegReg} {off la : Word}
    (h : (m = .mode64 ∧ canonical s.cfg.laWidth la = false) ∨
      (m = .mode32 ∧ ((s.segs.get seg).limit.toNat < off.toNat ∨ (s.segs.get seg).isNull = true ∨
        (s.segs.get seg).readable = false))) :
    segmentAllows s m seg .dataRead off la = false := by
  rcases h with ⟨rfl, h⟩ | ⟨rfl, h⟩
  · exact h
  · rw [Bool.eq_false_iff, Ne, segmentAllows_mode32_dataRead_iff]
    rintro ⟨hlimit, hnull, hread⟩
    rcases h with h | h | h
    · exact Nat.not_lt.mpr hlimit h
    · exact Bool.false_ne_true (hnull.symm.trans h)
    · exact Bool.false_ne_true (h.symm.trans hread)

theorem segmentFault_of_not_allows {s : State} {m : Mode} {seg : SegReg} {k : AccessKind} {off la : Word}
    (h : segmentAllows s m seg k off la = false) :
    segmentFault s m seg k off la =
      some (.fault (if seg = .ss then .stackSegment s else .generalProtection s)) := by
  simp only [segmentFault, h, Bool.false_eq_true, if_false, segmentException]
  split <;> rfl

/-- Settles O45: the byte that violates R37 decides the check of the operand, before any page fault. -/
theorem segmentViolationIsSsOrGp : Obligations.SegmentViolationIsSsOrGp := by
  rintro i s m bcst a before after t _ _ hm hud hts hmem rfl rfl hacc hbefore hviol
  rw [← apply_ite Host.Outcome.fault]
  refine exec_of_checkBytes (stop := .fault _) hm hud hts hmem ?_
  rw [hacc]
  exact checkBytes_of_segmentFault (fun u hu => segmentFault_of_segmentPasses (hbefore u hu))
    (segmentFault_of_not_allows (segmentAllows_eq_false_of_violation hviol))

/-! ### What a fault leaves (60_exceptions.md R117, R120) -/

@[simp] theorem takeException_after (c : ExceptionCause) (s : State) : (takeException c s).after = s := by
  cases c <;> rfl

theorem Fault.faultAddr_isSome_iff (f : Fault) : f.faultAddr.isSome = true ↔ f.vector = 14 := by
  cases f <;> simp [Fault.faultAddr, Fault.vector]

theorem takeException_vector_eq_17 {c : ExceptionCause} {s : State} (h : (takeException c s).vector = 17) :
    c = .ac := by
  cases c with
  | ac => rfl
  | _ => simp [takeException, Fault.vector] at h

theorem takeException_simdException_vector (s t : State) :
    (takeException (simdException s) t).vector = 19 ∨ (takeException (simdException s) t).vector = 6 := by
  unfold simdException
  split
  · exact .inl rfl
  · exact .inr rfl

/-- #AC has its cause: alignment checking is on, and the memory operand is not aligned (60_exceptions.md R114). -/
def Form.AcCause (f : Form) (s : State) (m : Mode) : Prop :=
  s.alignmentChecking = true ∧ ∃ bcst a, f.src = .mem bcst a ∧ f.misaligned s m bcst a = true

/-- What a fault of `convert` is: an exception that leaves the state as it was, or the response to an unmasked
condition, which leaves the flags. -/
theorem convert_fault_inv {f : Form} {s : State} {r : Fault} (h : convert f s = .fault r) :
    ∃ m, s.opMode = .run m ∧
      ((∃ c, r = takeException c s ∧ (c = .ac → f.AcCause s m)) ∨
        r = takeException (simdException s) (s.setMxcsr (f.flags s m))) := by
  rcases convert_cases f s with ⟨m, -, -, -, -, -, -, hc⟩ | ⟨hc, -⟩ | ⟨m, hm, -, hc⟩ | ⟨m, hm, -, -, hc⟩ |
    ⟨m, stop, hm, -, -, hacc, hc⟩ | ⟨m, hm, -, -, -, -, -, hc⟩ | ⟨hc, -⟩
  all_goals rw [hc] at h
  · cases h
  · cases h
  · cases h
    exact ⟨m, hm, .inl ⟨.ud, rfl, nofun⟩⟩
  · cases h
    exact ⟨m, hm, .inl ⟨.nm, rfl, nofun⟩⟩
  · refine ⟨m, hm, .inl ?_⟩
    rcases Form.accessCheck_stop hacc with ⟨c, rfl, hbytes⟩ | ⟨rfl, hac⟩ | rfl | ⟨rfl, -⟩ <;> cases h
    · refine ⟨c, rfl, ?_⟩
      rintro rfl
      simp [ExceptionCause.ofBytes] at hbytes
    · exact ⟨.ac, rfl, fun _ => hac⟩
  · cases h
    exact ⟨m, hm, .inr rfl⟩
  · cases h

/-- The same of an instruction. -/
theorem exec_fault_inv {i : Instr} {s : State} {r : Fault} (h : exec i s = .fault r) :
    ∃ m, s.opMode = .run m ∧
      ((∃ c, r = takeException c s ∧ (c = .ac → (formOf i s).AcCause s m)) ∨
        r = takeException (simdException s) (s.setMxcsr ((formOf i s).flags s m))) := by
  rcases exec_eq_convert_or_refused i s with hc | hc <;> rw [hc] at h
  · exact convert_fault_inv h
  · cases h

theorem getLsbD_setFlags_of_set {x : BitVec 32} {b : Nat} (h : x.getLsbD b = true) (i d : Bool) :
    (setFlags x i d).getLsbD b = true := by
  rw [setFlags_eq_or, BitVec.getLsbD_or, h, Bool.true_or]

/-- Settles O47: a fault leaves the state it is taken from, which is `s`, or for #XM and the #UD in its place `s` with
the flags. -/
theorem faultsLeaveStateUnchanged : Obligations.FaultsLeaveStateUnchanged := by
  intro i s f h
  obtain ⟨m, hm, ⟨c, rfl, hac⟩ | rfl⟩ := exec_fault_inv h
  · rw [takeException_after]
    refine ⟨rfl, fun _ _ => rfl, fun _ => id, fun _ _ => rfl, Fault.faultAddr_isSome_iff _, fun h17 => ?_⟩
    obtain ⟨hchecking, bcst, a, hsrc, hmis⟩ := hac (takeException_vector_eq_17 h17)
    obtain ⟨ham, hflag, hcpl⟩ := (alignmentChecking_eq_true_iff s).mp hchecking
    rw [formOf_src] at hsrc
    exact ⟨ham, hflag, hcpl, m, bcst, a, hm, hsrc, hmis⟩
  · have hvec := takeException_simdException_vector s (s.setMxcsr ((formOf i s).flags s m))
    rw [takeException_after]
    refine ⟨rfl, fun _ hb => getLsbD_setFlags_other _ _ _ hb, fun _ hb => getLsbD_setFlags_of_set hb _ _,
      fun h19 h6 => ?_, Fault.faultAddr_isSome_iff _, fun h17 => ?_⟩
    · exact absurd hvec (not_or.mpr ⟨h19, h6⟩)
    · rw [h17] at hvec
      exact absurd hvec (by decide)

/-! ### The privilege level (60_exceptions.md R125) -/

theorem formOf_withCpl (i : Instr) (s : State) (c : BitVec 2) : formOf i { s with cpl := c } = formOf i s := by
  cases i <;> rfl

theorem saeAccepted_withCpl {i : Instr} {s : State} (h : SaeAccepted s i) (c : BitVec 2) :
    SaeAccepted { s with cpl := c } i := by cases i <;> exact h

/-- With a register source there is no access to check, and nothing else reads the privilege level. -/
theorem convert_withCpl {f : Form} {n : Fin 32} (hsrc : f.src = .reg n) {s t : State} (h : convert f s = .next t)
    (c : BitVec 2) : convert f { s with cpl := c } = .next { t with cpl := c } := by
  obtain ⟨m, hm, hud, hts, -, hun, hpc, rfl⟩ := convert_next_inv h
  exact convert_next (s := { s with cpl := c }) hm hud hts (Form.accessCheck_reg hsrc _ m) hun hpc

/-- Settles O34: the form is the same at every level, and `convert` with a register source asks for none. -/
theorem privilegeLevelIrrelevant : Obligations.PrivilegeLevelIrrelevant := by
  intro i s t c n hsrc h
  have hframe := completionChangesOnlyItsDestination i s t h
  refine ⟨by rw [hframe.others], ?_⟩
  rw [exec_eq_convert (saeAccepted_withCpl (saeAccepted_of_exec_next h) c), formOf_withCpl]
  exact convert_withCpl ((formOf_src i s).trans hsrc) (convert_formOf_of_exec_next h) c

/-! ### Faults of the fetch (60_exceptions.md R118 step 1) -/

/-- An instruction that does not end in the fetched bytes faults as the fetch did, or in #GP(0). -/
theorem truncatedOutcome_fault {s : State} {n : Nat} {fetchStop : Option Stop} {f : Fault}
    (h : truncatedOutcome s n fetchStop = .fault f) : fetchStop = some (.fault f) ∨ f = .generalProtection s := by
  unfold truncatedOutcome at h
  split at h
  · rename_i stop
    cases stop <;> cases h
    exact .inl rfl
  · split at h <;> cases h
    exact .inr rfl

/-- Settles O54: the step ends as the fetch did, which stops in #GP, or in #PF at the first byte that is not had. -/
theorem fetchFaultsArePageFaultOrGp : Obligations.FetchFaultsArePageFaultOrGp := by
  intro s m f hm hp hd h
  rw [step_run hm hp, hd] at h
  rcases truncatedOutcome_fault h with hstop | rfl
  · rcases fetchFrom_stop hstop with hgp | ⟨la, p, r, d, hla, hpf, hst⟩ | hdev
    · cases hgp
      exact .inl rfl
    · cases hst
      rw [Nat.zero_add] at hla
      obtain ⟨hp, hwr, hus, hrsvd, hid⟩ := pfCode_bits p r d s.cpl .fetch
      exact .inr ⟨_, la, p, r, d, rfl, hla, hpf, hp, hwr, hus, hrsvd, hid.trans (Bool.and_true d),
        fun _ hb => pfCode_above _ _ _ _ _ hb⟩
    · cases hdev
  · exact .inl rfl

end Sys2Proof.Machine

namespace Sys2Proof.Machine

open Sys2Proof.Safety

/-! ### The steps of a run (70_reset_and_hazards.md R138) -/

theorem runTo_of_pc_eq {stop : Word} {s : State} (h : s.pc = stop) (n : Nat) : runTo stop n s = .finished s := by
  cases n <;> rw [runTo, if_pos h]

/-- How a run finishes: at the end address already, or by a step before it and the rest of the run. -/
theorem runTo_finished_cases {stop : Word} {n : Nat} {s t : State} (h : runTo stop n s = .finished t) :
    (s.pc = stop ∧ t = s) ∨
    (s.pc ≠ stop ∧ ∃ k u, n = k + 1 ∧ stepBefore stop s = .next u ∧ runTo stop k u = .finished t) := by
  by_cases hpc : s.pc = stop
  · rw [runTo_of_pc_eq hpc] at h
    exact .inl ⟨hpc, (RunEnd.finished.inj h).symm⟩
  · cases n with
    | zero =>
      rw [runTo, if_neg hpc] at h
      cases h
    | succ k =>
      rw [runTo, if_neg hpc] at h
      cases hu : stepBefore stop s with
      | next u => exact .inr ⟨hpc, k, u, rfl, rfl, by rwa [hu] at h⟩
      | fault f => rw [hu] at h; cases h
      | refused r => rw [hu] at h; cases h

theorem run_succ_of_step_next {M : Host.Core} {s u : M.State} (h : M.step s = .next u) (k : Nat) :
    M.run (k + 1) s = M.run k u := by rw [Host.Core.run, h]

theorem run_core_zero (s : State) : Host.Core.run core 0 s = .next s := rfl

theorem run_core_succ {s u : State} (h : step s = .next u) (k : Nat) :
    Host.Core.run core (k + 1) s = Host.Core.run core k u := run_succ_of_step_next (M := core) h k

/-- Settles O52: by induction on the number of steps; each step of the run is one of the machine, taken before the end
address. -/
theorem runFinishesAtEndAddress : Obligations.RunFinishesAtEndAddress := by
  intro stop n
  induction n using Nat.strong_induction_on with
  | h n ih =>
    intro s t h
    rcases runTo_finished_cases h with ⟨hpc, rfl⟩ | ⟨hpc, n, u, rfl, hu, hrest⟩
    · exact ⟨hpc, 0, Nat.zero_le n, run_core_zero t, fun j _ hj => absurd hj (Nat.not_lt_zero j)⟩
    · obtain ⟨hstep, -⟩ := stepBefore_next hu
      obtain ⟨hend, k, hk, hrun, hbefore⟩ := ih n (Nat.lt_succ_self n) u t hrest
      refine ⟨hend, k + 1, Nat.succ_le_succ hk, (run_core_succ hstep k).trans hrun, fun j v hj hv => ?_⟩
      cases j with
      | zero =>
        cases hv
        exact hpc
      | succ j =>
        rw [run_core_succ hstep] at hv
        exact hbefore j v (Nat.lt_of_succ_lt_succ hj) hv

/-! ### The bytes of an executed instruction (30_encoding.md R53, R65, R69; 70_reset_and_hazards.md R138) -/

theorem formOf_ud_of_badPrefix {i : Instr} (h : badPrefixOf i = true) (s : State) : (formOf i s).ud = true := by
  cases i with
  | cvtps2pd op => cases h
  | vcvtps2pdEvexReservedLL11 op => rfl
  | _ => simp_all [badPrefixOf, formOf, vexForm, vexUd, evexForm, saeForm, evexUd]

/-- An instruction that completes has no prefix that is #UD. -/
theorem prefixes_of_exec_next {i : Instr} {s t : State} (h : exec i s = .next t) :
    (prefixesOf i).lock = false ∧ badPrefixOf i = false := by
  obtain ⟨-, -, hud, -⟩ := exec_next_inv h
  constructor
  · exact Bool.eq_false_of_not_eq_true fun hlock => Bool.false_ne_true (hud.symm.trans (formOf_ud_of_lock hlock s))
  · exact Bool.eq_false_of_not_eq_true fun hbad => Bool.false_ne_true (hud.symm.trans (formOf_ud_of_badPrefix hbad s))

/-- A step that completes runs an instruction that stands in the bytes it may fetch, and advances `pc` over it. -/
theorem stepWithin_next_length {s t : State} {m : Mode} {n : Nat} (hm : s.opMode = .run m)
    (h : stepWithin n s = .next t) :
    ∃ len, 3 ≤ len ∧ len ≤ 13 ∧ len ≤ n ∧ t.pc = nextPc m s.pc len := by
  obtain ⟨m₁, i, rest, hm₁, -, hd, he⟩ := stepWithin_next h
  obtain ⟨m₂, hm₂, -, -, rfl⟩ := exec_next_inv he
  cases hm.symm.trans hm₁
  cases hm.symm.trans hm₂
  obtain ⟨hlock, hbad⟩ := prefixes_of_exec_next he
  obtain ⟨hlen, hlo, hhi⟩ := decodedLengthIsConsumed m _ rest i hd hlock hbad
  have hfetched : (fetchFrom s m 0 n).1.length ≤ n := fetchFrom_length s m 0 n
  exact ⟨i.len, hlo, hhi, by omega, by rw [Form.nextState_pc, formOf_len]⟩

/-- Settles O53: the step may fetch only the bytes before the end address. -/
theorem runStaysInsideProgram : Obligations.RunStaysInsideProgram := by
  intro stop s t m hm h
  obtain ⟨-, m', hm', hstep⟩ := stepBefore_next h
  cases hm.symm.trans hm'
  obtain ⟨n, hlo, hhi, hn, hpc⟩ := stepWithin_next_length hm hstep
  exact ⟨n, hlo, hhi, hn.trans (Nat.min_le_right _ _), hpc⟩

end Sys2Proof.Machine

namespace Sys2Proof.Machine

open Sys2Proof.Safety

/-! ### The invariant at reset (10_state.md R10, R13, R14, R17, R25) -/

theorem highZero_zero {w : Nat} (n : Nat) : HighZero n (0#w) := fun _ _ => BitVec.getLsbD_zero

/-- Settles O2: every register is zero, nothing is stored, and the mode is not `Mode32`. -/
theorem resetMeetsInvariant : Obligations.ResetMeetsInvariant where
  mem := reset_memWf
  vecHigh n := by
    rw [reset_vec]
    exact highZero_zero _
  vecNone n _ := reset_vec n
  opmask n := by
    rw [reset_opmask]
    exact highZero_zero _
  mxcsr := by decide
  pc32 h32 := by cases h32

end Sys2Proof.Machine

namespace Sys2Proof

/-! ### The worked encodings (30_encoding.md section 9) -/

/-- The encoding of a well-formed instruction, with nothing after it, decodes to that instruction. -/
theorem decode_of_encode_eq {m : Mode} {i : Instr} {bytes : List Byte} (hwf : i.wf m = true)
    (henc : encode i = bytes) : decode m bytes = .instr i [] := by
  rw [← henc]
  simpa using decodeOfEncodeIsInstruction m i [] hwf

/-- Settles O15: each instruction is well-formed, and the encoder gives it the bytes of section 9. -/
theorem workedEncodingsDecode : Obligations.WorkedEncodingsDecode := by
  refine ⟨?_, ?_, ?_, ?_, ?_, ?_, ?_⟩ <;> exact decode_of_encode_eq (by decide) (by decide)

end Sys2Proof
